-- ==== Sys2Proof/Word.lean ====
section
/-! DEFINITION. The words of the block: 32-bit registers (00_scope.md R7 REG_WIDTH) and bytes (R12). -/

namespace Sys2Proof

/-- A host-visible register, an argument, a hash word: 32 bits, unsigned (R11). -/
abbrev Word := BitVec 32

/-- A byte of a byte sequence: 8 bits, unsigned (R12). -/
abbrev Byte := BitVec 8

end Sys2Proof
end

