-- ==== Sys2Proof/Syntax.lean ====
section
/-! DEFINITION. The commands: one constructor per row of spec/opcode_table.json, and the layout of the command word. -/

namespace Sys2Proof

/-- Bit T of a TOTP command (30_encoding.md R300): where the command takes its time from. -/
inductive TimeSource where
  /-- T = 0: the time port `NOW`. -/
  | port
  /-- T = 1: the timestamp in milliseconds in A[3], A[2]. -/
  | stamp
  deriving DecidableEq, Repr

/-- The 16 commands of 30_encoding.md R304.
The word holds no operand but T (R301); every other operand comes from the latched arguments. -/
inductive Instr where
  | b32Enc
  | b32Dec
  | shaInit
  | shaUpdate
  | shaFinal
  | shaHash
  | hmacSetkey
  | hmacUpdate
  | hmacFinal
  | hmacMac
  | hotpGen
  | hotpTrunc
  | totpGen (t : TimeSource)
  | totpVerify (t : TimeSource)
  | totpRemsec (t : TimeSource)
  | totpRempct (t : TimeSource)
  deriving DecidableEq, Repr

/-- The three fields of a command word (R300): OP[7:0], T[8], RSV[31:9]. -/
structure CmdFields where
  op : Byte
  t : Bool
  rsv : BitVec 23
  deriving DecidableEq, Repr

/-- The fields of a word (R300). -/
def CmdFields.ofWord (w : Word) : CmdFields :=
  { op := w.extractLsb' 0 8, t := w.getLsbD 8, rsv := w.extractLsb' 9 23 }

end Sys2Proof
end

