-- ==== Sys2Proof/WellFormed.lean ====
section
/-! DEFINITION. Which command words are legal (30_encoding.md R302, R303).
Every value of `Instr` is well formed: its only operand, T, has two values and both are legal for the commands that have it. -/

namespace Sys2Proof

/-- OPSET: the 16 assigned operation codes (R304). -/
def opset : List Byte :=
  [0x01, 0x02, 0x10, 0x11, 0x12, 0x13, 0x20, 0x21, 0x22, 0x23, 0x30, 0x31, 0x40, 0x41, 0x42, 0x43]

/-- The operation codes for which T may be 1 (R302). -/
def timedOps : List Byte := [0x40, 0x41, 0x42, 0x43]

/-- First check of R302: the operation code is assigned. -/
def CmdFields.opAssigned (f : CmdFields) : Bool := opset.contains f.op

/-- Second check of R302: the reserved bits are 0. -/
def CmdFields.rsvZero (f : CmdFields) : Bool := f.rsv == 0

/-- Third check of R302: T is 0, or the command is a TOTP command. -/
def CmdFields.timeAllowed (f : CmdFields) : Bool := !f.t || timedOps.contains f.op

/-- `legal(w)` of R302, on the fields of a word. -/
def CmdFields.wf (f : CmdFields) : Bool := f.opAssigned && f.rsvZero && f.timeAllowed

/-- `legal(w)` of R302. -/
def legal (w : Word) : Bool := (CmdFields.ofWord w).wf

end Sys2Proof
end

