-- ==== Sys2Proof/Decode.lean ====
section
/-! DEFINITION. Decoding a latched command word (30_encoding.md R300 to R310), and encoding an instruction. -/

namespace Sys2Proof

/-- Why a word is no command (R303). All three end in ILLEGAL_COMMAND (R302). -/
inductive Illegal where
  /-- A bit of RSV[31:9] is set. -/
  | reservedBits
  /-- OP is none of the 16 assigned codes. -/
  | unassignedOp
  /-- T = 1 outside the TOTP commands. -/
  | timeFlag
  deriving DecidableEq, Repr

/-- One row of the opcode table: the word w is this row's command when `w & mask = pattern` (R305). -/
structure CmdRow where
  mask : Word
  pattern : Word
  instr : TimeSource → Instr

/-- Every bit is fixed: format CMD (R305). -/
def maskCmd : Word := 0xFFFFFFFF

/-- Every bit but T is fixed: format CMD-T (R305). -/
def maskCmdT : Word := 0xFFFFFEFF

/-- The opcode table (R304). -/
def cmdRows : List CmdRow :=
  [ ⟨maskCmd, 0x00000001, fun _ => .b32Enc⟩,
    ⟨maskCmd, 0x00000002, fun _ => .b32Dec⟩,
    ⟨maskCmd, 0x00000010, fun _ => .shaInit⟩,
    ⟨maskCmd, 0x00000011, fun _ => .shaUpdate⟩,
    ⟨maskCmd, 0x00000012, fun _ => .shaFinal⟩,
    ⟨maskCmd, 0x00000013, fun _ => .shaHash⟩,
    ⟨maskCmd, 0x00000020, fun _ => .hmacSetkey⟩,
    ⟨maskCmd, 0x00000021, fun _ => .hmacUpdate⟩,
    ⟨maskCmd, 0x00000022, fun _ => .hmacFinal⟩,
    ⟨maskCmd, 0x00000023, fun _ => .hmacMac⟩,
    ⟨maskCmd, 0x00000030, fun _ => .hotpGen⟩,
    ⟨maskCmd, 0x00000031, fun _ => .hotpTrunc⟩,
    ⟨maskCmdT, 0x00000040, .totpGen⟩,
    ⟨maskCmdT, 0x00000041, .totpVerify⟩,
    ⟨maskCmdT, 0x00000042, .totpRemsec⟩,
    ⟨maskCmdT, 0x00000043, .totpRempct⟩ ]

/-- Bit T of a word (R300). -/
def timeSource (w : Word) : TimeSource := if w.getLsbD 8 then .stamp else .port

/-- Does the row match the word (R305)? -/
def CmdRow.covers (r : CmdRow) (w : Word) : Bool := w &&& r.mask == r.pattern

/-- The name of the first check of R302 that an illegal word fails. -/
def whyIllegal (w : Word) : Illegal :=
  if (CmdFields.ofWord w).rsvZero = false then .reservedBits
  else if (CmdFields.ofWord w).opAssigned = false then .unassignedOp
  else .timeFlag

/-- The command a word names, or why it names none.
The engine calls it at its step, not at the CMD write (R310). -/
def decode (w : Word) : Except Illegal Instr :=
  match cmdRows.find? (fun r => r.covers w) with
  | some r => .ok (r.instr (timeSource w))
  | none => .error (whyIllegal w)

/-- The operation code of an instruction (R304). -/
def opcode : Instr → Byte
  | .b32Enc => 0x01
  | .b32Dec => 0x02
  | .shaInit => 0x10
  | .shaUpdate => 0x11
  | .shaFinal => 0x12
  | .shaHash => 0x13
  | .hmacSetkey => 0x20
  | .hmacUpdate => 0x21
  | .hmacFinal => 0x22
  | .hmacMac => 0x23
  | .hotpGen => 0x30
  | .hotpTrunc => 0x31
  | .totpGen _ => 0x40
  | .totpVerify _ => 0x41
  | .totpRemsec _ => 0x42
  | .totpRempct _ => 0x43

/-- The T bit of an instruction's word (R304): 0 where the format is CMD. -/
def timeBit : Instr → Bool
  | .totpGen t => t == .stamp
  | .totpVerify t => t == .stamp
  | .totpRemsec t => t == .stamp
  | .totpRempct t => t == .stamp
  | _ => false

/-- The command word `op | (t << 8)` of an instruction (R304). -/
def encode (i : Instr) : Word :=
  (opcode i).setWidth 32 ||| ((BitVec.ofBool (timeBit i)).setWidth 32 <<< 8)

/-- The instruction the decoder reads from the low nbits bits of w, every bit above them 0.
A command is one 32-bit word (R300), so a longer one is refused. -/
def decodeTableWord (nbits w : Nat) : Option Instr :=
  if w % 2 ^ nbits < 2 ^ 32 then
    match decode (BitVec.ofNat 32 (w % 2 ^ nbits)) with
    | .ok i => some i
    | .error _ => none
  else none

end Sys2Proof
end

