-- ==== Sys2Proof/Machine/HostProgram.lean ====
section
/-! DEFINITION. What stands outside the state (00_scope.md R9): the host's accesses and their answers, the host program,
and the order in which the agents step. -/

namespace Sys2Proof.Machine

/-- One host access (20_memory.md R200 to R204, 30_encoding.md R330): an aperture offset and a width in bytes;
a write carries its data, of which an access of n bytes uses the low 8n bits. -/
inductive HostAccess where
  | read (off : BitVec 11) (nbytes : Nat)
  | write (off : BitVec 11) (nbytes : Nat) (data : Word)
  deriving DecidableEq, Repr

/-- What the block answers a host access (20_memory.md R202, 70_reset_and_hazards.md R1024). -/
inductive Reply where
  /-- A read's data, zero-extended to 32 bits. -/
  | data (v : Word)
  /-- A write was taken (or ignored where the spec says so); no data. -/
  | written
  /-- A bus error response: no data, no state changed (R202). -/
  | busError
  deriving DecidableEq, Repr

/-- What a host program does next. -/
inductive HostTurn where
  /-- It has made its last access (70_reset_and_hazards.md R1035). -/
  | finished
  /-- It makes the access. -/
  | access (a : HostAccess)
  /-- It waits until the interrupt output is 1, then makes the access (20_memory.md R221). -/
  | awaitIrq (a : HostAccess)
  deriving DecidableEq, Repr, Inhabited

/-- A host program: what it does next, from the answers to all its accesses so far, newest first.
It is deterministic, and it reacts to what it reads, as the loop of 30_encoding.md R332 does. -/
abbrev HostProgram := List Reply → HostTurn

/-- Whose step is next in the total order of 20_memory.md R220, as that order offers it. -/
inductive Agent where
  /-- HOST (00_scope.md R8 (a)). -/
  | host
  /-- ENGINE (00_scope.md R8 (b)). -/
  | engine
  /-- The power switch (70_reset_and_hazards.md R1000). -/
  | power
  deriving DecidableEq, Repr, Inhabited

/-- The parameters of the step relation that a step consults itself (00_scope.md R9): the host program, and the order
of the agents, by the number of steps made. The three others are `Config.base`, `Config.irqLine`, `Config.timePort`. -/
structure StepParams where
  program : HostProgram
  order : Nat → Agent

/-- Weak fairness of the ENGINE (70_reset_and_hazards.md R1030): the order offers it a step again and again. -/
def StepParams.Fair (p : StepParams) : Prop := ∀ n, ∃ m, n ≤ m ∧ p.order m = .engine

/-- One move in the total order of 20_memory.md R220. -/
inductive Move where
  | host (a : HostAccess)
  /-- The ENGINE's turn; nothing happens where no command is pending. -/
  | engine
  | powerOn
  deriving DecidableEq, Repr

end Sys2Proof.Machine
end

