-- ==== Sys2Proof/Config.lean ====
section
/-! DEFINITION. The parameters of 00_scope.md R7 and R9: those the spec fixes, and the OPEN ones, which have no body. -/

namespace Sys2Proof

/-- DBUF_SIZE (R7). -/
abbrev Config.dbufSize : Nat := 1024

/-- MAX_MSG_BYTES: the most bytes one SHA-1 or HMAC stream absorbs (R7, 41_sha1.md R509). -/
abbrev Config.maxMsgBytes : Nat := 2 ^ 61 - 1

/-- APERTURE: the size of the block's address range in bytes (R7). -/
abbrev Config.aperture : Nat := 2048

/-- PERIOD_RESET (R7, 10_state.md R107). -/
abbrev Config.periodReset : Word := 30

/-- DIGITS_RESET (R7, 10_state.md R108). -/
abbrev Config.digitsReset : BitVec 4 := 6

/-- The value of the ID register (10_state.md R101). -/
abbrev Config.idValue : Word := 0x4F545031

/-- NOW: the answer of the time port to its n-th read, in seconds since the Unix epoch.
A free value (60_exceptions.md R930: "any 64-bit value, with no law linking two reads"), log 2. -/
opaque Config.timePort : Nat → BitVec 64

/-- BASE: where the aperture stands on the host bus (R7, 20_memory.md R215). OPEN, log 4. -/
opaque Config.base : Nat

/-- IRQ_LINE: where the interrupt output is wired (R7, 60_exceptions.md R920). OPEN, log 4. -/
opaque Config.irqLine : Nat

/-- The host program (00_scope.md R9). It may be any, log 1. -/
opaque Config.hostProgram : Machine.HostProgram

/-- The order in which HOST, ENGINE and the power switch step (20_memory.md R220). It may be any, log 1. -/
opaque Config.order : Nat → Machine.Agent

/-- The parameters `step` runs under. -/
def Config.stepParams : Machine.StepParams := { program := Config.hostProgram, order := Config.order }

/-- The host bus address of an aperture offset (10_state.md R100). -/
def Config.busAddress (off : BitVec 11) : Nat := Config.base + off.toNat

/-- The aperture offset of a host bus address, where the address is the block's (10_state.md R100, 20_memory.md R215). -/
def Config.apertureOffset (addr : Nat) : Option (BitVec 11) :=
  if Config.base ≤ addr ∧ addr < Config.base + Config.aperture then
    some (BitVec.ofNat 11 (addr - Config.base))
  else none

end Sys2Proof
end

