-- ==== Sys2Proof/Machine/Bytes.lean ====
section
/-! DEFINITION. Byte order: the big-endian conventions of the algorithms (00_scope.md R12, 20_memory.md R213)
and the little-endian lanes of the host bus (20_memory.md R204). -/

namespace Sys2Proof.Machine

/-- `be32(s, i)`: the big-endian word of the four bytes from i (R12). -/
def be32 (s : List Byte) (i : Nat) : Word :=
  BitVec.ofNat 32
    (2 ^ 24 * (s.getD i 0).toNat + 2 ^ 16 * (s.getD (i + 1) 0).toNat
      + 2 ^ 8 * (s.getD (i + 2) 0).toNat + (s.getD (i + 3) 0).toNat)

/-- The n low bytes of v, most significant first. -/
def bytesBe : Nat → Nat → List Byte
  | 0, _ => []
  | n + 1, v => bytesBe n (v / 256) ++ [BitVec.ofNat 8 v]

/-- `bytes_be32(w)` (R12). -/
def bytesBe32 (w : Word) : List Byte := bytesBe 4 w.toNat

/-- `bytes_be64(v)` (R12). -/
def bytesBe64 (v : Nat) : List Byte := bytesBe 8 v

/-- The big-endian integer of a byte sequence. -/
def beNat (s : List Byte) : Nat := s.foldl (fun v b => 256 * v + b.toNat) 0

/-- The n low bytes of v, least significant first: a write's lanes (R204). -/
def bytesLe : Nat → Nat → List Byte
  | 0, _ => []
  | n + 1, v => BitVec.ofNat 8 v :: bytesLe n (v / 256)

/-- The little-endian integer of a byte sequence: a read's lanes (R204). -/
def leNat : List Byte → Nat
  | [] => 0
  | b :: bs => b.toNat + 256 * leNat bs

/-- `zeros(n)` (R12). -/
def zeros (n : Nat) : List Byte := List.replicate n 0

/-- The low half of a 64-bit value (30_encoding.md R320). -/
def loWord (v : Nat) : Word := BitVec.ofNat 32 v

/-- The high half of a 64-bit value (30_encoding.md R320). -/
def hiWord (v : Nat) : Word := BitVec.ofNat 32 (v / 2 ^ 32)

end Sys2Proof.Machine
end

