-- ==== Sys2Proof/Machine/HashState.lean ====
section
/-! DEFINITION. The five hash words, their initial value, and the value of a streaming hash context
(10_state.md R120, 41_sha1.md R500, R505). -/

namespace Sys2Proof.Machine

/-- HashState: five 32-bit words h0..h4 (10_state.md R120). -/
structure HashState where
  h0 : Word
  h1 : Word
  h2 : Word
  h3 : Word
  h4 : Word
  deriving DecidableEq, Repr

/-- IV, the initial hash value (41_sha1.md R500). -/
def iv : HashState := ⟨0x67452301, 0xEFCDAB89, 0x98BADCFE, 0x10325476, 0xC3D2E1F0⟩

/-- A context value (H, REM, COUNT) (41_sha1.md R505): the hash words, the bytes not yet compressed,
and how many message bytes have been absorbed in all. -/
structure Stream where
  h : HashState
  rem : List Byte
  count : Nat
  deriving DecidableEq, Repr

/-- The context no byte has been absorbed into: (IV, empty, 0) (41_sha1.md R510, R520). -/
def Stream.initial : Stream := ⟨iv, [], 0⟩

end Sys2Proof.Machine
end

