-- ==== Sys2Proof/Machine/State.lean ====
section
/-! DEFINITION. The state of the block (10_state.md), its faults, and its state after power-on reset. -/

namespace Sys2Proof.Machine

/-- SC.ST, read as STATUS.SHA_ST (10_state.md R120). -/
inductive ShaSt where
  | init
  | updating
  | finalized
  deriving DecidableEq, Repr

/-- The SHA context SC (10_state.md R120). -/
structure ShaCtx where
  stream : Stream
  st : ShaSt
  deriving DecidableEq, Repr

/-- HC.ST, read as STATUS.HMAC_ST (10_state.md R121). -/
inductive HmacSt where
  | noKey
  | keyed
  | finalized
  deriving DecidableEq, Repr

/-- The HMAC context HC (10_state.md R121). COUNT of `inner` includes the 64 ipad bytes. -/
structure HmacCtx where
  k0 : List Byte
  inner : Stream
  st : HmacSt
  deriving DecidableEq, Repr

/-- The engine phase PH (10_state.md R130); STATUS.BUSY is 1 exactly when it is `pending`. -/
inductive Phase where
  | idle
  | pending
  deriving DecidableEq, Repr

/-- The command latch (10_state.md R131): LCMD, A[0..7], P and D. -/
structure Latch where
  cmd : Word
  args : Vector Word 8
  period : Word
  digits : BitVec 4
  deriving DecidableEq, Repr

/-- DBUF as a list of (offset, byte), offsets strictly rising (10_state.md R140, R141).
An unlisted offset is UNWRITTEN: it holds no value. -/
abbrev Memory := List Host.Cell

/-- Everything the spec gives the block (10_state.md), and the model's own `draws`, `turns`, `engineNext` and `replies`. -/
structure State where
  /-- CTRL.IE (R102). -/
  ie : Bool
  /-- PH (R130). -/
  phase : Phase
  /-- STATUS.DONE (R103). -/
  done : Bool
  /-- STATUS.ERR (R103). -/
  err : Bool
  /-- STATUS.CMD_OVR (R103). -/
  cmdOvr : Bool
  /-- STATUS.ACC_ERR (R103). -/
  accErr : Bool
  /-- ERRCODE[7:0] (R104). -/
  errcode : Byte
  /-- ERRINFO (R105). -/
  errinfo : Word
  /-- CFG_PERIOD (R107). -/
  cfgPeriod : Word
  /-- CFG_DIGITS.DIGITS (R108). -/
  cfgDigits : BitVec 4
  /-- ARG0..ARG7 (R109). -/
  args : Vector Word 8
  /-- RESULT0..RESULT3 (R110). -/
  results : Vector Word 4
  /-- DIGEST0..DIGEST4 (R111). -/
  digest : Vector Word 5
  /-- SC (R120). -/
  sc : ShaCtx
  /-- HC (R121). -/
  hc : HmacCtx
  /-- LCMD, A, P, D (R131). -/
  latch : Latch
  /-- DBUF (R140, R141). -/
  dbuf : Memory
  /-- MODEL: how many answers of the time port have been used (log 2). -/
  draws : Nat
  /-- MODEL: how many steps of the total order of 20_memory.md R220 have been made (log 1). -/
  turns : Nat
  /-- MODEL: the next step is the ENGINE's, whatever the order says; set by `placeCommand` alone (log 1). -/
  engineNext : Bool
  /-- MODEL: what the host has been answered, newest first (log 1). -/
  replies : List Reply
  deriving DecidableEq, Repr

/-- What stops a run. -/
inductive Fault where
  /-- A command or a host read needs the value of a DBUF byte that nothing has written since power-on
  (10_state.md R141, 60_exceptions.md R913). Raised by every command that reads DBUF and by a host read of the
  window while idle; the payload is the first such offset. Safe: the chip returns some byte and goes on. -/
  | unwrittenByte (off : Nat)
  deriving DecidableEq, Repr

/-- Why a step has no meaning. -/
inductive Refusal where
  /-- The instruction has no meaning yet. Raised by no arm of this model. Safe: the run stops. -/
  | notModelled (mnemonic : String)
  deriving DecidableEq, Repr

/-- The state after power-on reset (10_state.md R150, 70_reset_and_hazards.md R1000).
HC.INNER is `Stream.initial` by DESIGN CHOICE (log 3); `draws`, `turns`, `engineNext`, `replies` are the model's
own (logs 1, 2). -/
def State.reset : State where
  ie := false
  phase := .idle
  done := false
  err := false
  cmdOvr := false
  accErr := false
  errcode := 0
  errinfo := 0
  cfgPeriod := Config.periodReset
  cfgDigits := Config.digitsReset
  args := Vector.replicate 8 0
  results := Vector.replicate 4 0
  digest := Vector.replicate 5 0
  sc := { stream := Stream.initial, st := .init }
  hc := { k0 := zeros 64, inner := Stream.initial, st := .noKey }
  latch := { cmd := 0, args := Vector.replicate 8 0, period := Config.periodReset, digits := Config.digitsReset }
  dbuf := []
  draws := 0
  turns := 0
  engineNext := false
  replies := []

end Sys2Proof.Machine
end

