-- ==== Sys2Proof/Machine/Ops.lean ====
section
/-! DEFINITION. The named operations: DBUF, accepting a command, completing it, raising an error, and the resets. -/

namespace Sys2Proof.Machine

/-! ## DBUF -/

/-- The value of one DBUF byte, or none where it is UNWRITTEN (10_state.md R141). -/
def Memory.read (m : Memory) (a : Nat) : Option Byte :=
  match m with
  | [] => none
  | c :: rest => if a = c.1 then some c.2 else Memory.read rest a

/-- Write one DBUF byte, keeping the offsets strictly rising. -/
def Memory.write (m : Memory) (a : Nat) (b : Byte) : Memory :=
  match m with
  | [] => [(a, b)]
  | c :: rest =>
    if a < c.1 then (a, b) :: c :: rest
    else if a = c.1 then (a, b) :: rest
    else c :: Memory.write rest a b

/-- `DBUF[off..off+n)`, or the model fault at its first UNWRITTEN byte (20_memory.md R210, 10_state.md R141). -/
def Memory.readBytes (m : Memory) (off : Nat) (n : Nat) : Except Fault (List Byte) :=
  match n with
  | 0 => .ok []
  | n + 1 =>
    match Memory.read m off with
    | none => .error (.unwrittenByte off)
    | some b =>
      match Memory.readBytes m (off + 1) n with
      | .error f => .error f
      | .ok bs => .ok (b :: bs)

/-- `DBUF[off+k] <- s[k]` for every k (20_memory.md R211). -/
def Memory.writeBytes (m : Memory) (off : Nat) (s : List Byte) : Memory :=
  match s with
  | [] => m
  | b :: bs => Memory.writeBytes (Memory.write m off b) (off + 1) bs

/-- The canonical form: offsets strictly rising, and all inside DBUF (10_state.md R140). -/
abbrev Memory.wf (m : Memory) : Prop :=
  m.Pairwise (fun x y => x.1 < y.1) ∧ ∀ c ∈ m, c.1 < Config.dbufSize

/-! ## Errors -/

/-- The error codes of 60_exceptions.md R900 that some command raises.
0x04 UnsupportedHashVariant and 0x05 InputFormatNotRecognized are reserved and never raised. -/
inductive ErrCode where
  | invalidBase32Character
  | invalidSecret
  | emptyHmacKey
  | illegalCommand
  | bufferRange
  | contextFinalized
  | noKey
  | badConfig
  | msgTooLong
  deriving DecidableEq, Repr

/-- The value of ERRCODE for each error (R900). -/
def ErrCode.byte : ErrCode → Byte
  | .invalidBase32Character => 0x01
  | .invalidSecret => 0x02
  | .emptyHmacKey => 0x03
  | .illegalCommand => 0x10
  | .bufferRange => 0x11
  | .contextFinalized => 0x12
  | .noKey => 0x13
  | .badConfig => 0x14
  | .msgTooLong => 0x15

/-- How a command's rule ends early: an error completion (`raise Error(code, info)`, 00_scope.md R13),
or the model fault of 60_exceptions.md R913. -/
inductive Abort where
  | error (code : ErrCode) (info : Word)
  | fault (f : Fault)
  deriving DecidableEq, Repr

/-! ## The life cycle of a command -/

/-- Acceptance of the command word w (60_exceptions.md R903). -/
def State.accept (s : State) (w : Word) : State :=
  { s with
    latch := { cmd := w, args := s.args, period := s.cfgPeriod, digits := s.cfgDigits }
    done := false
    err := false
    errcode := 0
    errinfo := 0
    phase := .pending }

/-- Successful completion (R905). -/
def State.complete (s : State) (r0 r1 r2 r3 : Word) : State :=
  { s with results := #v[r0, r1, r2, r3], done := true, phase := .idle }

/-- Error completion (R906): this block's one form of exception. Called on the state BEFORE the command. -/
def State.raise (s : State) (code : ErrCode) (info : Word) : State :=
  { s with errcode := code.byte, errinfo := info, err := true, phase := .idle }

/-- Ends a command's rule run on s: its writes all at once, or an error with none of them (R906, R907),
or the model fault (R913). -/
def settle (s : State) (r : Except Abort State) : Host.Outcome State Fault Refusal :=
  match r with
  | .ok s' => .next s'
  | .error (.error code info) => .next (s.raise code info)
  | .error (.fault f) => .fault f

/-- Goes on where the check holds, else raises the error. -/
def require (ok : Bool) (code : ErrCode) (info : Word) : Except Abort Unit :=
  if ok then .ok () else .error (.error code info)

/-! ## What commands write -/

/-- `MemWrite(off, s)` (20_memory.md R211). -/
def State.putBytes (s : State) (off : Nat) (bs : List Byte) : State :=
  { s with dbuf := s.dbuf.writeBytes off bs }

/-- `DIGESTi <- be32(d, 4i)` (10_state.md R111). -/
def State.putDigest (s : State) (d : List Byte) : State :=
  { s with digest := #v[be32 d 0, be32 d 4, be32 d 8, be32 d 12, be32 d 16] }

/-! ## Resets -/

/-- Every register and context at its reset value, PH idle, a pending command dropped, DBUF kept
(70_reset_and_hazards.md R1002). -/
def State.softReset (s : State) : State :=
  { State.reset with
    dbuf := s.dbuf, draws := s.draws, turns := s.turns, engineNext := s.engineNext, replies := s.replies }

/-- Power-on (70_reset_and_hazards.md R1000): all of it, DBUF too. -/
def State.powerOn (s : State) : State :=
  { State.reset with draws := s.draws, turns := s.turns, engineNext := s.engineNext, replies := s.replies }

/-! ## The host's side -/

/-- The block answers the host's access. -/
def State.reply (s : State) (r : Reply) : State := { s with replies := r :: s.replies }

end Sys2Proof.Machine
end

