-- ==== Sys2Proof/Machine/Operands.lean ====
section
/-! DEFINITION. The operand forms of a command: latched arguments, 64-bit pairs, DBUF ranges, the latched
configuration, and the time (30_encoding.md R320, R321). -/

namespace Sys2Proof.Machine

/-- A[i], the latched argument as an unsigned integer (R321). -/
def State.a (s : State) (i : Fin 8) : Nat := s.latch.args[i].toNat

/-- `A64(2) = {A[3], A[2]}` (R321): the HOTP counter, or the TOTP timestamp in milliseconds. -/
def State.a64 (s : State) : Nat := 2 ^ 32 * s.a 3 + s.a 2

/-- P, the latched period. -/
def State.p (s : State) : Nat := s.latch.period.toNat

/-- D, the latched digit count. -/
def State.d (s : State) : Nat := s.latch.digits.toNat

/-- `RangeOK(o, n)` (20_memory.md R212), on unbounded integers. -/
def rangeOK (o n : Nat) : Bool := o + n ≤ Config.dbufSize

/-- The range check of n bytes at the offset in A[i]; the error's info is i (R212). -/
def needRange (s : State) (i : Fin 8) (n : Nat) : Except Abort Unit :=
  require (rangeOK (s.a i) n) .bufferRange (BitVec.ofNat 32 i)

/-- `MemRead(A[i], n)` (20_memory.md R210). -/
def memRead (s : State) (i : Fin 8) (n : Nat) : Except Abort (List Byte) :=
  match s.dbuf.readBytes (s.a i) n with
  | .ok bs => .ok bs
  | .error f => .error (.fault f)

/-- The digit-count check (43_hotp.md R703). -/
def needDigits (s : State) : Except Abort Unit :=
  require (1 ≤ s.d && s.d ≤ 9) .badConfig 1

/-- The period check (44_totp.md R800). -/
def needPeriod (s : State) : Except Abort Unit :=
  require (s.p != 0) .badConfig 0

/-- `totp_time(T)` in whole seconds (44_totp.md R801). -/
def totpTime (s : State) (t : TimeSource) : Nat :=
  match t with
  | .stamp => s.a64 / 1000
  | .port => (Config.timePort s.draws).toNat

/-- The time has been taken from its source: a read of the time port uses up one answer (60_exceptions.md R930, logs 2 and 9). -/
def State.takeTime (s : State) (t : TimeSource) : State :=
  match t with
  | .stamp => s
  | .port => { s with draws := s.draws + 1 }

end Sys2Proof.Machine
end

