-- ==== Sys2Proof/Machine/Base32.lean ====
section
/-! DEFINITION. The Base32 codec and its two commands (40_base32.md). -/

namespace Sys2Proof.Machine

/-- `ALPH[v]` for v in 0..31 (R400): 'A'..'Z', then '2'..'7'. -/
def alph (v : Nat) : Byte := if v < 26 then BitVec.ofNat 8 (0x41 + v) else BitVec.ofNat 8 (0x32 + (v - 26))

/-- The pad byte '='. -/
def padByte : Byte := 0x3D

/-- `val(c)` (R401). -/
def symVal (c : Byte) : Option Nat :=
  if 0x41 ≤ c.toNat ∧ c.toNat ≤ 0x5A then some (c.toNat - 0x41)
  else if 0x61 ≤ c.toNat ∧ c.toNat ≤ 0x7A then some (c.toNat - 0x61)
  else if 0x32 ≤ c.toNat ∧ c.toNat ≤ 0x37 then some (c.toNat - 0x32 + 26)
  else none

/-- How many symbols a group of m bytes emits (R402). -/
def groupSyms (m : Nat) : Nat :=
  match m with
  | 1 => 2
  | 2 => 4
  | 3 => 5
  | 4 => 7
  | _ => 8

/-- One group of 1 to 5 bytes as 8 characters (R402). -/
def b32Group (c : List Byte) : List Byte :=
  let v := beNat (c ++ zeros (5 - c.length))
  let sym := (List.range 8).map fun j => alph (v / 2 ^ (35 - 5 * j) % 32)
  let k := groupSyms c.length
  sym.take k ++ List.replicate (8 - k) padByte

/-- `b32_encode(s)` (R402): one group per 5 input bytes. -/
def b32Encode : List Byte → List Byte
  | [] => []
  | [a] => b32Group [a]
  | [a, b] => b32Group [a, b]
  | [a, b, c] => b32Group [a, b, c]
  | [a, b, c, d] => b32Group [a, b, c, d]
  | a :: b :: c :: d :: e :: rest => b32Group [a, b, c, d, e] ++ b32Encode rest

/-- The loop of R405 from character i on, with the accumulator (buf, nb): the bytes still to be emitted,
or the index of the first bad character. -/
def b32DecodeFrom : List Byte → Nat → Nat → Nat → Except Nat (List Byte)
  | [], _, _, _ => .ok []
  | c :: rest, i, buf, nb =>
    if c = padByte then b32DecodeFrom rest (i + 1) buf nb
    else
      match symVal c with
      | none => .error i
      | some v =>
        let buf' := (32 * buf + v) % 2 ^ 12
        if nb + 5 ≥ 8 then
          match b32DecodeFrom rest (i + 1) buf' (nb + 5 - 8) with
          | .error j => .error j
          | .ok out => .ok (BitVec.ofNat 8 (buf' / 2 ^ (nb + 5 - 8)) :: out)
        else b32DecodeFrom rest (i + 1) buf' (nb + 5)

/-- `b32_decode(t)` (R405); the error value is the index of the first bad character (R408). -/
def b32Decode (t : List Byte) : Except Nat (List Byte) := b32DecodeFrom t 0 0 0

/-- `len(b32_encode(s))` for n = len(s) (R403). -/
def b32EncodeLen (n : Nat) : Nat := 8 * ((n + 4) / 5)

/-- B32_ENC (R420). -/
def execB32Enc (s : State) : Host.Outcome State Fault Refusal := settle s do
  let n := s.a 1
  needRange s 0 n
  needRange s 2 (b32EncodeLen n)
  let src ← memRead s 0 n
  return (s.putBytes (s.a 2) (b32Encode src)).complete (BitVec.ofNat 32 (b32EncodeLen n)) 0 0 0

/-- The decode of B32_DEC: a bad character is InvalidBase32Character with its index (R421). -/
def decodeText (t : List Byte) : Except Abort (List Byte) :=
  match b32Decode t with
  | .ok r => .ok r
  | .error i => .error (.error .invalidBase32Character (BitVec.ofNat 32 i))

/-- B32_DEC (R421). -/
def execB32Dec (s : State) : Host.Outcome State Fault Refusal := settle s do
  let n := s.a 1
  needRange s 0 n
  let t ← memRead s 0 n
  let r ← decodeText t
  needRange s 2 r.length
  return (s.putBytes (s.a 2) r).complete (BitVec.ofNat 32 r.length) 0 0 0

end Sys2Proof.Machine
end

