-- ==== Sys2Proof/Machine/Sha1.lean ====
section
/-! DEFINITION. The SHA-1 engine: block processor, streaming context, padding, and its four commands (41_sha1.md). -/

namespace Sys2Proof.Machine

/-! ## Block processor -/

/-- `rotl32(x, n)` for 0 < n < 32 (00_scope.md R11). -/
def rotl32 (x : Word) (n : Nat) : Word := x <<< n ||| x >>> (32 - n)

/-- f(t, b, c, d) (R501). -/
def roundF (t : Nat) (b c d : Word) : Word :=
  if t < 20 then b &&& c ||| ~~~b &&& d
  else if t < 40 then b ^^^ c ^^^ d
  else if t < 60 then b &&& c ||| b &&& d ||| c &&& d
  else b ^^^ c ^^^ d

/-- K(t) (R501). -/
def roundK (t : Nat) : Word :=
  if t < 20 then 0x5A827999
  else if t < 40 then 0x6ED9EBA1
  else if t < 60 then 0x8F1BBCDC
  else 0xCA62C1D6

/-- Prepends W[t] to W[t-1], W[t-2], ... (R502). -/
def extendSchedule (w : List Word) : List Word :=
  rotl32 (w.getD 2 0 ^^^ w.getD 7 0 ^^^ w.getD 13 0 ^^^ w.getD 15 0) 1 :: w

/-- W[0..79], the message schedule of a 64-byte block (R502). -/
def schedule (m : List Byte) : List Word :=
  (Nat.repeat extendSchedule 64 ((List.range 16).map fun t => be32 m (4 * t)).reverse).reverse

/-- One round t on the working words (a, b, c, d, e), with its schedule word (R503). -/
def sha1Round (t : Nat) (w : Word) (v : HashState) : HashState :=
  { h0 := rotl32 v.h0 5 + roundF t v.h1 v.h2 v.h3 + v.h4 + roundK t + w
    h1 := v.h0
    h2 := rotl32 v.h1 30
    h3 := v.h2
    h4 := v.h3 }

/-- The rounds from t on, one per schedule word. -/
def sha1Rounds : List Word → Nat → HashState → HashState
  | [], _, v => v
  | w :: ws, t, v => sha1Rounds ws (t + 1) (sha1Round t w v)

/-- The word-wise sum modulo 2^32 at the end of a block (R504). -/
def HashState.add (x y : HashState) : HashState :=
  ⟨x.h0 + y.h0, x.h1 + y.h1, x.h2 + y.h2, x.h3 + y.h3, x.h4 + y.h4⟩

/-- `sha1_compress(H, M)` (R504). -/
def sha1Compress (h : HashState) (m : List Byte) : HashState :=
  h.add (sha1Rounds (schedule m) 0 h)

/-! ## Streaming context -/

/-- Compresses the first n whole blocks of buf. -/
def compressBlocks : Nat → HashState → List Byte → HashState
  | 0, h, _ => h
  | n + 1, h, buf => compressBlocks n (sha1Compress h (buf.take 64)) (buf.drop 64)

/-- `sha1_update((H, REM, COUNT), s)` (R505): the new context, and how many blocks were compressed.
The loop of R505 runs once per whole block of REM ++ s. -/
def sha1Update (x : Stream) (s : List Byte) : Stream × Nat :=
  let buf := x.rem ++ s
  let nblk := buf.length / 64
  ({ h := compressBlocks nblk x.h buf, rem := buf.drop (64 * nblk), count := x.count + s.length }, nblk)

/-- `digest(H)` (R507). -/
def digestBytes (h : HashState) : List Byte :=
  bytesBe32 h.h0 ++ bytesBe32 h.h1 ++ bytesBe32 h.h2 ++ bytesBe32 h.h3 ++ bytesBe32 h.h4

/-- `sha1_final((H, REM, COUNT))` (R506): the final hash words and the number of final blocks. -/
def sha1Final (x : Stream) : HashState × Nat :=
  let len := bytesBe64 (8 * x.count)
  let m := x.rem ++ [0x80]
  if m.length > 56 then
    let h := sha1Compress x.h (m ++ zeros (64 - m.length))
    (sha1Compress h (zeros 56 ++ len), 2)
  else
    (sha1Compress x.h (m ++ zeros (56 - m.length) ++ len), 1)

/-- `sha1(s)` on a transient context (R510, R511). -/
def sha1 (s : List Byte) : List Byte :=
  digestBytes (sha1Final (sha1Update Stream.initial s).1).1

/-! ## Commands -/

/-- SHA_INIT (R520). -/
def execShaInit (s : State) : Host.Outcome State Fault Refusal := settle s do
  return { s with sc := { stream := Stream.initial, st := .init } }.complete 0 0 0 0

/-- SHA_UPDATE (R521). -/
def execShaUpdate (s : State) : Host.Outcome State Fault Refusal := settle s do
  require (s.sc.st != .finalized) .contextFinalized 0
  let n := s.a 1
  needRange s 0 n
  require (s.sc.stream.count + n ≤ Config.maxMsgBytes) .msgTooLong 0
  let m ← memRead s 0 n
  let r := sha1Update s.sc.stream m
  return { s with sc := { stream := r.1, st := .updating } }.complete
    (BitVec.ofNat 32 r.2) (BitVec.ofNat 32 r.1.rem.length) 0 0

/-- SHA_FINAL (R522). -/
def execShaFinal (s : State) : Host.Outcome State Fault Refusal := settle s do
  require (s.sc.st != .finalized) .contextFinalized 0
  needRange s 0 20
  let r := sha1Final s.sc.stream
  let d := digestBytes r.1
  let sc := { stream := { h := r.1, rem := [], count := s.sc.stream.count }, st := .finalized }
  return (({ s with sc := sc }.putBytes (s.a 0) d).putDigest d).complete (BitVec.ofNat 32 r.2) 0 0 0

/-- The number of blocks sha1 compresses for a message of n bytes (R508, R523). -/
def hashBlocks (n : Nat) : Nat := n / 64 + if n % 64 ≤ 55 then 1 else 2

/-- SHA_HASH (R523). -/
def execShaHash (s : State) : Host.Outcome State Fault Refusal := settle s do
  let n := s.a 1
  needRange s 0 n
  needRange s 2 20
  let m ← memRead s 0 n
  let d := sha1 m
  return ((s.putBytes (s.a 2) d).putDigest d).complete (BitVec.ofNat 32 (hashBlocks n)) 0 0 0

end Sys2Proof.Machine
end

