-- ==== Sys2Proof/Machine/Hmac.lean ====
section
/-! DEFINITION. The HMAC-SHA1 wrapper and its four commands (42_hmac.md). -/

namespace Sys2Proof.Machine

/-- Was a key of n bytes pre-hashed (R600)? As the 0/1 of RESULT0. -/
def preHashed (n : Nat) : Word := if n > 64 then 1 else 0

/-- `hmac_k0(k)` (R600): the 64-byte key block, or EmptyHmacKey. -/
def hmacK0 (k : List Byte) : Except Abort (List Byte) := do
  require (k.length != 0) .emptyHmacKey 0
  let k' := if k.length > 64 then sha1 k else k
  return k' ++ zeros (64 - k'.length)

/-- `ipad_block(K0)` (R601). -/
def ipadBlock (k0 : List Byte) : List Byte := k0.map (· ^^^ 0x36)

/-- `opad_block(K0)` (R601). -/
def opadBlock (k0 : List Byte) : List Byte := k0.map (· ^^^ 0x5C)

/-- Steps 4 and 5 of R602, from the key block on. -/
def hmacWithBlock (k0 m : List Byte) : List Byte :=
  sha1 (opadBlock k0 ++ sha1 (ipadBlock k0 ++ m))

/-- `hmac_sha1(k, m)` (R602). -/
def hmacSha1 (k m : List Byte) : Except Abort (List Byte) := do
  let k0 ← hmacK0 k
  return hmacWithBlock k0 m

/-- The inner context right after the key is loaded: the ipad block absorbed (R620). -/
def innerStart (k0 : List Byte) : Stream := (sha1Update Stream.initial (ipadBlock k0)).1

/-- HMAC_SETKEY (R620). -/
def execHmacSetkey (s : State) : Host.Outcome State Fault Refusal := settle s do
  let n := s.a 1
  needRange s 0 n
  require (n != 0) .emptyHmacKey 0
  let k ← memRead s 0 n
  let k0 ← hmacK0 k
  return { s with hc := { k0 := k0, inner := innerStart k0, st := .keyed } }.complete (preHashed n) 0 0 0

/-- The context-state checks of HMAC_UPDATE and HMAC_FINAL (R621, R622). -/
def needKeyed (s : State) : Except Abort Unit := do
  require (s.hc.st != .noKey) .noKey 0
  require (s.hc.st != .finalized) .contextFinalized 1

/-- HMAC_UPDATE (R621). -/
def execHmacUpdate (s : State) : Host.Outcome State Fault Refusal := settle s do
  needKeyed s
  let n := s.a 1
  needRange s 0 n
  require (s.hc.inner.count + n ≤ Config.maxMsgBytes) .msgTooLong 0
  let m ← memRead s 0 n
  let r := sha1Update s.hc.inner m
  return { s with hc := { s.hc with inner := r.1 } }.complete
    (BitVec.ofNat 32 r.2) (BitVec.ofNat 32 r.1.rem.length) 0 0

/-- The MAC of an HMAC context: the outer hash over the finished inner one (R622). -/
def hmacFinalDigest (hc : HmacCtx) : List Byte :=
  sha1 (opadBlock hc.k0 ++ digestBytes (sha1Final hc.inner).1)

/-- HMAC_FINAL (R622). -/
def execHmacFinal (s : State) : Host.Outcome State Fault Refusal := settle s do
  needKeyed s
  needRange s 0 20
  let d := hmacFinalDigest s.hc
  return (({ s with hc := { s.hc with st := .finalized } }.putBytes (s.a 0) d).putDigest d).complete 0 0 0 0

/-- HMAC_MAC (R623). -/
def execHmacMac (s : State) : Host.Outcome State Fault Refusal := settle s do
  needRange s 0 (s.a 1)
  needRange s 2 (s.a 3)
  needRange s 4 20
  require (s.a 1 != 0) .emptyHmacKey 0
  let k ← memRead s 0 (s.a 1)
  let m ← memRead s 2 (s.a 3)
  let d ← hmacSha1 k m
  return ((s.putBytes (s.a 4) d).putDigest d).complete (preHashed (s.a 1)) 0 0 0

end Sys2Proof.Machine
end

