-- ==== Sys2Proof/Machine/Hotp.lean ====
section
/-! DEFINITION. The HOTP stage: truncation, modulo, rendering, secret decoding, and its two commands (43_hotp.md). -/

namespace Sys2Proof.Machine

/-- The `off` of `hotp_truncate(d)` (R701): the low nibble of the last byte. -/
def truncOffset (d : List Byte) : Nat := (d.getD 19 0).toNat % 16

/-- The `p` of `hotp_truncate(d)` (R701): four bytes from `off` on, the top bit masked, so 31 bits. -/
def truncValue (d : List Byte) : Nat :=
  let off := truncOffset d
  2 ^ 24 * ((d.getD off 0).toNat % 2 ^ 7) + 2 ^ 16 * (d.getD (off + 1) 0).toNat
    + 2 ^ 8 * (d.getD (off + 2) 0).toNat + (d.getD (off + 3) 0).toNat

/-- `hotp_code(p, D)` (R702). -/
def hotpCode (p digits : Nat) : Nat := p % 10 ^ digits

/-- `hotp_render(code, D)` (R702): exactly D decimal digits in ASCII, most significant first. -/
def hotpRender (code : Nat) : Nat → List Byte
  | 0 => []
  | n + 1 => hotpRender (code / 10) n ++ [BitVec.ofNat 8 (0x30 + code % 10)]

/-- `secret_key(t)` (R704). -/
def secretKey (t : List Byte) : Except Abort (List Byte) :=
  match b32Decode t with
  | .error i => .error (.error .invalidSecret (BitVec.ofNat 32 i))
  | .ok r => if r.length = 0 then .error (.error .invalidSecret 0xFFFFFFFF) else .ok r

/-- The result of `hotp(key, c, D)` (R705). -/
structure HotpOut where
  text : List Byte
  code : Nat
  p : Nat
  off : Nat
  deriving DecidableEq, Repr

/-- Steps 4 and 5 on a digest (R701, R702). -/
def hotpOfDigest (d : List Byte) (digits : Nat) : HotpOut :=
  let p := truncValue d
  { text := hotpRender (hotpCode p digits) digits, code := hotpCode p digits, p := p, off := truncOffset d }

/-- `hotp(key, c, D)` (R705), from the key block of the key on. -/
def hotpWithBlock (k0 : List Byte) (c digits : Nat) : HotpOut :=
  hotpOfDigest (hmacWithBlock k0 (bytesBe64 c)) digits

/-- `hotp(key, c, D)` (R705). -/
def hotp (key : List Byte) (c digits : Nat) : Except Abort HotpOut := do
  let d ← hmacSha1 key (bytesBe64 c)
  return hotpOfDigest d digits

/-- HOTP_GEN (R720). -/
def execHotpGen (s : State) : Host.Outcome State Fault Refusal := settle s do
  needDigits s
  needRange s 0 (s.a 1)
  needRange s 4 s.d
  let t ← memRead s 0 (s.a 1)
  let key ← secretKey t
  let r ← hotp key s.a64 s.d
  return (s.putBytes (s.a 4) r.text).complete
    (BitVec.ofNat 32 r.code) (BitVec.ofNat 32 r.p) (BitVec.ofNat 32 r.off) 0

/-- HOTP_TRUNC (R721). -/
def execHotpTrunc (s : State) : Host.Outcome State Fault Refusal := settle s do
  needDigits s
  needRange s 0 20
  needRange s 1 s.d
  let d ← memRead s 0 20
  let r := hotpOfDigest d s.d
  return (s.putBytes (s.a 1) r.text).complete
    (BitVec.ofNat 32 r.code) (BitVec.ofNat 32 r.p) (BitVec.ofNat 32 r.off) 0

end Sys2Proof.Machine
end

