-- ==== Sys2Proof/Machine/Binary64.lean ====
section
/-! DEFINITION. The IEEE 754 binary64 arithmetic of the remaining percentage (44_totp.md R804): positive normal
numbers only, round to nearest, ties to even. -/

namespace Sys2Proof.Machine

/-- A positive normal binary64 number: its value is sig * 2^exp, with 2^52 <= sig < 2^53. -/
structure Bin64 where
  sig : Nat
  exp : Int
  deriving DecidableEq, Repr

/-- num / den to the nearest integer, ties to even. -/
def roundDiv (num den : Nat) : Nat :=
  let q := num / den
  let r := num % den
  if 2 * r > den ∨ (2 * r = den ∧ q % 2 = 1) then q + 1 else q

/-- num / den divided by 2^e, as a pair of numerator and denominator. -/
def scaleBy (num den : Nat) (e : Int) : Nat × Nat :=
  if e ≥ 0 then (num, 2 ^ e.toNat * den) else (2 ^ (-e).toNat * num, den)

/-- The exponent e with 2^52 <= (num / den) / 2^e < 2^53, for num, den > 0. -/
def normExp (num den : Nat) : Int :=
  let e : Int := (Nat.log2 num : Int) - (Nat.log2 den : Int) - 53
  let x := scaleBy num den e
  if x.1 < 2 ^ 53 * x.2 then e else e + 1

/-- `round64(num / den)` for num, den > 0 whose quotient is in the normal range (R804). -/
def round64 (num den : Nat) : Bin64 :=
  let e := normExp num den
  let x := scaleBy num den e
  let sig := roundDiv x.1 x.2
  if sig = 2 ^ 53 then { sig := 2 ^ 52, exp := e + 1 } else { sig := sig, exp := e }

/-- `round64(q * n)`. -/
def Bin64.mulNat (q : Bin64) (n : Nat) : Bin64 :=
  if q.exp ≥ 0 then round64 (2 ^ q.exp.toNat * (n * q.sig)) 1 else round64 (n * q.sig) (2 ^ (-q.exp).toNat)

/-- The 64-bit pattern: sign 0, biased exponent, fraction. -/
def Bin64.bits (x : Bin64) : BitVec 64 :=
  BitVec.ofNat 64 (2 ^ 52 * (x.exp + 52 + 1023).toNat + (x.sig - 2 ^ 52))

/-- The remaining percentage (R804): `round64(round64(rem / P) * 100)`. -/
def remPercent (rem p : Nat) : BitVec 64 := ((round64 rem p).mulNat 100).bits

end Sys2Proof.Machine
end

