-- ==== Sys2Proof/Machine/Totp.lean ====
section
/-! DEFINITION. The TOTP stage: time-to-counter divider, remaining time, verification window, and its four commands
(44_totp.md). -/

namespace Sys2Proof.Machine

/-- `totp_counter(time)` (R802). -/
def totpCounter (time p : Nat) : Nat := time / p

/-- `totp_remaining(time)` (R803). -/
def totpRemaining (time p : Nat) : Nat := p - time % p

/-- The candidate counters c + j, j = -W..W, that lie in 0..2^64-1 (R805). -/
def candidates (c w : Nat) : List Nat :=
  (List.range (2 * w + 1)).filterMap fun (k : Nat) =>
    let x : Int := (c : Int) + ((k : Int) - (w : Int))
    if 0 ≤ x ∧ x ≤ 2 ^ 64 - 1 then some x.toNat else none

/-- Does the token match some candidate's code (R806, R807)? -/
def tokenMatches (k0 : List Byte) (c w digits : Nat) (tok : List Byte) : Bool :=
  (candidates c w).any fun x => (hotpWithBlock k0 x digits).text == tok

/-- TOTP_GEN (R820). -/
def execTotpGen (t : TimeSource) (s : State) : Host.Outcome State Fault Refusal := settle s do
  needPeriod s
  needDigits s
  needRange s 0 (s.a 1)
  needRange s 4 s.d
  let text ← memRead s 0 (s.a 1)
  let key ← secretKey text
  let c := totpCounter (totpTime s t) s.p
  let r ← hotp key c s.d
  return ((s.takeTime t).putBytes (s.a 4) r.text).complete
    (BitVec.ofNat 32 r.code) (BitVec.ofNat 32 r.p) (loWord c) (hiWord c)

/-- TOTP_VERIFY (R821). -/
def execTotpVerify (t : TimeSource) (s : State) : Host.Outcome State Fault Refusal := settle s do
  needPeriod s
  needDigits s
  needRange s 0 (s.a 1)
  needRange s 4 (s.a 5)
  let text ← memRead s 0 (s.a 1)
  let tok ← memRead s 4 (s.a 5)
  let key ← secretKey text
  let c := totpCounter (totpTime s t) s.p
  let k0 ← hmacK0 key
  return (s.takeTime t).complete
    (if tokenMatches k0 c (s.a 6) s.d tok then 1 else 0) 0 (loWord c) (hiWord c)

/-- TOTP_REMSEC (R822). -/
def execTotpRemsec (t : TimeSource) (s : State) : Host.Outcome State Fault Refusal := settle s do
  needPeriod s
  return (s.takeTime t).complete (BitVec.ofNat 32 (totpRemaining (totpTime s t) s.p)) 0 0 0

/-- TOTP_REMPCT (R823). -/
def execTotpRempct (t : TimeSource) (s : State) : Host.Outcome State Fault Refusal := settle s do
  needPeriod s
  let rem := totpRemaining (totpTime s t) s.p
  let bits := (remPercent rem s.p).toNat
  return (s.takeTime t).complete (loWord bits) (hiWord bits) (BitVec.ofNat 32 rem) 0

end Sys2Proof.Machine
end

