-- ==== Sys2Proof/Machine/Dispatch.lean ====
section
/-! DEFINITION. One arm per command. -/

namespace Sys2Proof.Machine

def exec (i : Instr) (s : State) : Host.Outcome State Fault Refusal :=
  match i with
  | .b32Enc => Sys2Proof.Machine.execB32Enc s
  | .b32Dec => Sys2Proof.Machine.execB32Dec s
  | .shaInit => Sys2Proof.Machine.execShaInit s
  | .shaUpdate => Sys2Proof.Machine.execShaUpdate s
  | .shaFinal => Sys2Proof.Machine.execShaFinal s
  | .shaHash => Sys2Proof.Machine.execShaHash s
  | .hmacSetkey => Sys2Proof.Machine.execHmacSetkey s
  | .hmacUpdate => Sys2Proof.Machine.execHmacUpdate s
  | .hmacFinal => Sys2Proof.Machine.execHmacFinal s
  | .hmacMac => Sys2Proof.Machine.execHmacMac s
  | .hotpGen => Sys2Proof.Machine.execHotpGen s
  | .hotpTrunc => Sys2Proof.Machine.execHotpTrunc s
  | .totpGen t => Sys2Proof.Machine.execTotpGen t s
  | .totpVerify t => Sys2Proof.Machine.execTotpVerify t s
  | .totpRemsec t => Sys2Proof.Machine.execTotpRemsec t s
  | .totpRempct t => Sys2Proof.Machine.execTotpRempct t s

end Sys2Proof.Machine
end

