-- ==== Sys2Proof/Machine/Flags.lean ====
section
/-! DEFINITION. The flags: STATUS as the host reads it and clears it (10_state.md R103), the two length views
(R112, R113), and the interrupt output (60_exceptions.md R920). -/

namespace Sys2Proof.Machine

/-- STATUS.SHA_ST of a context state (R120). -/
def ShaSt.code : ShaSt → Nat
  | .init => 0
  | .updating => 1
  | .finalized => 2

/-- STATUS.HMAC_ST of a context state (R121). -/
def HmacSt.code : HmacSt → Nat
  | .noKey => 0
  | .keyed => 1
  | .finalized => 2

/-- STATUS.BUSY (R130). -/
def State.busy (s : State) : Bool := s.phase == .pending

/-- The value of STATUS (R103). -/
def State.status (s : State) : Word :=
  BitVec.ofNat 32
    (s.busy.toNat + 2 * s.done.toNat + 4 * s.err.toNat + 8 * s.cmdOvr.toNat + 16 * s.accErr.toNat
      + 32 * s.sc.st.code + 128 * s.hc.st.code)

/-- A STATUS write of v: each of DONE, ERR, CMD_OVR, ACC_ERR whose bit in v is 1 is cleared (R103). -/
def State.ack (s : State) (v : Word) : State :=
  { s with
    done := s.done && !v.getLsbD 1
    err := s.err && !v.getLsbD 2
    cmdOvr := s.cmdOvr && !v.getLsbD 3
    accErr := s.accErr && !v.getLsbD 4 }

/-- `{SHA_LEN_HI, SHA_LEN_LO}` (R112). -/
def State.shaLen (s : State) : Nat := s.sc.stream.count

/-- `{HMAC_LEN_HI, HMAC_LEN_LO}` (R113). -/
def State.hmacLen (s : State) : Nat :=
  match s.hc.st with
  | .noKey => 0
  | .keyed => s.hc.inner.count - 64
  | .finalized => s.hc.inner.count - 64

/-- The interrupt output (60_exceptions.md R920). -/
def State.irq (s : State) : Bool := s.ie && (s.done || s.err)

end Sys2Proof.Machine
end

