-- ==== Sys2Proof/Machine/HostBus.lean ====
section
/-! DEFINITION. The host's accesses to the aperture: the register map, the DBUF window, bus errors
(10_state.md section 1, 20_memory.md section 1, 70_reset_and_hazards.md section 3). -/

namespace Sys2Proof.Machine

/-- The register at an aperture offset below 0x400 (10_state.md R100). -/
inductive Reg where
  | id
  | ctrl
  | status
  | errcode
  | errinfo
  | cmd
  | cfgPeriod
  | cfgDigits
  | arg (i : Fin 8)
  | result (i : Fin 4)
  | digest (i : Fin 5)
  | shaLenLo
  | shaLenHi
  | hmacLenLo
  | hmacLenHi
  | reserved
  deriving DecidableEq, Repr

/-- The register map (R100), for a 4-byte-aligned offset. -/
def regAt (off : Nat) : Reg :=
  if off = 0x000 then .id
  else if off = 0x004 then .ctrl
  else if off = 0x008 then .status
  else if off = 0x00C then .errcode
  else if off = 0x010 then .errinfo
  else if off = 0x014 then .cmd
  else if off = 0x018 then .cfgPeriod
  else if off = 0x01C then .cfgDigits
  else if off < 0x040 then .arg (Fin.ofNat 8 ((off - 0x020) / 4))
  else if off < 0x050 then .result (Fin.ofNat 4 ((off - 0x040) / 4))
  else if off < 0x064 then .digest (Fin.ofNat 5 ((off - 0x050) / 4))
  else if off = 0x064 then .shaLenLo
  else if off = 0x068 then .shaLenHi
  else if off = 0x06C then .hmacLenLo
  else if off = 0x070 then .hmacLenHi
  else .reserved

/-- A host read of a register (R101 to R114). It has no side effect (20_memory.md R206). -/
def State.regRead (s : State) : Reg → Word
  | .id => Config.idValue
  | .ctrl => BitVec.ofNat 32 (2 * s.ie.toNat)
  | .status => s.status
  | .errcode => s.errcode.setWidth 32
  | .errinfo => s.errinfo
  | .cmd => s.latch.cmd
  | .cfgPeriod => s.cfgPeriod
  | .cfgDigits => s.cfgDigits.setWidth 32
  | .arg i => s.args[i]
  | .result i => s.results[i]
  | .digest i => s.digest[i]
  | .shaLenLo => loWord s.shaLen
  | .shaLenHi => hiWord s.shaLen
  | .hmacLenLo => loWord s.hmacLen
  | .hmacLenHi => hiWord s.hmacLen
  | .reserved => 0

/-- A CTRL write: soft reset where bit 0 is 1, else IE from bit 1 (R102). -/
def State.writeCtrl (s : State) (v : Word) : State :=
  if v.getLsbD 0 then s.softReset else { s with ie := v.getLsbD 1 }

/-- A CMD write: acceptance while idle (60_exceptions.md R903), else dropped with CMD_OVR
(70_reset_and_hazards.md R1010). -/
def State.writeCmd (s : State) (v : Word) : State :=
  if s.busy then { s with cmdOvr := true } else s.accept v

/-- A host write of a register (R102 to R115): a read-only or reserved one is left alone. -/
def State.regWrite (s : State) (r : Reg) (v : Word) : State :=
  match r with
  | .ctrl => s.writeCtrl v
  | .status => s.ack v
  | .cmd => s.writeCmd v
  | .cfgPeriod => { s with cfgPeriod := v }
  | .cfgDigits => { s with cfgDigits := v.setWidth 4 }
  | .arg i => { s with args := s.args.set i v }
  | .id => s
  | .errcode => s
  | .errinfo => s
  | .result _ => s
  | .digest _ => s
  | .shaLenLo => s
  | .shaLenHi => s
  | .hmacLenLo => s
  | .hmacLenHi => s
  | .reserved => s

/-- The register space: offsets 0x000 to 0x3FF (20_memory.md R201). -/
def inRegs (off : Nat) : Bool := off < 0x400

/-- A register access is 32 bits wide and aligned (20_memory.md R201). -/
def regAccessOK (off nbytes : Nat) : Bool := nbytes == 4 && off % 4 == 0

/-- A window access is 8, 16 or 32 bits wide and naturally aligned (20_memory.md R203, log 6). -/
def windowAccessOK (off nbytes : Nat) : Bool :=
  (nbytes == 1 || nbytes == 2 || nbytes == 4) && off % nbytes == 0

/-- The DBUF byte at an aperture offset of the window (20_memory.md R203). -/
def windowByte (off : Nat) : Nat := off - 0x400

/-- A bus error response: an answer, and no other change (20_memory.md R202). -/
def busError (s : State) : Host.Outcome State Fault Refusal := .next (s.reply .busError)

/-- A host read (20_memory.md R201 to R206). -/
def hostRead (s : State) (off nbytes : Nat) : Host.Outcome State Fault Refusal :=
  if inRegs off then
    if regAccessOK off nbytes then .next (s.reply (.data (s.regRead (regAt off)))) else busError s
  else if windowAccessOK off nbytes then
    if s.busy then .next ({ s with accErr := true }.reply (.data 0))
    else
      match s.dbuf.readBytes (windowByte off) nbytes with
      | .ok bs => .next (s.reply (.data (BitVec.ofNat 32 (leNat bs))))
      | .error f => .fault f
  else busError s

/-- A host write (20_memory.md R201 to R206). -/
def hostWrite (s : State) (off nbytes : Nat) (v : Word) : Host.Outcome State Fault Refusal :=
  if inRegs off then
    if regAccessOK off nbytes then .next ((s.regWrite (regAt off) v).reply .written) else busError s
  else if windowAccessOK off nbytes then
    if s.busy then .next ({ s with accErr := true }.reply .written)
    else .next ((s.putBytes (windowByte off) (bytesLe nbytes v.toNat)).reply .written)
  else busError s

/-- One access of the HOST agent (20_memory.md R200). -/
def hostAccess (s : State) : HostAccess → Host.Outcome State Fault Refusal
  | .read off nbytes => hostRead s off.toNat nbytes
  | .write off nbytes v => hostWrite s off.toNat nbytes v

end Sys2Proof.Machine
end

