-- ==== Sys2Proof/Machine/Engine.lean ====
section
/-! DEFINITION. The ENGINE agent's step, one move of the total order, and how a command word is put before the engine. -/

namespace Sys2Proof.Machine

/-- The engine step (60_exceptions.md R904): while a command is pending, decode the latched word (30_encoding.md R310) and run its rule;
an illegal word raises ILLEGAL_COMMAND with the word as info (30_encoding.md R302).
While idle the ENGINE agent has no step (10_state.md R130): nothing changes. -/
def engineStep (s : State) : Host.Outcome State Fault Refusal :=
  match s.phase with
  | .idle => .next s
  | .pending =>
    match decode s.latch.cmd with
    | .ok i => exec i s
    | .error _ => .next (s.raise .illegalCommand s.latch.cmd)

/-- One move of the total order (20_memory.md R220). -/
def runMove (s : State) : Move → Host.Outcome State Fault Refusal
  | .host a => hostAccess s a
  | .engine => engineStep s
  | .powerOn => .next s.powerOn

/-- The next move under the parameters p (00_scope.md R9, log 1): that of the agent the order offers.
Where the HOST has no step, having finished or waiting for the interrupt, it is the ENGINE's
(70_reset_and_hazards.md R1030, R1035). -/
def nextMove (p : StepParams) (s : State) : Move :=
  match s.engineNext with
  | true => .engine
  | false =>
    match p.order s.turns with
    | .engine => .engine
    | .power => .powerOn
    | .host =>
      match p.program s.replies with
      | .access a => .host a
      | .awaitIrq a => if s.irq then .host a else .engine
      | .finished => .engine

/-- One more step of the total order has been made. -/
def State.moved (s : State) : State := { s with turns := s.turns + 1, engineNext := false }

/-- The step relation of 00_scope.md R9: one step under the parameters p. -/
def stepUnder (p : StepParams) (s : State) : Host.Outcome State Fault Refusal := runMove s.moved (nextMove p s)

/-- A run of n steps under the parameters p, ending early where a step stops. -/
def runUnder (p : StepParams) : Nat → State → Host.Outcome State Fault Refusal
  | 0, s => .next s
  | n + 1, s =>
    match stepUnder p s with
    | .next t => runUnder p n t
    | .fault f => .fault f
    | .refused r => .refused r

/-- The word w accepted as a command, with the ENGINE's turn next (log 1). -/
def placeCommand (s : State) (w : Word) : State :=
  { s.accept w with engineNext := true }

/-! ## The end of a run -/

/-- A run of the host program is over (70_reset_and_hazards.md R1035): it has made its last access and no command is
pending. -/
def State.ended (program : HostProgram) (s : State) : Bool :=
  program s.replies == .finished && s.phase == .idle

/-- The offsets of the registers of 10_state.md R100, ID to HMAC_LEN_HI. -/
def registerOffsets : List Nat := (List.range 29).map fun k => 4 * k

/-- What the end of a run shows (70_reset_and_hazards.md R1035): every register of 10_state.md R100, SC, HC, and DBUF. -/
def State.observation (s : State) : List Word × ShaCtx × HmacCtx × Memory :=
  (registerOffsets.map fun off => s.regRead (regAt off), s.sc, s.hc, s.dbuf)

end Sys2Proof.Machine
end

