-- ==== Sys2Proof/Machine/Step.lean ====
section
/-! DEFINITION. One step of the machine. -/

namespace Sys2Proof.Machine

/-- One step (20_memory.md R220) under the parameters the machine has: any host program and any order (log 1). -/
def step (s : State) : Host.Outcome State Fault Refusal := stepUnder Config.stepParams s

/-- s with the instruction of nbits bits w accepted as a command, and the ENGINE's turn next.
A command word is never fetched from memory (10_state.md R132): acceptance by a CMD write (60_exceptions.md R903)
is what puts it before the engine. -/
def State.withFetchWord (s : State) (nbits w : Nat) : State :=
  placeCommand s (BitVec.ofNat 32 (w % 2 ^ nbits))

end Sys2Proof.Machine
end

