-- ==== Sys2Proof/Safety.lean ====
section
/-! DEFINITION. What the statements speak of: a run that does not stop, the invariants the spec's prose gives,
the byte range a command stores to, and which message a context has absorbed. -/

namespace Sys2Proof.Machine

/-- The step answers a next state, whatever the parameters: no model fault. -/
def State.SafeUnder (p : StepParams) (s : State) : Prop := ∃ t, stepUnder p s = .next t

/-! ## The invariants -/

/-- A context that still takes updates: the remainder is what whole blocks leave over, and the count is in range
(10_state.md R122, 41_sha1.md R509). -/
def Stream.Coherent (x : Stream) : Prop :=
  x.rem.length = x.count % 64 ∧ x.count ≤ Config.maxMsgBytes

/-- SC: INIT is the initial state (which is coherent), UPDATING is coherent, FINALIZED holds no remainder
(10_state.md R120, R122; 41_sha1.md R520 to R522; log 8). -/
def ShaCtx.Inv (c : ShaCtx) : Prop :=
  match c.st with
  | .init => c.stream = Stream.initial
  | .updating => c.stream.Coherent
  | .finalized => c.stream.rem = [] ∧ c.stream.count ≤ Config.maxMsgBytes

/-- HC: K0 is 64 bytes, all 0 while no key is loaded; INNER is coherent in every state of HC (FINALIZED too; in NOKEY
this says something of the model's value, log 3), and has absorbed the ipad block once a key is loaded
(10_state.md R121, R122). -/
def HmacCtx.Inv (c : HmacCtx) : Prop :=
  c.k0.length = 64 ∧ (c.st = .noKey → c.k0 = zeros 64) ∧ c.inner.Coherent ∧ (c.st ≠ .noKey → 64 ≤ c.inner.count)

/-- The values ERRCODE ever holds: NONE and the codes some command raises (60_exceptions.md R900, 93 I4). -/
def errcodes : List Byte := [0x00, 0x01, 0x02, 0x03, 0x10, 0x11, 0x12, 0x13, 0x14, 0x15]

/-- DONE, ERR, BUSY and the error record agree (10_state.md R103, R104; 60_exceptions.md R903, R905, R906). -/
def State.FlagsInv (s : State) : Prop :=
  ¬(s.done = true ∧ s.err = true) ∧
  (s.phase = .pending → s.done = false ∧ s.err = false ∧ s.errcode = 0) ∧
  (s.err = true → s.errcode ≠ 0) ∧
  (s.done = true → s.errcode = 0) ∧
  (s.errcode = 0 → s.errinfo = 0) ∧
  s.errcode ∈ errcodes

/-- The invariant of the block: DBUF in its canonical form, both contexts coherent, the flags in agreement. -/
def State.Inv (s : State) : Prop :=
  s.dbuf.wf ∧ s.sc.Inv ∧ s.hc.Inv ∧ s.FlagsInv

/-- A 32-bit host read at the aperture offset answers v and changes nothing else (20_memory.md R206). -/
def State.Answers (s : State) (off : BitVec 11) (v : Word) : Prop :=
  hostAccess s (.read off 4) = .next (s.reply (.data v))

/-! ## What a command stores -/

/-- The DBUF range (offset, length) a command stores to when it completes with success, or none
(30_encoding.md R320 and each command's rule). B32_DEC's length is that of the decoded bytes. -/
def storeRange (i : Instr) (s : State) : Option (Nat × Nat) :=
  match i with
  | .b32Enc => some (s.a 2, b32EncodeLen (s.a 1))
  | .b32Dec =>
    match s.dbuf.readBytes (s.a 0) (s.a 1) with
    | .ok t => (b32Decode t).toOption.map fun r => (s.a 2, r.length)
    | .error _ => none
  | .shaInit => none
  | .shaUpdate => none
  | .shaFinal => some (s.a 0, 20)
  | .shaHash => some (s.a 2, 20)
  | .hmacSetkey => none
  | .hmacUpdate => none
  | .hmacFinal => some (s.a 0, 20)
  | .hmacMac => some (s.a 4, 20)
  | .hotpGen => some (s.a 4, s.d)
  | .hotpTrunc => some (s.a 1, s.d)
  | .totpGen _ => some (s.a 4, s.d)
  | .totpVerify _ => none
  | .totpRemsec _ => none
  | .totpRempct _ => none

/-- The DBUF byte a lies outside the range. -/
def Outside (r : Option (Nat × Nat)) (a : Nat) : Prop :=
  match r with
  | none => True
  | some (off, len) => a < off ∨ off + len ≤ a

/-! ## Which message a context has absorbed -/

/-- SC has absorbed exactly the message m since its last reset, and is not finalized (41_sha1.md R512). -/
def ShaCtx.Absorbed (c : ShaCtx) (m : List Byte) : Prop :=
  c.st ≠ .finalized ∧ c.stream = (sha1Update Stream.initial m).1

/-- HC holds the key block k0 and has absorbed exactly the message m since HMAC_SETKEY (42_hmac.md R604). -/
def HmacCtx.Absorbed (c : HmacCtx) (k0 m : List Byte) : Prop :=
  c.st = .keyed ∧ c.k0 = k0 ∧ c.inner = (sha1Update Stream.initial (ipadBlock k0 ++ m)).1

/-- The value a decimal text stands for, most significant digit first. -/
def decimalValue (s : List Byte) : Nat := s.foldl (fun v b => 10 * v + (b.toNat - 0x30)) 0

end Sys2Proof.Machine
end

