-- ==== Sys2Proof/Certificates/Slice0/Obligations.lean ====
section
/-! DEFINITION. The statements for the provers. Each formalises rules of spec/ named in its docstring. -/

open Sys2Proof Sys2Proof.Machine

/-! ## Encoding -/

/-- 30_encoding.md R304: the 20 legal words, each with the command the table gives it. -/
def Obligations.CommandWordsDecodeAsTheTableSays : Prop :=
  decode 0x00000001 = .ok .b32Enc ∧ decode 0x00000002 = .ok .b32Dec ∧
  decode 0x00000010 = .ok .shaInit ∧ decode 0x00000011 = .ok .shaUpdate ∧
  decode 0x00000012 = .ok .shaFinal ∧ decode 0x00000013 = .ok .shaHash ∧
  decode 0x00000020 = .ok .hmacSetkey ∧ decode 0x00000021 = .ok .hmacUpdate ∧
  decode 0x00000022 = .ok .hmacFinal ∧ decode 0x00000023 = .ok .hmacMac ∧
  decode 0x00000030 = .ok .hotpGen ∧ decode 0x00000031 = .ok .hotpTrunc ∧
  decode 0x00000040 = .ok (.totpGen .port) ∧ decode 0x00000140 = .ok (.totpGen .stamp) ∧
  decode 0x00000041 = .ok (.totpVerify .port) ∧ decode 0x00000141 = .ok (.totpVerify .stamp) ∧
  decode 0x00000042 = .ok (.totpRemsec .port) ∧ decode 0x00000142 = .ok (.totpRemsec .stamp) ∧
  decode 0x00000043 = .ok (.totpRempct .port) ∧ decode 0x00000143 = .ok (.totpRempct .stamp)

/-- 30_encoding.md R300, R304: the decoder and the encoder are inverse of each other, over all 2^32 words. -/
def Obligations.DecodeInvertsEncode : Prop :=
  ∀ (w : Word) (i : Instr), decode w = .ok i ↔ encode i = w

/-- 30_encoding.md R302, R303: the words that name a command are the legal ones. -/
def Obligations.DecodeAcceptsExactlyTheLegalWords : Prop :=
  ∀ w : Word, (∃ i, decode w = .ok i) ↔
    ((w.toNat % 256 = 0x01 ∨ w.toNat % 256 = 0x02 ∨ (0x10 ≤ w.toNat % 256 ∧ w.toNat % 256 ≤ 0x13) ∨
        (0x20 ≤ w.toNat % 256 ∧ w.toNat % 256 ≤ 0x23) ∨ w.toNat % 256 = 0x30 ∨ w.toNat % 256 = 0x31 ∨
        (0x40 ≤ w.toNat % 256 ∧ w.toNat % 256 ≤ 0x43)) ∧
      w.toNat / 2 ^ 9 = 0 ∧
      (w.getLsbD 8 = false ∨ (0x40 ≤ w.toNat % 256 ∧ w.toNat % 256 ≤ 0x43)))

/-- 30_encoding.md R305: no two rows of the opcode table match the same word. -/
def Obligations.OpcodeRowsNeverOverlap : Prop :=
  cmdRows.Pairwise fun r q => ∀ w : Word, ¬(r.covers w = true ∧ q.covers w = true)

/-- 30_encoding.md R302, R310: the engine executes a word that is not legal as ILLEGAL_COMMAND with the word as info,
and it has no other effect. -/
def Obligations.IllegalWordRaisesIllegalCommand : Prop :=
  ∀ s : State, s.phase = .pending → legal s.latch.cmd = false →
    engineStep s = .next { s with errcode := 0x10, errinfo := s.latch.cmd, err := true, phase := .idle }

/-! ## Steps -/

/-- 60_exceptions.md R904: a pending command that decodes is run by exec, and nothing stands around it but that one more
step has been made (`State.moved`, the model's own count, log 1), under every host program and order, those of `step` too. -/
def Obligations.StepRunsTheDecodedCommand : Prop :=
  ∀ (s : State) (i : Instr), s.phase = .pending → decode s.latch.cmd = .ok i →
    engineStep s = exec i s ∧
    (∀ p : StepParams, nextMove p s = .engine → stepUnder p s = exec i s.moved) ∧
    (nextMove Config.stepParams s = .engine → step s = exec i s.moved)

/-- 00_scope.md R8, R9, 20_memory.md R200, R220, 70_reset_and_hazards.md R1000, R1030 and 10_state.md R130: under every host
program and every order of the agents, a step is that of the agent the order offers: the host's access where its program has
one to make (an access that awaits the interrupt, only while the interrupt output is 1), power-on, or the engine's step,
which leaves an idle block alone; the engine's also where the host has no step to make. `step` is this with the opaque
parameters of Config. The count of steps and `engineNext` are the model's own (log 1). Power-on gives every field the spec
names its reset value; the model's own `draws`, `turns` and `replies` go on (logs 2 and 12), and HC.INNER, which the spec
calls unused, takes the model's value (log 3). -/
def Obligations.StepTakesTheNextMove : Prop :=
  ∀ (p : StepParams) (s : State),
    (s.engineNext = true → stepUnder p s = engineStep s.moved) ∧
    (s.engineNext = false →
      (p.order s.turns = .engine → stepUnder p s = engineStep s.moved) ∧
      (p.order s.turns = .power →
        stepUnder p s = .next { State.reset with draws := s.draws, turns := s.turns + 1, replies := s.replies }) ∧
      (p.order s.turns = .host →
        (∀ a, p.program s.replies = .access a → stepUnder p s = hostAccess s.moved a) ∧
        (∀ a, p.program s.replies = .awaitIrq a →
          stepUnder p s = if s.irq then hostAccess s.moved a else engineStep s.moved) ∧
        (p.program s.replies = .finished → stepUnder p s = engineStep s.moved))) ∧
    s.moved = { s with turns := s.turns + 1, engineNext := false } ∧
    (s.phase = .idle → engineStep s = .next s) ∧
    step s = stepUnder Config.stepParams s

/-- 10_state.md R141, 60_exceptions.md R904, R913: under every host program and order, a step answers a next state, but for
a read of an UNWRITTEN byte of DBUF, the one model fault; nothing is refused. -/
def Obligations.StepsStopOnlyAtAnUnwrittenByte : Prop :=
  ∀ (p : StepParams) (s : State),
    s.SafeUnder p ∨ ∃ x, stepUnder p s = .fault (.unwrittenByte x) ∧ x < 1024 ∧ s.dbuf.read x = none

/-- 70_reset_and_hazards.md R1030, R1035: a run has ended exactly when the host program has made its last access and no
command is pending; after the last access only the engine's step or a power-on is next, and the engine's step ends the run;
its turns after the end change nothing of what the end shows. And whatever the host program does, under weak fairness of the
ENGINE no command stays pending for ever: after some number of steps none is, or the run has met the model fault. -/
def Obligations.RunEndsWhenTheHostIsDoneAndNothingIsPending : Prop :=
  ∀ (p : StepParams) (s : State),
    (s.ended p.program = true ↔ p.program s.replies = .finished ∧ s.phase = .idle) ∧
    (p.program s.replies = .finished →
      (nextMove p s = .engine ∨ nextMove p s = .powerOn) ∧
      (nextMove p s = .engine → ∀ t, stepUnder p s = .next t → t.ended p.program = true)) ∧
    (s.ended p.program = true → nextMove p s = .engine →
      ∃ t, stepUnder p s = .next t ∧ t.ended p.program = true ∧ t.observation = s.observation) ∧
    (p.Fair → s.phase = .pending →
      ∃ n, (∃ t, runUnder p n s = .next t ∧ t.phase = .idle) ∨ ∃ f, runUnder p n s = .fault f)

/-! ## The host interface

`replies`, `turns`, `engineNext` and `draws` are the model's own fields (logs 1 and 2): what a statement says of them is the model's choice. -/

/-- 60_exceptions.md R903: acceptance. -/
def Obligations.CmdWriteAcceptsTheCommand : Prop :=
  ∀ (s : State) (w : Word), s.phase = .idle →
    hostAccess s (.write 0x014 4 w) = .next
      { s with
        latch := { cmd := w, args := s.args, period := s.cfgPeriod, digits := s.cfgDigits }
        done := false, err := false, errcode := 0, errinfo := 0, phase := .pending
        replies := .written :: s.replies }

/-- 70_reset_and_hazards.md R1010: a CMD write while busy. -/
def Obligations.CmdWriteWhileBusyOnlySetsCmdOvr : Prop :=
  ∀ (s : State) (w : Word), s.phase = .pending →
    hostAccess s (.write 0x014 4 w) = .next { s with cmdOvr := true, replies := .written :: s.replies }

/-- 70_reset_and_hazards.md R1011: the DBUF window while busy, for the aligned accesses of 20_memory.md R203
(a misaligned one is log 5). -/
def Obligations.BusyBlocksTheWindow : Prop :=
  ∀ (s : State) (off : BitVec 11) (n : Nat) (v : Word), s.phase = .pending → 0x400 ≤ off.toNat →
    (n = 1 ∨ n = 2 ∨ n = 4) → off.toNat % n = 0 →
    hostAccess s (.read off n) = .next { s with accErr := true, replies := .data 0 :: s.replies } ∧
    hostAccess s (.write off n v) = .next { s with accErr := true, replies := .written :: s.replies }

/-- 70_reset_and_hazards.md R1002: soft reset, in every phase, whatever bit 1 of the write holds. -/
def Obligations.SoftResetRestoresAllButDbuf : Prop :=
  ∀ (s : State) (v : Word), v.getLsbD 0 = true →
    hostAccess s (.write 0x004 4 v) = .next
      { State.reset with
        dbuf := s.dbuf, draws := s.draws, turns := s.turns, engineNext := s.engineNext
        replies := .written :: s.replies }

/-- 10_state.md R150: the reset values the spec gives. HC.INNER is unused there and is not named. -/
def Obligations.PowerOnResetValues : Prop :=
  State.reset.regRead .id = 0x4F545031 ∧
  State.reset.ie = false ∧ State.reset.phase = .idle ∧ State.reset.status = 0 ∧
  State.reset.errcode = 0 ∧ State.reset.errinfo = 0 ∧ State.reset.latch.cmd = 0 ∧
  State.reset.cfgPeriod = 30 ∧ State.reset.cfgDigits = 6 ∧
  (∀ i : Fin 8, State.reset.args[i] = 0 ∧ State.reset.latch.args[i] = 0) ∧
  State.reset.latch.period = 30 ∧ State.reset.latch.digits = 6 ∧
  (∀ i : Fin 4, State.reset.results[i] = 0) ∧ (∀ i : Fin 5, State.reset.digest[i] = 0) ∧
  State.reset.shaLen = 0 ∧ State.reset.hmacLen = 0 ∧
  State.reset.sc.stream.h = ⟨0x67452301, 0xEFCDAB89, 0x98BADCFE, 0x10325476, 0xC3D2E1F0⟩ ∧
  State.reset.sc.stream.rem = [] ∧ State.reset.sc.stream.count = 0 ∧ State.reset.sc.st = .init ∧
  State.reset.hc.k0 = List.replicate 64 0 ∧ State.reset.hc.st = .noKey ∧
  (∀ x, State.reset.dbuf.read x = none) ∧ State.reset.irq = false

/-- 10_state.md R114, R115: writes to read-only and reserved registers do nothing, and reserved offsets read 0. -/
def Obligations.ReadOnlyRegistersIgnoreWrites : Prop :=
  ∀ (s : State) (off : BitVec 11) (v : Word), off.toNat % 4 = 0 →
    ((off = 0x000 ∨ off = 0x00C ∨ off = 0x010 ∨ (0x040 ≤ off.toNat ∧ off.toNat < 0x400)) →
      hostAccess s (.write off 4 v) = .next (s.reply .written)) ∧
    ((0x074 ≤ off.toNat ∧ off.toNat < 0x400) → hostAccess s (.read off 4) = .next (s.reply (.data 0)))

/-- 20_memory.md R201, R202, R203: a register access that is not 32 bits wide or not aligned, and a misaligned 16 or 32-bit
access of the window, are answered by a bus error and change nothing, idle or busy.
That a misaligned window access while busy is a bus error, and does not set ACC_ERR, is the model's reading of
70_reset_and_hazards.md R1011 (log 5). Window widths other than 1, 2 and 4 bytes (log 6) are not claimed here. -/
def Obligations.BadAccessesGetABusError : Prop :=
  ∀ (s : State) (off : BitVec 11) (n : Nat) (v : Word),
    ((off.toNat < 0x400 ∧ (n ≠ 4 ∨ off.toNat % 4 ≠ 0)) ∨
      (0x400 ≤ off.toNat ∧ ((n = 2 ∧ off.toNat % 2 ≠ 0) ∨ (n = 4 ∧ off.toNat % 4 ≠ 0)))) →
    hostAccess s (.read off n) = .next { s with replies := .busError :: s.replies } ∧
    hostAccess s (.write off n v) = .next { s with replies := .busError :: s.replies }

/-- 10_state.md R100 to R113: what a 32-bit read of each register answers. -/
def Obligations.RegisterReadsAnswerTheMap : Prop :=
  ∀ s : State,
    s.Answers 0x000 0x4F545031 ∧ s.Answers 0x004 (if s.ie then 2 else 0) ∧ s.Answers 0x008 s.status ∧
    s.Answers 0x00C (s.errcode.setWidth 32) ∧ s.Answers 0x010 s.errinfo ∧ s.Answers 0x014 s.latch.cmd ∧
    s.Answers 0x018 s.cfgPeriod ∧ s.Answers 0x01C (s.cfgDigits.setWidth 32) ∧
    (∀ i : Fin 8, s.Answers (BitVec.ofNat 11 (0x020 + 4 * i)) s.args[i]) ∧
    (∀ i : Fin 4, s.Answers (BitVec.ofNat 11 (0x040 + 4 * i)) s.results[i]) ∧
    (∀ i : Fin 5, s.Answers (BitVec.ofNat 11 (0x050 + 4 * i)) s.digest[i]) ∧
    s.Answers 0x064 (BitVec.ofNat 32 (s.sc.stream.count % 2 ^ 32)) ∧ s.Answers 0x068 (BitVec.ofNat 32 (s.sc.stream.count / 2 ^ 32)) ∧
    (s.hc.st = .noKey → s.Answers 0x06C 0 ∧ s.Answers 0x070 0) ∧
    (s.hc.st ≠ .noKey → s.Answers 0x06C (BitVec.ofNat 32 ((s.hc.inner.count - 64) % 2 ^ 32)) ∧
      s.Answers 0x070 (BitVec.ofNat 32 ((s.hc.inner.count - 64) / 2 ^ 32)))

/-- 20_memory.md R206: no read has a side effect on the block, but ACC_ERR of a window read while busy
(70_reset_and_hazards.md R1011). -/
def Obligations.ReadsChangeNothing : Prop :=
  ∀ (s t : State) (off : BitVec 11) (n : Nat), hostAccess s (.read off n) = .next t →
    (s.phase = .idle ∨ off.toNat < 0x400) → ∃ r, t = { s with replies := r :: s.replies }

/-- 10_state.md R103: the fields of STATUS. -/
def Obligations.StatusWordLayout : Prop :=
  ∀ s : State,
    s.status.getLsbD 0 = (s.phase == .pending) ∧ s.status.getLsbD 1 = s.done ∧ s.status.getLsbD 2 = s.err ∧
    s.status.getLsbD 3 = s.cmdOvr ∧ s.status.getLsbD 4 = s.accErr ∧
    (s.status.extractLsb' 5 2 = match s.sc.st with | .init => 0 | .updating => 1 | .finalized => 2) ∧
    (s.status.extractLsb' 7 2 = match s.hc.st with | .noKey => 0 | .keyed => 1 | .finalized => 2) ∧
    s.status.toNat / 2 ^ 9 = 0

/-- 10_state.md R103: a STATUS write clears the flags whose bit is 1 and changes nothing else. -/
def Obligations.StatusWriteClearsTheOnes : Prop :=
  ∀ (s : State) (v : Word),
    hostAccess s (.write 0x008 4 v) = .next
      { s with
        done := if v.getLsbD 1 then false else s.done
        err := if v.getLsbD 2 then false else s.err
        cmdOvr := if v.getLsbD 3 then false else s.cmdOvr
        accErr := if v.getLsbD 4 then false else s.accErr
        replies := .written :: s.replies }

/-- 20_memory.md R204: a window write puts bits [8k+7:8k] into byte o + k and nothing else, and a read of the same
width gives the written bits back. -/
def Obligations.WindowLanesAreLittleEndian : Prop :=
  ∀ (s : State) (off : BitVec 11) (n : Nat) (v : Word), s.phase = .idle → 0x400 ≤ off.toNat →
    (n = 1 ∨ n = 2 ∨ n = 4) → off.toNat % n = 0 →
    ∃ t, hostAccess s (.write off n v) = .next t ∧
      (∀ k < n, t.dbuf.read (off.toNat - 0x400 + k) = some (v.extractLsb' (8 * k) 8)) ∧
      (∀ x, (x < off.toNat - 0x400 ∨ off.toNat - 0x400 + n ≤ x) → t.dbuf.read x = s.dbuf.read x) ∧
      t = { s with dbuf := t.dbuf, replies := .written :: s.replies } ∧
      hostAccess t (.read off n) = .next (t.reply (.data (BitVec.ofNat 32 (v.toNat % 2 ^ (8 * n)))))

/-- 20_memory.md R203, R204, R206: a read of the window while idle answers the little-endian value of the bytes. -/
def Obligations.WindowReadAnswersTheBytes : Prop :=
  ∀ (s : State) (off : BitVec 11) (n : Nat) (b : Nat → Byte), s.phase = .idle → 0x400 ≤ off.toNat →
    (n = 1 ∨ n = 2 ∨ n = 4) → off.toNat % n = 0 →
    (∀ k < n, s.dbuf.read (off.toNat - 0x400 + k) = some (b k)) →
    hostAccess s (.read off n) =
      .next (s.reply (.data (BitVec.ofNat 32 (((List.range n).map fun k => 2 ^ (8 * k) * (b k).toNat).sum))))

/-- 10_state.md R102, R107, R108, R109: the read-write registers hold what is written, and nothing else changes. -/
def Obligations.WritableRegistersHoldWhatIsWritten : Prop :=
  ∀ (s : State) (v : Word),
    (v.getLsbD 0 = false →
      hostAccess s (.write 0x004 4 v) = .next { s with ie := v.getLsbD 1, replies := .written :: s.replies }) ∧
    hostAccess s (.write 0x018 4 v) = .next { s with cfgPeriod := v, replies := .written :: s.replies } ∧
    (∃ t, hostAccess s (.write 0x01C 4 v) = .next t ∧ t.cfgDigits.toNat = v.toNat % 16 ∧
      t = { s with cfgDigits := t.cfgDigits, replies := .written :: s.replies }) ∧
    (∀ i : Fin 8, ∃ t, hostAccess s (.write (BitVec.ofNat 11 (0x020 + 4 * i)) 4 v) = .next t ∧
      t.args[i] = v ∧ (∀ j : Fin 8, j ≠ i → t.args[j] = s.args[j]) ∧
      t = { s with args := t.args, replies := .written :: s.replies })

/-- 10_state.md R131, 70_reset_and_hazards.md R1012: while a command is pending no host access but a soft reset
changes what the engine step reads or what it has written. -/
def Obligations.HostCannotTouchThePendingCommand : Prop :=
  ∀ (s t : State) (a : HostAccess), s.phase = .pending →
    (∀ v, a = .write 0x004 4 v → v.getLsbD 0 = false) → hostAccess s a = .next t →
    t.phase = .pending ∧ t.latch = s.latch ∧ t.dbuf = s.dbuf ∧ t.sc = s.sc ∧ t.hc = s.hc ∧
    t.results = s.results ∧ t.digest = s.digest ∧ t.errcode = s.errcode ∧ t.errinfo = s.errinfo ∧ t.draws = s.draws

/-- 60_exceptions.md R920: the interrupt output; it falls on acknowledge of both flags, on acceptance, and on reset. -/
def Obligations.InterruptOutputIsALevel : Prop :=
  ∀ s : State, (s.irq = true ↔ s.ie = true ∧ (s.done = true ∨ s.err = true)) ∧
    (∀ v, v.getLsbD 1 = true → v.getLsbD 2 = true → (s.ack v).irq = false) ∧
    (∀ w, (s.accept w).irq = false) ∧ s.softReset.irq = false ∧ s.powerOn.irq = false ∧
    (∀ r0 r1 r2 r3, (s.complete r0 r1 r2 r3).irq = s.ie) ∧ (∀ code info, (s.raise code info).irq = s.ie)

/-! ## The commands, each rule with its checks in order -/

/-- 40_base32.md R420. -/
def Obligations.B32EncFollowsItsRule : Prop :=
  ∀ s : State,
    (1024 < s.a 0 + s.a 1 → exec .b32Enc s = .next (s.raise .bufferRange 0)) ∧
    (s.a 0 + s.a 1 ≤ 1024 → 1024 < s.a 2 + 8 * ((s.a 1 + 4) / 5) →
      exec .b32Enc s = .next (s.raise .bufferRange 2)) ∧
    (s.a 0 + s.a 1 ≤ 1024 → s.a 2 + 8 * ((s.a 1 + 4) / 5) ≤ 1024 →
      (∀ src, s.dbuf.readBytes (s.a 0) (s.a 1) = .ok src →
        exec .b32Enc s = .next ((s.putBytes (s.a 2) (b32Encode src)).complete
          (BitVec.ofNat 32 (8 * ((s.a 1 + 4) / 5))) 0 0 0)) ∧
      (∀ f, s.dbuf.readBytes (s.a 0) (s.a 1) = .error f → exec .b32Enc s = .fault f))

/-- 40_base32.md R421. -/
def Obligations.B32DecFollowsItsRule : Prop :=
  ∀ s : State,
    (1024 < s.a 0 + s.a 1 → exec .b32Dec s = .next (s.raise .bufferRange 0)) ∧
    (s.a 0 + s.a 1 ≤ 1024 →
      (∀ f, s.dbuf.readBytes (s.a 0) (s.a 1) = .error f → exec .b32Dec s = .fault f) ∧
      (∀ txt, s.dbuf.readBytes (s.a 0) (s.a 1) = .ok txt →
        (∀ i, b32Decode txt = .error i →
          exec .b32Dec s = .next (s.raise .invalidBase32Character (BitVec.ofNat 32 i))) ∧
        (∀ r, b32Decode txt = .ok r → 1024 < s.a 2 + r.length → exec .b32Dec s = .next (s.raise .bufferRange 2)) ∧
        (∀ r, b32Decode txt = .ok r → s.a 2 + r.length ≤ 1024 →
          exec .b32Dec s = .next ((s.putBytes (s.a 2) r).complete (BitVec.ofNat 32 r.length) 0 0 0))))

/-- 41_sha1.md R520. -/
def Obligations.ShaInitFollowsItsRule : Prop :=
  ∀ s : State, exec .shaInit s = .next
    { s with
      sc := { stream := { h := iv, rem := [], count := 0 }, st := .init }
      results := #v[0, 0, 0, 0], done := true, phase := .idle }

/-- 41_sha1.md R521. -/
def Obligations.ShaUpdateFollowsItsRule : Prop :=
  ∀ s : State,
    (s.sc.st = .finalized → exec .shaUpdate s = .next (s.raise .contextFinalized 0)) ∧
    (s.sc.st ≠ .finalized → 1024 < s.a 0 + s.a 1 → exec .shaUpdate s = .next (s.raise .bufferRange 0)) ∧
    (s.sc.st ≠ .finalized → s.a 0 + s.a 1 ≤ 1024 → 2 ^ 61 - 1 < s.sc.stream.count + s.a 1 →
      exec .shaUpdate s = .next (s.raise .msgTooLong 0)) ∧
    (s.sc.st ≠ .finalized → s.a 0 + s.a 1 ≤ 1024 → s.sc.stream.count + s.a 1 ≤ 2 ^ 61 - 1 →
      (∀ m, s.dbuf.readBytes (s.a 0) (s.a 1) = .ok m →
        exec .shaUpdate s = .next
          ({ s with sc := { stream := (sha1Update s.sc.stream m).1, st := .updating } }.complete
            (BitVec.ofNat 32 (sha1Update s.sc.stream m).2)
            (BitVec.ofNat 32 (sha1Update s.sc.stream m).1.rem.length) 0 0)) ∧
      (∀ f, s.dbuf.readBytes (s.a 0) (s.a 1) = .error f → exec .shaUpdate s = .fault f))

/-- 41_sha1.md R522. -/
def Obligations.ShaFinalFollowsItsRule : Prop :=
  ∀ (s : State) (h : HashState) (nf : Nat), sha1Final s.sc.stream = (h, nf) →
    (s.sc.st = .finalized → exec .shaFinal s = .next (s.raise .contextFinalized 0)) ∧
    (s.sc.st ≠ .finalized → 1024 < s.a 0 + 20 → exec .shaFinal s = .next (s.raise .bufferRange 0)) ∧
    (s.sc.st ≠ .finalized → s.a 0 + 20 ≤ 1024 →
      exec .shaFinal s = .next
        ({ s with
            dbuf := s.dbuf.writeBytes (s.a 0) (digestBytes h)
            digest := #v[h.h0, h.h1, h.h2, h.h3, h.h4]
            sc := { stream := { h := h, rem := [], count := s.sc.stream.count }, st := .finalized } }.complete
          (BitVec.ofNat 32 nf) 0 0 0))

/-- 41_sha1.md R523. -/
def Obligations.ShaHashFollowsItsRule : Prop :=
  ∀ s : State,
    (1024 < s.a 0 + s.a 1 → exec .shaHash s = .next (s.raise .bufferRange 0)) ∧
    (s.a 0 + s.a 1 ≤ 1024 → 1024 < s.a 2 + 20 → exec .shaHash s = .next (s.raise .bufferRange 2)) ∧
    (s.a 0 + s.a 1 ≤ 1024 → s.a 2 + 20 ≤ 1024 →
      (∀ m, s.dbuf.readBytes (s.a 0) (s.a 1) = .ok m →
        exec .shaHash s = .next
          (((s.putBytes (s.a 2) (sha1 m)).putDigest (sha1 m)).complete
            (BitVec.ofNat 32 (s.a 1 / 64 + (if s.a 1 % 64 ≤ 55 then 1 else 2))) 0 0 0)) ∧
      (∀ f, s.dbuf.readBytes (s.a 0) (s.a 1) = .error f → exec .shaHash s = .fault f))

/-- 42_hmac.md R620. -/
def Obligations.HmacSetkeyFollowsItsRule : Prop :=
  ∀ s : State,
    (1024 < s.a 0 + s.a 1 → exec .hmacSetkey s = .next (s.raise .bufferRange 0)) ∧
    (s.a 0 + s.a 1 ≤ 1024 → s.a 1 = 0 → exec .hmacSetkey s = .next (s.raise .emptyHmacKey 0)) ∧
    (s.a 0 + s.a 1 ≤ 1024 → s.a 1 ≠ 0 →
      (∀ k, s.dbuf.readBytes (s.a 0) (s.a 1) = .ok k →
        ∃ k0, hmacK0 k = .ok k0 ∧
          exec .hmacSetkey s = .next
            ({ s with
                hc := { k0 := k0, inner := (sha1Update Stream.initial (ipadBlock k0)).1, st := .keyed } }.complete
              (if s.a 1 > 64 then 1 else 0) 0 0 0)) ∧
      (∀ f, s.dbuf.readBytes (s.a 0) (s.a 1) = .error f → exec .hmacSetkey s = .fault f))

/-- 42_hmac.md R621. -/
def Obligations.HmacUpdateFollowsItsRule : Prop :=
  ∀ s : State,
    (s.hc.st = .noKey → exec .hmacUpdate s = .next (s.raise .noKey 0)) ∧
    (s.hc.st = .finalized → exec .hmacUpdate s = .next (s.raise .contextFinalized 1)) ∧
    (s.hc.st = .keyed → 1024 < s.a 0 + s.a 1 → exec .hmacUpdate s = .next (s.raise .bufferRange 0)) ∧
    (s.hc.st = .keyed → s.a 0 + s.a 1 ≤ 1024 → 2 ^ 61 - 1 < s.hc.inner.count + s.a 1 →
      exec .hmacUpdate s = .next (s.raise .msgTooLong 0)) ∧
    (s.hc.st = .keyed → s.a 0 + s.a 1 ≤ 1024 → s.hc.inner.count + s.a 1 ≤ 2 ^ 61 - 1 →
      (∀ m, s.dbuf.readBytes (s.a 0) (s.a 1) = .ok m →
        exec .hmacUpdate s = .next
          ({ s with hc := { s.hc with inner := (sha1Update s.hc.inner m).1 } }.complete
            (BitVec.ofNat 32 (sha1Update s.hc.inner m).2)
            (BitVec.ofNat 32 (sha1Update s.hc.inner m).1.rem.length) 0 0)) ∧
      (∀ f, s.dbuf.readBytes (s.a 0) (s.a 1) = .error f → exec .hmacUpdate s = .fault f))

/-- 42_hmac.md R622. -/
def Obligations.HmacFinalFollowsItsRule : Prop :=
  ∀ (s : State) (d : List Byte), d = sha1 (opadBlock s.hc.k0 ++ digestBytes (sha1Final s.hc.inner).1) →
    (s.hc.st = .noKey → exec .hmacFinal s = .next (s.raise .noKey 0)) ∧
    (s.hc.st = .finalized → exec .hmacFinal s = .next (s.raise .contextFinalized 1)) ∧
    (s.hc.st = .keyed → 1024 < s.a 0 + 20 → exec .hmacFinal s = .next (s.raise .bufferRange 0)) ∧
    (s.hc.st = .keyed → s.a 0 + 20 ≤ 1024 →
      exec .hmacFinal s = .next
        ((({ s with hc := { s.hc with st := .finalized } }.putBytes (s.a 0) d).putDigest d).complete 0 0 0 0))

/-- 42_hmac.md R623. -/
def Obligations.HmacMacFollowsItsRule : Prop :=
  ∀ s : State,
    (1024 < s.a 0 + s.a 1 → exec .hmacMac s = .next (s.raise .bufferRange 0)) ∧
    (s.a 0 + s.a 1 ≤ 1024 → 1024 < s.a 2 + s.a 3 → exec .hmacMac s = .next (s.raise .bufferRange 2)) ∧
    (s.a 0 + s.a 1 ≤ 1024 → s.a 2 + s.a 3 ≤ 1024 → 1024 < s.a 4 + 20 →
      exec .hmacMac s = .next (s.raise .bufferRange 4)) ∧
    (s.a 0 + s.a 1 ≤ 1024 → s.a 2 + s.a 3 ≤ 1024 → s.a 4 + 20 ≤ 1024 → s.a 1 = 0 →
      exec .hmacMac s = .next (s.raise .emptyHmacKey 0)) ∧
    (s.a 0 + s.a 1 ≤ 1024 → s.a 2 + s.a 3 ≤ 1024 → s.a 4 + 20 ≤ 1024 → s.a 1 ≠ 0 →
      (∀ f, s.dbuf.readBytes (s.a 0) (s.a 1) = .error f → exec .hmacMac s = .fault f) ∧
      (∀ k, s.dbuf.readBytes (s.a 0) (s.a 1) = .ok k →
        (∀ f, s.dbuf.readBytes (s.a 2) (s.a 3) = .error f → exec .hmacMac s = .fault f) ∧
        (∀ m, s.dbuf.readBytes (s.a 2) (s.a 3) = .ok m →
          ∃ d, hmacSha1 k m = .ok d ∧
            exec .hmacMac s = .next
              (((s.putBytes (s.a 4) d).putDigest d).complete (if s.a 1 > 64 then 1 else 0) 0 0 0))))

/-- 43_hotp.md R720. -/
def Obligations.HotpGenFollowsItsRule : Prop :=
  ∀ s : State,
    (s.d < 1 ∨ 9 < s.d → exec .hotpGen s = .next (s.raise .badConfig 1)) ∧
    (1 ≤ s.d → s.d ≤ 9 → 1024 < s.a 0 + s.a 1 → exec .hotpGen s = .next (s.raise .bufferRange 0)) ∧
    (1 ≤ s.d → s.d ≤ 9 → s.a 0 + s.a 1 ≤ 1024 → 1024 < s.a 4 + s.d →
      exec .hotpGen s = .next (s.raise .bufferRange 4)) ∧
    (1 ≤ s.d → s.d ≤ 9 → s.a 0 + s.a 1 ≤ 1024 → s.a 4 + s.d ≤ 1024 →
      (∀ f, s.dbuf.readBytes (s.a 0) (s.a 1) = .error f → exec .hotpGen s = .fault f) ∧
      (∀ txt, s.dbuf.readBytes (s.a 0) (s.a 1) = .ok txt →
        (∀ i, b32Decode txt = .error i → exec .hotpGen s = .next (s.raise .invalidSecret (BitVec.ofNat 32 i))) ∧
        (b32Decode txt = .ok [] → exec .hotpGen s = .next (s.raise .invalidSecret 0xFFFFFFFF)) ∧
        (∀ key, b32Decode txt = .ok key → key ≠ [] →
          ∃ d, hmacSha1 key (bytesBe64 (2 ^ 32 * s.a 3 + s.a 2)) = .ok d ∧
            exec .hotpGen s = .next
              ((s.putBytes (s.a 4) (hotpRender (truncValue d % 10 ^ s.d) s.d)).complete
                (BitVec.ofNat 32 (truncValue d % 10 ^ s.d)) (BitVec.ofNat 32 (truncValue d))
                (BitVec.ofNat 32 (truncOffset d)) 0))))

/-- 43_hotp.md R721. -/
def Obligations.HotpTruncFollowsItsRule : Prop :=
  ∀ s : State,
    (s.d < 1 ∨ 9 < s.d → exec .hotpTrunc s = .next (s.raise .badConfig 1)) ∧
    (1 ≤ s.d → s.d ≤ 9 → 1024 < s.a 0 + 20 → exec .hotpTrunc s = .next (s.raise .bufferRange 0)) ∧
    (1 ≤ s.d → s.d ≤ 9 → s.a 0 + 20 ≤ 1024 → 1024 < s.a 1 + s.d →
      exec .hotpTrunc s = .next (s.raise .bufferRange 1)) ∧
    (1 ≤ s.d → s.d ≤ 9 → s.a 0 + 20 ≤ 1024 → s.a 1 + s.d ≤ 1024 →
      (∀ f, s.dbuf.readBytes (s.a 0) 20 = .error f → exec .hotpTrunc s = .fault f) ∧
      (∀ d, s.dbuf.readBytes (s.a 0) 20 = .ok d →
        exec .hotpTrunc s = .next
          ((s.putBytes (s.a 1) (hotpRender (truncValue d % 10 ^ s.d) s.d)).complete
            (BitVec.ofNat 32 (truncValue d % 10 ^ s.d)) (BitVec.ofNat 32 (truncValue d))
            (BitVec.ofNat 32 (truncOffset d)) 0)))

/-- 44_totp.md R801: the timestamp in milliseconds, or one answer of the time port, for every value of that answer.
How many answers have been used (`draws`) is the model's own count (log 2). -/
def Obligations.TimeComesFromTheStampOrThePort : Prop :=
  ∀ s : State,
    totpTime s .stamp = (2 ^ 32 * s.a 3 + s.a 2) / 1000 ∧ s.takeTime .stamp = s ∧
    totpTime s .port = (Config.timePort s.draws).toNat ∧ s.takeTime .port = { s with draws := s.draws + 1 }

/-- 44_totp.md R820, for both time sources and for every answer of the time port.
How many answers have been used (`draws`) is the model's own count (logs 2 and 9). -/
def Obligations.TotpGenFollowsItsRule : Prop :=
  ∀ (s : State) (t : TimeSource) (c : Nat), c = totpTime s t / s.p →
    (s.p = 0 → exec (.totpGen t) s = .next (s.raise .badConfig 0)) ∧
    (s.p ≠ 0 → s.d < 1 ∨ 9 < s.d → exec (.totpGen t) s = .next (s.raise .badConfig 1)) ∧
    (s.p ≠ 0 → 1 ≤ s.d → s.d ≤ 9 → 1024 < s.a 0 + s.a 1 →
      exec (.totpGen t) s = .next (s.raise .bufferRange 0)) ∧
    (s.p ≠ 0 → 1 ≤ s.d → s.d ≤ 9 → s.a 0 + s.a 1 ≤ 1024 → 1024 < s.a 4 + s.d →
      exec (.totpGen t) s = .next (s.raise .bufferRange 4)) ∧
    (s.p ≠ 0 → 1 ≤ s.d → s.d ≤ 9 → s.a 0 + s.a 1 ≤ 1024 → s.a 4 + s.d ≤ 1024 →
      (∀ f, s.dbuf.readBytes (s.a 0) (s.a 1) = .error f → exec (.totpGen t) s = .fault f) ∧
      (∀ txt, s.dbuf.readBytes (s.a 0) (s.a 1) = .ok txt →
        (∀ i, b32Decode txt = .error i →
          exec (.totpGen t) s = .next (s.raise .invalidSecret (BitVec.ofNat 32 i))) ∧
        (b32Decode txt = .ok [] → exec (.totpGen t) s = .next (s.raise .invalidSecret 0xFFFFFFFF)) ∧
        (∀ key, b32Decode txt = .ok key → key ≠ [] →
          ∃ d, hmacSha1 key (bytesBe64 c) = .ok d ∧
            exec (.totpGen t) s = .next
              (((s.takeTime t).putBytes (s.a 4) (hotpRender (truncValue d % 10 ^ s.d) s.d)).complete
                (BitVec.ofNat 32 (truncValue d % 10 ^ s.d)) (BitVec.ofNat 32 (truncValue d))
                (BitVec.ofNat 32 (c % 2 ^ 32)) (BitVec.ofNat 32 (c / 2 ^ 32))))))

/-- 44_totp.md R805, R806, R807, R821, for both time sources and for every answer of the time port.
How many answers have been used (`draws`) is the model's own count (logs 2 and 9). -/
def Obligations.TotpVerifyFollowsItsRule : Prop :=
  ∀ (s : State) (t : TimeSource) (c : Nat), c = totpTime s t / s.p →
    (s.p = 0 → exec (.totpVerify t) s = .next (s.raise .badConfig 0)) ∧
    (s.p ≠ 0 → s.d < 1 ∨ 9 < s.d → exec (.totpVerify t) s = .next (s.raise .badConfig 1)) ∧
    (s.p ≠ 0 → 1 ≤ s.d → s.d ≤ 9 → 1024 < s.a 0 + s.a 1 →
      exec (.totpVerify t) s = .next (s.raise .bufferRange 0)) ∧
    (s.p ≠ 0 → 1 ≤ s.d → s.d ≤ 9 → s.a 0 + s.a 1 ≤ 1024 → 1024 < s.a 4 + s.a 5 →
      exec (.totpVerify t) s = .next (s.raise .bufferRange 4)) ∧
    (s.p ≠ 0 → 1 ≤ s.d → s.d ≤ 9 → s.a 0 + s.a 1 ≤ 1024 → s.a 4 + s.a 5 ≤ 1024 →
      (∀ f, s.dbuf.readBytes (s.a 0) (s.a 1) = .error f → exec (.totpVerify t) s = .fault f) ∧
      (∀ txt, s.dbuf.readBytes (s.a 0) (s.a 1) = .ok txt →
        (∀ f, s.dbuf.readBytes (s.a 4) (s.a 5) = .error f → exec (.totpVerify t) s = .fault f) ∧
        (∀ tok, s.dbuf.readBytes (s.a 4) (s.a 5) = .ok tok →
          (∀ i, b32Decode txt = .error i →
            exec (.totpVerify t) s = .next (s.raise .invalidSecret (BitVec.ofNat 32 i))) ∧
          (b32Decode txt = .ok [] → exec (.totpVerify t) s = .next (s.raise .invalidSecret 0xFFFFFFFF)) ∧
          (∀ key, b32Decode txt = .ok key → key ≠ [] →
            ((∃ x d, x ≤ 2 ^ 64 - 1 ∧ c ≤ x + s.a 6 ∧ x ≤ c + s.a 6 ∧ hmacSha1 key (bytesBe64 x) = .ok d ∧
                hotpRender (truncValue d % 10 ^ s.d) s.d = tok) →
              exec (.totpVerify t) s = .next ((s.takeTime t).complete 1 0
                (BitVec.ofNat 32 (c % 2 ^ 32)) (BitVec.ofNat 32 (c / 2 ^ 32)))) ∧
            ((¬∃ x d, x ≤ 2 ^ 64 - 1 ∧ c ≤ x + s.a 6 ∧ x ≤ c + s.a 6 ∧ hmacSha1 key (bytesBe64 x) = .ok d ∧
                hotpRender (truncValue d % 10 ^ s.d) s.d = tok) →
              exec (.totpVerify t) s = .next ((s.takeTime t).complete 0 0
                (BitVec.ofNat 32 (c % 2 ^ 32)) (BitVec.ofNat 32 (c / 2 ^ 32))))))))

/-- 44_totp.md R822, for both time sources and for every answer of the time port.
How many answers have been used (`draws`) is the model's own count (logs 2 and 9). -/
def Obligations.TotpRemsecFollowsItsRule : Prop :=
  ∀ (s : State) (t : TimeSource),
    (s.p = 0 → exec (.totpRemsec t) s = .next (s.raise .badConfig 0)) ∧
    (s.p ≠ 0 → exec (.totpRemsec t) s = .next ((s.takeTime t).complete
      (BitVec.ofNat 32 (s.p - totpTime s t % s.p)) 0 0 0))

/-- 44_totp.md R823, for both time sources and for every answer of the time port.
How many answers have been used (`draws`) is the model's own count (logs 2 and 9). -/
def Obligations.TotpRempctFollowsItsRule : Prop :=
  ∀ (s : State) (t : TimeSource) (rem : Nat) (bits : BitVec 64), rem = s.p - totpTime s t % s.p →
    bits = ((round64 rem s.p).mulNat 100).bits →
    (s.p = 0 → exec (.totpRempct t) s = .next (s.raise .badConfig 0)) ∧
    (s.p ≠ 0 → exec (.totpRempct t) s = .next ((s.takeTime t).complete
      (bits.extractLsb' 0 32) (bits.extractLsb' 32 32) (BitVec.ofNat 32 rem) 0))

/-! ## What all commands leave alone -/

/-- 10_state.md R102, R103, R107 to R109, R131; 60_exceptions.md R905, R906: no command changes the host's registers,
the latch, CMD_OVR or ACC_ERR, and after it none is pending. -/
def Obligations.CommandsKeepTheHostsRegisters : Prop :=
  ∀ (i : Instr) (s t : State), exec i s = .next t →
    t.ie = s.ie ∧ t.cmdOvr = s.cmdOvr ∧ t.accErr = s.accErr ∧ t.cfgPeriod = s.cfgPeriod ∧
    t.cfgDigits = s.cfgDigits ∧ t.args = s.args ∧ t.latch = s.latch ∧ t.turns = s.turns ∧
    t.engineNext = s.engineNext ∧ t.replies = s.replies ∧ t.phase = .idle

/-- 60_exceptions.md R905, R906, R907: a command ends in DONE, or in an error that changes nothing but ERR, ERRCODE,
ERRINFO and the phase. -/
def Obligations.CommandEndsInDoneOrInAnErrorAlone : Prop :=
  ∀ (i : Instr) (s t : State), exec i s = .next t →
    (∃ code info, t = { s with errcode := ErrCode.byte code, errinfo := info, err := true, phase := .idle }) ∨
    (t.done = true ∧ t.err = s.err ∧ t.errcode = s.errcode ∧ t.errinfo = s.errinfo ∧ t.phase = .idle)

/-- 10_state.md R120, R121, 41_sha1.md R511: only the SHA streaming commands change SC, only the HMAC ones HC. -/
def Obligations.OnlyTheStreamingCommandsChangeTheContexts : Prop :=
  ∀ (i : Instr) (s t : State), exec i s = .next t →
    (i ≠ .shaInit → i ≠ .shaUpdate → i ≠ .shaFinal → t.sc = s.sc) ∧
    (i ≠ .hmacSetkey → i ≠ .hmacUpdate → i ≠ .hmacFinal → t.hc = s.hc)

/-- 10_state.md R111: DIGEST0..4 are written by SHA_FINAL, SHA_HASH, HMAC_FINAL and HMAC_MAC only. -/
def Obligations.OnlyTheHashCommandsWriteDigest : Prop :=
  ∀ (i : Instr) (s t : State), exec i s = .next t →
    i ≠ .shaFinal → i ≠ .shaHash → i ≠ .hmacFinal → i ≠ .hmacMac → t.digest = s.digest

/-- 20_memory.md R211 and each command's MemWrite: every DBUF byte outside the range a command stores to is as before.
Covers all 16 commands; `storeRange` gives none for those that store nothing. -/
def Obligations.CommandsStoreOnlyInTheirOutputRange : Prop :=
  ∀ (i : Instr) (s t : State) (x : Nat), exec i s = .next t → Outside (storeRange i s) x →
    t.dbuf.read x = s.dbuf.read x

/-- 60_exceptions.md R900, R902, 43_hotp.md R704: the value of ERRCODE for each error a rule raises, and which commands may
raise it. BUFFER_RANGE comes from the commands with DBUF operands: all but SHA_INIT, TOTP_REMSEC and TOTP_REMPCT. -/
def Obligations.ErrorsAreRaisedOnlyByTheirCommands : Prop :=
  (∀ (s : State) (info : Word),
    (s.raise .invalidBase32Character info).errcode = 0x01 ∧ (s.raise .invalidSecret info).errcode = 0x02 ∧
    (s.raise .emptyHmacKey info).errcode = 0x03 ∧ (s.raise .illegalCommand info).errcode = 0x10 ∧
    (s.raise .bufferRange info).errcode = 0x11 ∧ (s.raise .contextFinalized info).errcode = 0x12 ∧
    (s.raise .noKey info).errcode = 0x13 ∧ (s.raise .badConfig info).errcode = 0x14 ∧
    (s.raise .msgTooLong info).errcode = 0x15) ∧
  ∀ (i : Instr) (s t : State), exec i s = .next t → s.errcode = 0 →
    (t.errcode = 0x01 → i = .b32Dec) ∧
    (t.errcode = 0x02 → i = .hotpGen ∨ ∃ src, i = .totpGen src ∨ i = .totpVerify src) ∧
    (t.errcode = 0x03 → i = .hmacSetkey ∨ i = .hmacMac) ∧
    (t.errcode = 0x11 → i ≠ .shaInit ∧ ∀ src, i ≠ .totpRemsec src ∧ i ≠ .totpRempct src) ∧
    (t.errcode = 0x12 → i = .shaUpdate ∨ i = .shaFinal ∨ i = .hmacUpdate ∨ i = .hmacFinal) ∧
    (t.errcode = 0x13 → i = .hmacUpdate ∨ i = .hmacFinal) ∧
    (t.errcode = 0x14 → i = .hotpGen ∨ i = .hotpTrunc ∨
      ∃ src, i = .totpGen src ∨ i = .totpVerify src ∨ i = .totpRemsec src ∨ i = .totpRempct src) ∧
    (t.errcode = 0x15 → i = .shaUpdate ∨ i = .hmacUpdate) ∧
    t.errcode ≠ 0x04 ∧ t.errcode ≠ 0x05 ∧ t.errcode ≠ 0x10

/-! ## The invariant -/

/-- 10_state.md R122, R141, R150: the reset state meets the invariant, with HC.INNER, which the spec calls unused there, at
the model's value (log 3). -/
def Obligations.InvariantHoldsAtReset : Prop := State.reset.Inv

/-- 10_state.md R103, R104, R120 to R122, R140; 60_exceptions.md R900: every step, of the host, the engine or the power
switch, under every host program and order, keeps the invariant: DBUF canonical and 1024 bytes at most, the flags in
agreement, and len(REM) = COUNT mod 64 in both contexts, but for a FINALIZED SC, whose REM is empty (log 8; HC.INNER in NOKEY
is the model's value, log 3). -/
def Obligations.EveryStepKeepsTheInvariant : Prop :=
  ∀ s t : State, s.Inv →
    (step s = .next t → t.Inv) ∧ ∀ p : StepParams, stepUnder p s = .next t → t.Inv

/-! ## The algorithms -/

/-- 40_base32.md R409: decode undoes encode, for every byte sequence. -/
def Obligations.Base32RoundTrip : Prop :=
  ∀ s : List Byte, b32Decode (b32Encode s) = .ok s

/-- 40_base32.md R403, R406: the lengths of encoded and of decoded text. -/
def Obligations.Base32Lengths : Prop :=
  (∀ s : List Byte, (b32Encode s).length = 8 * ((s.length + 4) / 5)) ∧
  (∀ t r : List Byte, b32Decode t = .ok r →
    r.length = 5 * (t.filter fun c => (symVal c).isSome).length / 8)

/-- 40_base32.md R408: the error of decode is the index of the first byte that is neither '=' nor a symbol. -/
def Obligations.Base32DecodeFindsTheFirstBadCharacter : Prop :=
  ∀ (t : List Byte) (i : Nat), b32Decode t = .error i ↔
    ∃ c, t[i]? = some c ∧ c ≠ 0x3D ∧ symVal c = none ∧
      ∀ j < i, ∀ b, t[j]? = some b → b = 0x3D ∨ (symVal b).isSome

/-- 41_sha1.md R512: whatever the split into updates, the context has absorbed the concatenation of the updates,
and SHA_FINAL outputs its SHA-1. -/
def Obligations.ShaContextTracksItsMessage : Prop :=
  ∀ s : State,
    (∃ t, exec .shaInit s = .next t ∧ t.sc.Absorbed []) ∧
    (∀ m, s.sc.Absorbed m →
      (∀ src, s.a 0 + s.a 1 ≤ 1024 → m.length + s.a 1 ≤ 2 ^ 61 - 1 →
        s.dbuf.readBytes (s.a 0) (s.a 1) = .ok src →
        ∃ t, exec .shaUpdate s = .next t ∧ t.sc.Absorbed (m ++ src)) ∧
      (s.a 0 + 20 ≤ 1024 →
        ∃ t, exec .shaFinal s = .next t ∧ t.dbuf = s.dbuf.writeBytes (s.a 0) (sha1 m) ∧ t.sc.st = .finalized))

/-- 42_hmac.md R604: HMAC_SETKEY, any number of HMAC_UPDATE, HMAC_FINAL output the HMAC of the whole message. -/
def Obligations.HmacContextTracksItsMessage : Prop :=
  ∀ s : State,
    (∀ k, s.a 0 + s.a 1 ≤ 1024 → s.a 1 ≠ 0 → s.dbuf.readBytes (s.a 0) (s.a 1) = .ok k →
      ∃ t k0, hmacK0 k = .ok k0 ∧ exec .hmacSetkey s = .next t ∧ t.hc.Absorbed k0 []) ∧
    (∀ k k0 m, hmacK0 k = .ok k0 → s.hc.Absorbed k0 m →
      (∀ src, s.a 0 + s.a 1 ≤ 1024 → 64 + m.length + s.a 1 ≤ 2 ^ 61 - 1 →
        s.dbuf.readBytes (s.a 0) (s.a 1) = .ok src →
        ∃ t, exec .hmacUpdate s = .next t ∧ t.hc.Absorbed k0 (m ++ src)) ∧
      (s.a 0 + 20 ≤ 1024 →
        ∃ t d, hmacSha1 k m = .ok d ∧ exec .hmacFinal s = .next t ∧
          t.dbuf = s.dbuf.writeBytes (s.a 0) d ∧ t.hc.st = .finalized))

/-- 41_sha1.md R507, R508: a digest is 20 bytes; how many blocks are compressed. -/
def Obligations.DigestSizeAndBlockCount : Prop :=
  (∀ s : List Byte, (sha1 s).length = 20) ∧
  (∀ x : Stream, x.rem.length ≤ 63 → (sha1Final x).2 = if x.rem.length ≤ 55 then 1 else 2) ∧
  (∀ s : List Byte, (sha1Update Stream.initial s).2 + (sha1Final (sha1Update Stream.initial s).1).2 =
    s.length / 64 + (if s.length % 64 ≤ 55 then 1 else 2))

/-- 43_hotp.md R701, R702: the truncated value has 31 bits; the code is D digits that read as p mod 10^D. -/
def Obligations.HotpTextIsTheDecimalCode : Prop :=
  (∀ d : List Byte, truncOffset d ≤ 15 ∧ truncValue d < 2 ^ 31) ∧
  (∀ p n : Nat, (hotpRender (hotpCode p n) n).length = n ∧
    (∀ b ∈ hotpRender (hotpCode p n) n, 0x30 ≤ b.toNat ∧ b.toNat ≤ 0x39) ∧
    decimalValue (hotpRender (hotpCode p n) n) = p % 10 ^ n)

/-- 44_totp.md R805: the candidate counters, in order. -/
def Obligations.CandidatesAreTheWindow : Prop :=
  ∀ c w : Nat, c ≤ 2 ^ 64 - 1 →
    (∀ x, x ∈ candidates c w ↔ x ≤ 2 ^ 64 - 1 ∧ c ≤ x + w ∧ x ≤ c + w) ∧ (candidates c w).Pairwise (· < ·)

/-- 44_totp.md R803, R804: the remaining seconds lie in [1, P] and end at a multiple of P; the percentage lies in (0, 100],
as bit patterns of positive numbers, and is 100.0 at rem = P. -/
def Obligations.RemainingTimeLiesInThePeriod : Prop :=
  (∀ (s : State) (t : TimeSource), s.p ≠ 0 → ∃ u, exec (.totpRemsec t) s = .next u ∧
    1 ≤ u.results[0].toNat ∧ u.results[0].toNat ≤ s.p ∧ (totpTime s t + u.results[0].toNat) % s.p = 0) ∧
  ∀ rem p : Nat, 1 ≤ rem → rem ≤ p → p < 2 ^ 32 →
    0 < (remPercent rem p).toNat ∧ (remPercent rem p).toNat ≤ 0x4059000000000000 ∧
    (rem = p → remPercent rem p = 0x4059000000000000)

/-- 44_totp.md R804: round64 answers a number with a 53-bit significand that is nearest to the quotient, ties to the even
one. The exponent is any integer here: that no overflow or underflow meets the command is in R804, not in this law. -/
def Obligations.Round64IsNearestTiesToEven : Prop :=
  ∀ num den : Nat, 0 < num → 0 < den →
    2 ^ 52 ≤ (round64 num den).sig ∧ (round64 num den).sig < 2 ^ 53 ∧
    ∀ y : Bin64, 2 ^ 52 ≤ y.sig → y.sig < 2 ^ 53 → y ≠ round64 num den →
      let v : ℚ := (num : ℚ) / den
      let x : ℚ := (round64 num den).sig * (2 : ℚ) ^ (round64 num den).exp
      let z : ℚ := y.sig * (2 : ℚ) ^ y.exp
      |x - v| ≤ |z - v| ∧ (|x - v| = |z - v| → (round64 num den).sig % 2 = 0)
end

