-- ==== Sys2Proof/Laws/State.lean ====
section
/-! SUPPORT. What each update of the state does to each field: one lemma per field per update. -/

namespace Sys2Proof.Machine

variable (s : State)

/-! ## `State.accept` -/

@[simp] theorem State.accept_ie (w : Word) : (s.accept w).ie = s.ie := rfl
@[simp] theorem State.accept_phase (w : Word) : (s.accept w).phase = .pending := rfl
@[simp] theorem State.accept_done (w : Word) : (s.accept w).done = false := rfl
@[simp] theorem State.accept_err (w : Word) : (s.accept w).err = false := rfl
@[simp] theorem State.accept_cmdOvr (w : Word) : (s.accept w).cmdOvr = s.cmdOvr := rfl
@[simp] theorem State.accept_accErr (w : Word) : (s.accept w).accErr = s.accErr := rfl
@[simp] theorem State.accept_errcode (w : Word) : (s.accept w).errcode = 0 := rfl
@[simp] theorem State.accept_errinfo (w : Word) : (s.accept w).errinfo = 0 := rfl
@[simp] theorem State.accept_cfgPeriod (w : Word) : (s.accept w).cfgPeriod = s.cfgPeriod := rfl
@[simp] theorem State.accept_cfgDigits (w : Word) : (s.accept w).cfgDigits = s.cfgDigits := rfl
@[simp] theorem State.accept_args (w : Word) : (s.accept w).args = s.args := rfl
@[simp] theorem State.accept_results (w : Word) : (s.accept w).results = s.results := rfl
@[simp] theorem State.accept_digest (w : Word) : (s.accept w).digest = s.digest := rfl
@[simp] theorem State.accept_sc (w : Word) : (s.accept w).sc = s.sc := rfl
@[simp] theorem State.accept_hc (w : Word) : (s.accept w).hc = s.hc := rfl
@[simp] theorem State.accept_latch (w : Word) : (s.accept w).latch = { cmd := w, args := s.args, period := s.cfgPeriod, digits := s.cfgDigits } := rfl
@[simp] theorem State.accept_dbuf (w : Word) : (s.accept w).dbuf = s.dbuf := rfl
@[simp] theorem State.accept_draws (w : Word) : (s.accept w).draws = s.draws := rfl
@[simp] theorem State.accept_turns (w : Word) : (s.accept w).turns = s.turns := rfl
@[simp] theorem State.accept_engineNext (w : Word) : (s.accept w).engineNext = s.engineNext := rfl
@[simp] theorem State.accept_replies (w : Word) : (s.accept w).replies = s.replies := rfl

/-! ## `State.complete` -/

@[simp] theorem State.complete_ie (r0 r1 r2 r3 : Word) : (s.complete r0 r1 r2 r3).ie = s.ie := rfl
@[simp] theorem State.complete_phase (r0 r1 r2 r3 : Word) : (s.complete r0 r1 r2 r3).phase = .idle := rfl
@[simp] theorem State.complete_done (r0 r1 r2 r3 : Word) : (s.complete r0 r1 r2 r3).done = true := rfl
@[simp] theorem State.complete_err (r0 r1 r2 r3 : Word) : (s.complete r0 r1 r2 r3).err = s.err := rfl
@[simp] theorem State.complete_cmdOvr (r0 r1 r2 r3 : Word) : (s.complete r0 r1 r2 r3).cmdOvr = s.cmdOvr := rfl
@[simp] theorem State.complete_accErr (r0 r1 r2 r3 : Word) : (s.complete r0 r1 r2 r3).accErr = s.accErr := rfl
@[simp] theorem State.complete_errcode (r0 r1 r2 r3 : Word) : (s.complete r0 r1 r2 r3).errcode = s.errcode := rfl
@[simp] theorem State.complete_errinfo (r0 r1 r2 r3 : Word) : (s.complete r0 r1 r2 r3).errinfo = s.errinfo := rfl
@[simp] theorem State.complete_cfgPeriod (r0 r1 r2 r3 : Word) : (s.complete r0 r1 r2 r3).cfgPeriod = s.cfgPeriod := rfl
@[simp] theorem State.complete_cfgDigits (r0 r1 r2 r3 : Word) : (s.complete r0 r1 r2 r3).cfgDigits = s.cfgDigits := rfl
@[simp] theorem State.complete_args (r0 r1 r2 r3 : Word) : (s.complete r0 r1 r2 r3).args = s.args := rfl
@[simp] theorem State.complete_results (r0 r1 r2 r3 : Word) : (s.complete r0 r1 r2 r3).results = #v[r0, r1, r2, r3] := rfl
@[simp] theorem State.complete_digest (r0 r1 r2 r3 : Word) : (s.complete r0 r1 r2 r3).digest = s.digest := rfl
@[simp] theorem State.complete_sc (r0 r1 r2 r3 : Word) : (s.complete r0 r1 r2 r3).sc = s.sc := rfl
@[simp] theorem State.complete_hc (r0 r1 r2 r3 : Word) : (s.complete r0 r1 r2 r3).hc = s.hc := rfl
@[simp] theorem State.complete_latch (r0 r1 r2 r3 : Word) : (s.complete r0 r1 r2 r3).latch = s.latch := rfl
@[simp] theorem State.complete_dbuf (r0 r1 r2 r3 : Word) : (s.complete r0 r1 r2 r3).dbuf = s.dbuf := rfl
@[simp] theorem State.complete_draws (r0 r1 r2 r3 : Word) : (s.complete r0 r1 r2 r3).draws = s.draws := rfl
@[simp] theorem State.complete_turns (r0 r1 r2 r3 : Word) : (s.complete r0 r1 r2 r3).turns = s.turns := rfl
@[simp] theorem State.complete_engineNext (r0 r1 r2 r3 : Word) : (s.complete r0 r1 r2 r3).engineNext = s.engineNext := rfl
@[simp] theorem State.complete_replies (r0 r1 r2 r3 : Word) : (s.complete r0 r1 r2 r3).replies = s.replies := rfl

/-! ## `State.raise` -/

@[simp] theorem State.raise_ie (code : ErrCode) (info : Word) : (s.raise code info).ie = s.ie := rfl
@[simp] theorem State.raise_phase (code : ErrCode) (info : Word) : (s.raise code info).phase = .idle := rfl
@[simp] theorem State.raise_done (code : ErrCode) (info : Word) : (s.raise code info).done = s.done := rfl
@[simp] theorem State.raise_err (code : ErrCode) (info : Word) : (s.raise code info).err = true := rfl
@[simp] theorem State.raise_cmdOvr (code : ErrCode) (info : Word) : (s.raise code info).cmdOvr = s.cmdOvr := rfl
@[simp] theorem State.raise_accErr (code : ErrCode) (info : Word) : (s.raise code info).accErr = s.accErr := rfl
@[simp] theorem State.raise_errcode (code : ErrCode) (info : Word) : (s.raise code info).errcode = code.byte := rfl
@[simp] theorem State.raise_errinfo (code : ErrCode) (info : Word) : (s.raise code info).errinfo = info := rfl
@[simp] theorem State.raise_cfgPeriod (code : ErrCode) (info : Word) : (s.raise code info).cfgPeriod = s.cfgPeriod := rfl
@[simp] theorem State.raise_cfgDigits (code : ErrCode) (info : Word) : (s.raise code info).cfgDigits = s.cfgDigits := rfl
@[simp] theorem State.raise_args (code : ErrCode) (info : Word) : (s.raise code info).args = s.args := rfl
@[simp] theorem State.raise_results (code : ErrCode) (info : Word) : (s.raise code info).results = s.results := rfl
@[simp] theorem State.raise_digest (code : ErrCode) (info : Word) : (s.raise code info).digest = s.digest := rfl
@[simp] theorem State.raise_sc (code : ErrCode) (info : Word) : (s.raise code info).sc = s.sc := rfl
@[simp] theorem State.raise_hc (code : ErrCode) (info : Word) : (s.raise code info).hc = s.hc := rfl
@[simp] theorem State.raise_latch (code : ErrCode) (info : Word) : (s.raise code info).latch = s.latch := rfl
@[simp] theorem State.raise_dbuf (code : ErrCode) (info : Word) : (s.raise code info).dbuf = s.dbuf := rfl
@[simp] theorem State.raise_draws (code : ErrCode) (info : Word) : (s.raise code info).draws = s.draws := rfl
@[simp] theorem State.raise_turns (code : ErrCode) (info : Word) : (s.raise code info).turns = s.turns := rfl
@[simp] theorem State.raise_engineNext (code : ErrCode) (info : Word) : (s.raise code info).engineNext = s.engineNext := rfl
@[simp] theorem State.raise_replies (code : ErrCode) (info : Word) : (s.raise code info).replies = s.replies := rfl

/-! ## `State.putBytes` -/

@[simp] theorem State.putBytes_ie (off : Nat) (bs : List Byte) : (s.putBytes off bs).ie = s.ie := rfl
@[simp] theorem State.putBytes_phase (off : Nat) (bs : List Byte) : (s.putBytes off bs).phase = s.phase := rfl
@[simp] theorem State.putBytes_done (off : Nat) (bs : List Byte) : (s.putBytes off bs).done = s.done := rfl
@[simp] theorem State.putBytes_err (off : Nat) (bs : List Byte) : (s.putBytes off bs).err = s.err := rfl
@[simp] theorem State.putBytes_cmdOvr (off : Nat) (bs : List Byte) : (s.putBytes off bs).cmdOvr = s.cmdOvr := rfl
@[simp] theorem State.putBytes_accErr (off : Nat) (bs : List Byte) : (s.putBytes off bs).accErr = s.accErr := rfl
@[simp] theorem State.putBytes_errcode (off : Nat) (bs : List Byte) : (s.putBytes off bs).errcode = s.errcode := rfl
@[simp] theorem State.putBytes_errinfo (off : Nat) (bs : List Byte) : (s.putBytes off bs).errinfo = s.errinfo := rfl
@[simp] theorem State.putBytes_cfgPeriod (off : Nat) (bs : List Byte) : (s.putBytes off bs).cfgPeriod = s.cfgPeriod := rfl
@[simp] theorem State.putBytes_cfgDigits (off : Nat) (bs : List Byte) : (s.putBytes off bs).cfgDigits = s.cfgDigits := rfl
@[simp] theorem State.putBytes_args (off : Nat) (bs : List Byte) : (s.putBytes off bs).args = s.args := rfl
@[simp] theorem State.putBytes_results (off : Nat) (bs : List Byte) : (s.putBytes off bs).results = s.results := rfl
@[simp] theorem State.putBytes_digest (off : Nat) (bs : List Byte) : (s.putBytes off bs).digest = s.digest := rfl
@[simp] theorem State.putBytes_sc (off : Nat) (bs : List Byte) : (s.putBytes off bs).sc = s.sc := rfl
@[simp] theorem State.putBytes_hc (off : Nat) (bs : List Byte) : (s.putBytes off bs).hc = s.hc := rfl
@[simp] theorem State.putBytes_latch (off : Nat) (bs : List Byte) : (s.putBytes off bs).latch = s.latch := rfl
@[simp] theorem State.putBytes_dbuf (off : Nat) (bs : List Byte) : (s.putBytes off bs).dbuf = s.dbuf.writeBytes off bs := rfl
@[simp] theorem State.putBytes_draws (off : Nat) (bs : List Byte) : (s.putBytes off bs).draws = s.draws := rfl
@[simp] theorem State.putBytes_turns (off : Nat) (bs : List Byte) : (s.putBytes off bs).turns = s.turns := rfl
@[simp] theorem State.putBytes_engineNext (off : Nat) (bs : List Byte) : (s.putBytes off bs).engineNext = s.engineNext := rfl
@[simp] theorem State.putBytes_replies (off : Nat) (bs : List Byte) : (s.putBytes off bs).replies = s.replies := rfl

/-! ## `State.putDigest` -/

@[simp] theorem State.putDigest_ie (d : List Byte) : (s.putDigest d).ie = s.ie := rfl
@[simp] theorem State.putDigest_phase (d : List Byte) : (s.putDigest d).phase = s.phase := rfl
@[simp] theorem State.putDigest_done (d : List Byte) : (s.putDigest d).done = s.done := rfl
@[simp] theorem State.putDigest_err (d : List Byte) : (s.putDigest d).err = s.err := rfl
@[simp] theorem State.putDigest_cmdOvr (d : List Byte) : (s.putDigest d).cmdOvr = s.cmdOvr := rfl
@[simp] theorem State.putDigest_accErr (d : List Byte) : (s.putDigest d).accErr = s.accErr := rfl
@[simp] theorem State.putDigest_errcode (d : List Byte) : (s.putDigest d).errcode = s.errcode := rfl
@[simp] theorem State.putDigest_errinfo (d : List Byte) : (s.putDigest d).errinfo = s.errinfo := rfl
@[simp] theorem State.putDigest_cfgPeriod (d : List Byte) : (s.putDigest d).cfgPeriod = s.cfgPeriod := rfl
@[simp] theorem State.putDigest_cfgDigits (d : List Byte) : (s.putDigest d).cfgDigits = s.cfgDigits := rfl
@[simp] theorem State.putDigest_args (d : List Byte) : (s.putDigest d).args = s.args := rfl
@[simp] theorem State.putDigest_results (d : List Byte) : (s.putDigest d).results = s.results := rfl
@[simp] theorem State.putDigest_digest (d : List Byte) : (s.putDigest d).digest = #v[be32 d 0, be32 d 4, be32 d 8, be32 d 12, be32 d 16] := rfl
@[simp] theorem State.putDigest_sc (d : List Byte) : (s.putDigest d).sc = s.sc := rfl
@[simp] theorem State.putDigest_hc (d : List Byte) : (s.putDigest d).hc = s.hc := rfl
@[simp] theorem State.putDigest_latch (d : List Byte) : (s.putDigest d).latch = s.latch := rfl
@[simp] theorem State.putDigest_dbuf (d : List Byte) : (s.putDigest d).dbuf = s.dbuf := rfl
@[simp] theorem State.putDigest_draws (d : List Byte) : (s.putDigest d).draws = s.draws := rfl
@[simp] theorem State.putDigest_turns (d : List Byte) : (s.putDigest d).turns = s.turns := rfl
@[simp] theorem State.putDigest_engineNext (d : List Byte) : (s.putDigest d).engineNext = s.engineNext := rfl
@[simp] theorem State.putDigest_replies (d : List Byte) : (s.putDigest d).replies = s.replies := rfl

/-! ## `State.reply` -/

@[simp] theorem State.reply_ie (r : Reply) : (s.reply r).ie = s.ie := rfl
@[simp] theorem State.reply_phase (r : Reply) : (s.reply r).phase = s.phase := rfl
@[simp] theorem State.reply_done (r : Reply) : (s.reply r).done = s.done := rfl
@[simp] theorem State.reply_err (r : Reply) : (s.reply r).err = s.err := rfl
@[simp] theorem State.reply_cmdOvr (r : Reply) : (s.reply r).cmdOvr = s.cmdOvr := rfl
@[simp] theorem State.reply_accErr (r : Reply) : (s.reply r).accErr = s.accErr := rfl
@[simp] theorem State.reply_errcode (r : Reply) : (s.reply r).errcode = s.errcode := rfl
@[simp] theorem State.reply_errinfo (r : Reply) : (s.reply r).errinfo = s.errinfo := rfl
@[simp] theorem State.reply_cfgPeriod (r : Reply) : (s.reply r).cfgPeriod = s.cfgPeriod := rfl
@[simp] theorem State.reply_cfgDigits (r : Reply) : (s.reply r).cfgDigits = s.cfgDigits := rfl
@[simp] theorem State.reply_args (r : Reply) : (s.reply r).args = s.args := rfl
@[simp] theorem State.reply_results (r : Reply) : (s.reply r).results = s.results := rfl
@[simp] theorem State.reply_digest (r : Reply) : (s.reply r).digest = s.digest := rfl
@[simp] theorem State.reply_sc (r : Reply) : (s.reply r).sc = s.sc := rfl
@[simp] theorem State.reply_hc (r : Reply) : (s.reply r).hc = s.hc := rfl
@[simp] theorem State.reply_latch (r : Reply) : (s.reply r).latch = s.latch := rfl
@[simp] theorem State.reply_dbuf (r : Reply) : (s.reply r).dbuf = s.dbuf := rfl
@[simp] theorem State.reply_draws (r : Reply) : (s.reply r).draws = s.draws := rfl
@[simp] theorem State.reply_turns (r : Reply) : (s.reply r).turns = s.turns := rfl
@[simp] theorem State.reply_engineNext (r : Reply) : (s.reply r).engineNext = s.engineNext := rfl
@[simp] theorem State.reply_replies (r : Reply) : (s.reply r).replies = r :: s.replies := rfl

/-! ## `State.ack` -/

@[simp] theorem State.ack_ie (v : Word) : (s.ack v).ie = s.ie := rfl
@[simp] theorem State.ack_phase (v : Word) : (s.ack v).phase = s.phase := rfl
@[simp] theorem State.ack_done (v : Word) : (s.ack v).done = (s.done && !v.getLsbD 1) := rfl
@[simp] theorem State.ack_err (v : Word) : (s.ack v).err = (s.err && !v.getLsbD 2) := rfl
@[simp] theorem State.ack_cmdOvr (v : Word) : (s.ack v).cmdOvr = (s.cmdOvr && !v.getLsbD 3) := rfl
@[simp] theorem State.ack_accErr (v : Word) : (s.ack v).accErr = (s.accErr && !v.getLsbD 4) := rfl
@[simp] theorem State.ack_errcode (v : Word) : (s.ack v).errcode = s.errcode := rfl
@[simp] theorem State.ack_errinfo (v : Word) : (s.ack v).errinfo = s.errinfo := rfl
@[simp] theorem State.ack_cfgPeriod (v : Word) : (s.ack v).cfgPeriod = s.cfgPeriod := rfl
@[simp] theorem State.ack_cfgDigits (v : Word) : (s.ack v).cfgDigits = s.cfgDigits := rfl
@[simp] theorem State.ack_args (v : Word) : (s.ack v).args = s.args := rfl
@[simp] theorem State.ack_results (v : Word) : (s.ack v).results = s.results := rfl
@[simp] theorem State.ack_digest (v : Word) : (s.ack v).digest = s.digest := rfl
@[simp] theorem State.ack_sc (v : Word) : (s.ack v).sc = s.sc := rfl
@[simp] theorem State.ack_hc (v : Word) : (s.ack v).hc = s.hc := rfl
@[simp] theorem State.ack_latch (v : Word) : (s.ack v).latch = s.latch := rfl
@[simp] theorem State.ack_dbuf (v : Word) : (s.ack v).dbuf = s.dbuf := rfl
@[simp] theorem State.ack_draws (v : Word) : (s.ack v).draws = s.draws := rfl
@[simp] theorem State.ack_turns (v : Word) : (s.ack v).turns = s.turns := rfl
@[simp] theorem State.ack_engineNext (v : Word) : (s.ack v).engineNext = s.engineNext := rfl
@[simp] theorem State.ack_replies (v : Word) : (s.ack v).replies = s.replies := rfl

/-! ## `State.softReset`, `State.powerOn` -/

@[simp] theorem State.softReset_ie : s.softReset.ie = State.reset.ie := rfl
@[simp] theorem State.softReset_phase : s.softReset.phase = State.reset.phase := rfl
@[simp] theorem State.softReset_done : s.softReset.done = State.reset.done := rfl
@[simp] theorem State.softReset_err : s.softReset.err = State.reset.err := rfl
@[simp] theorem State.softReset_cmdOvr : s.softReset.cmdOvr = State.reset.cmdOvr := rfl
@[simp] theorem State.softReset_accErr : s.softReset.accErr = State.reset.accErr := rfl
@[simp] theorem State.softReset_errcode : s.softReset.errcode = State.reset.errcode := rfl
@[simp] theorem State.softReset_errinfo : s.softReset.errinfo = State.reset.errinfo := rfl
@[simp] theorem State.softReset_cfgPeriod : s.softReset.cfgPeriod = State.reset.cfgPeriod := rfl
@[simp] theorem State.softReset_cfgDigits : s.softReset.cfgDigits = State.reset.cfgDigits := rfl
@[simp] theorem State.softReset_args : s.softReset.args = State.reset.args := rfl
@[simp] theorem State.softReset_results : s.softReset.results = State.reset.results := rfl
@[simp] theorem State.softReset_digest : s.softReset.digest = State.reset.digest := rfl
@[simp] theorem State.softReset_sc : s.softReset.sc = State.reset.sc := rfl
@[simp] theorem State.softReset_hc : s.softReset.hc = State.reset.hc := rfl
@[simp] theorem State.softReset_latch : s.softReset.latch = State.reset.latch := rfl
@[simp] theorem State.softReset_dbuf : s.softReset.dbuf = s.dbuf := rfl
@[simp] theorem State.softReset_draws : s.softReset.draws = s.draws := rfl
@[simp] theorem State.softReset_turns : s.softReset.turns = s.turns := rfl
@[simp] theorem State.softReset_engineNext : s.softReset.engineNext = s.engineNext := rfl
@[simp] theorem State.softReset_replies : s.softReset.replies = s.replies := rfl
@[simp] theorem State.powerOn_ie : s.powerOn.ie = State.reset.ie := rfl
@[simp] theorem State.powerOn_phase : s.powerOn.phase = State.reset.phase := rfl
@[simp] theorem State.powerOn_done : s.powerOn.done = State.reset.done := rfl
@[simp] theorem State.powerOn_err : s.powerOn.err = State.reset.err := rfl
@[simp] theorem State.powerOn_cmdOvr : s.powerOn.cmdOvr = State.reset.cmdOvr := rfl
@[simp] theorem State.powerOn_accErr : s.powerOn.accErr = State.reset.accErr := rfl
@[simp] theorem State.powerOn_errcode : s.powerOn.errcode = State.reset.errcode := rfl
@[simp] theorem State.powerOn_errinfo : s.powerOn.errinfo = State.reset.errinfo := rfl
@[simp] theorem State.powerOn_cfgPeriod : s.powerOn.cfgPeriod = State.reset.cfgPeriod := rfl
@[simp] theorem State.powerOn_cfgDigits : s.powerOn.cfgDigits = State.reset.cfgDigits := rfl
@[simp] theorem State.powerOn_args : s.powerOn.args = State.reset.args := rfl
@[simp] theorem State.powerOn_results : s.powerOn.results = State.reset.results := rfl
@[simp] theorem State.powerOn_digest : s.powerOn.digest = State.reset.digest := rfl
@[simp] theorem State.powerOn_sc : s.powerOn.sc = State.reset.sc := rfl
@[simp] theorem State.powerOn_hc : s.powerOn.hc = State.reset.hc := rfl
@[simp] theorem State.powerOn_latch : s.powerOn.latch = State.reset.latch := rfl
@[simp] theorem State.powerOn_dbuf : s.powerOn.dbuf = State.reset.dbuf := rfl
@[simp] theorem State.powerOn_draws : s.powerOn.draws = s.draws := rfl
@[simp] theorem State.powerOn_turns : s.powerOn.turns = s.turns := rfl
@[simp] theorem State.powerOn_engineNext : s.powerOn.engineNext = s.engineNext := rfl
@[simp] theorem State.powerOn_replies : s.powerOn.replies = s.replies := rfl

/-! ## `State.takeTime` -/

@[simp] theorem State.takeTime_ie (t : TimeSource) : (s.takeTime t).ie = s.ie := by cases t <;> rfl
@[simp] theorem State.takeTime_phase (t : TimeSource) : (s.takeTime t).phase = s.phase := by cases t <;> rfl
@[simp] theorem State.takeTime_done (t : TimeSource) : (s.takeTime t).done = s.done := by cases t <;> rfl
@[simp] theorem State.takeTime_err (t : TimeSource) : (s.takeTime t).err = s.err := by cases t <;> rfl
@[simp] theorem State.takeTime_cmdOvr (t : TimeSource) : (s.takeTime t).cmdOvr = s.cmdOvr := by cases t <;> rfl
@[simp] theorem State.takeTime_accErr (t : TimeSource) : (s.takeTime t).accErr = s.accErr := by cases t <;> rfl
@[simp] theorem State.takeTime_errcode (t : TimeSource) : (s.takeTime t).errcode = s.errcode := by cases t <;> rfl
@[simp] theorem State.takeTime_errinfo (t : TimeSource) : (s.takeTime t).errinfo = s.errinfo := by cases t <;> rfl
@[simp] theorem State.takeTime_cfgPeriod (t : TimeSource) : (s.takeTime t).cfgPeriod = s.cfgPeriod := by cases t <;> rfl
@[simp] theorem State.takeTime_cfgDigits (t : TimeSource) : (s.takeTime t).cfgDigits = s.cfgDigits := by cases t <;> rfl
@[simp] theorem State.takeTime_args (t : TimeSource) : (s.takeTime t).args = s.args := by cases t <;> rfl
@[simp] theorem State.takeTime_results (t : TimeSource) : (s.takeTime t).results = s.results := by cases t <;> rfl
@[simp] theorem State.takeTime_digest (t : TimeSource) : (s.takeTime t).digest = s.digest := by cases t <;> rfl
@[simp] theorem State.takeTime_sc (t : TimeSource) : (s.takeTime t).sc = s.sc := by cases t <;> rfl
@[simp] theorem State.takeTime_hc (t : TimeSource) : (s.takeTime t).hc = s.hc := by cases t <;> rfl
@[simp] theorem State.takeTime_latch (t : TimeSource) : (s.takeTime t).latch = s.latch := by cases t <;> rfl
@[simp] theorem State.takeTime_dbuf (t : TimeSource) : (s.takeTime t).dbuf = s.dbuf := by cases t <;> rfl
@[simp] theorem State.takeTime_turns (t : TimeSource) : (s.takeTime t).turns = s.turns := by cases t <;> rfl
@[simp] theorem State.takeTime_engineNext (t : TimeSource) : (s.takeTime t).engineNext = s.engineNext := by cases t <;> rfl
@[simp] theorem State.takeTime_replies (t : TimeSource) : (s.takeTime t).replies = s.replies := by cases t <;> rfl

@[simp] theorem State.takeTime_stamp : s.takeTime .stamp = s := rfl

@[simp] theorem State.takeTime_port_draws : (s.takeTime .port).draws = s.draws + 1 := rfl

/-! ## `State.moved` -/

@[simp] theorem State.moved_ie : s.moved.ie = s.ie := rfl
@[simp] theorem State.moved_phase : s.moved.phase = s.phase := rfl
@[simp] theorem State.moved_done : s.moved.done = s.done := rfl
@[simp] theorem State.moved_err : s.moved.err = s.err := rfl
@[simp] theorem State.moved_cmdOvr : s.moved.cmdOvr = s.cmdOvr := rfl
@[simp] theorem State.moved_accErr : s.moved.accErr = s.accErr := rfl
@[simp] theorem State.moved_errcode : s.moved.errcode = s.errcode := rfl
@[simp] theorem State.moved_errinfo : s.moved.errinfo = s.errinfo := rfl
@[simp] theorem State.moved_cfgPeriod : s.moved.cfgPeriod = s.cfgPeriod := rfl
@[simp] theorem State.moved_cfgDigits : s.moved.cfgDigits = s.cfgDigits := rfl
@[simp] theorem State.moved_args : s.moved.args = s.args := rfl
@[simp] theorem State.moved_results : s.moved.results = s.results := rfl
@[simp] theorem State.moved_digest : s.moved.digest = s.digest := rfl
@[simp] theorem State.moved_sc : s.moved.sc = s.sc := rfl
@[simp] theorem State.moved_hc : s.moved.hc = s.hc := rfl
@[simp] theorem State.moved_latch : s.moved.latch = s.latch := rfl
@[simp] theorem State.moved_dbuf : s.moved.dbuf = s.dbuf := rfl
@[simp] theorem State.moved_draws : s.moved.draws = s.draws := rfl
@[simp] theorem State.moved_replies : s.moved.replies = s.replies := rfl
@[simp] theorem State.moved_turns : s.moved.turns = s.turns + 1 := rfl
@[simp] theorem State.moved_engineNext : s.moved.engineNext = false := rfl
@[simp] theorem State.moved_irq : s.moved.irq = s.irq := rfl
@[simp] theorem State.moved_busy : s.moved.busy = s.busy := rfl
@[simp] theorem State.moved_a (k : Fin 8) : s.moved.a k = s.a k := rfl
@[simp] theorem State.moved_observation : s.moved.observation = s.observation := rfl

/-! ## `placeCommand` -/

theorem placeCommand_ie (w : Word) : (placeCommand s w).ie = (s.accept w).ie := rfl
theorem placeCommand_phase (w : Word) : (placeCommand s w).phase = (s.accept w).phase := rfl
theorem placeCommand_done (w : Word) : (placeCommand s w).done = (s.accept w).done := rfl
theorem placeCommand_err (w : Word) : (placeCommand s w).err = (s.accept w).err := rfl
theorem placeCommand_cmdOvr (w : Word) : (placeCommand s w).cmdOvr = (s.accept w).cmdOvr := rfl
theorem placeCommand_accErr (w : Word) : (placeCommand s w).accErr = (s.accept w).accErr := rfl
theorem placeCommand_errcode (w : Word) : (placeCommand s w).errcode = (s.accept w).errcode := rfl
theorem placeCommand_errinfo (w : Word) : (placeCommand s w).errinfo = (s.accept w).errinfo := rfl
theorem placeCommand_cfgPeriod (w : Word) : (placeCommand s w).cfgPeriod = (s.accept w).cfgPeriod := rfl
theorem placeCommand_cfgDigits (w : Word) : (placeCommand s w).cfgDigits = (s.accept w).cfgDigits := rfl
theorem placeCommand_args (w : Word) : (placeCommand s w).args = (s.accept w).args := rfl
theorem placeCommand_results (w : Word) : (placeCommand s w).results = (s.accept w).results := rfl
theorem placeCommand_digest (w : Word) : (placeCommand s w).digest = (s.accept w).digest := rfl
theorem placeCommand_sc (w : Word) : (placeCommand s w).sc = (s.accept w).sc := rfl
theorem placeCommand_hc (w : Word) : (placeCommand s w).hc = (s.accept w).hc := rfl
theorem placeCommand_latch (w : Word) : (placeCommand s w).latch = (s.accept w).latch := rfl
theorem placeCommand_dbuf (w : Word) : (placeCommand s w).dbuf = (s.accept w).dbuf := rfl
theorem placeCommand_draws (w : Word) : (placeCommand s w).draws = (s.accept w).draws := rfl
theorem placeCommand_turns (w : Word) : (placeCommand s w).turns = s.turns := rfl
theorem placeCommand_engineNext (w : Word) : (placeCommand s w).engineNext = true := rfl
theorem placeCommand_replies (w : Word) : (placeCommand s w).replies = (s.accept w).replies := rfl

end Sys2Proof.Machine
end

