-- ==== Sys2Proof/Laws/Memory.lean ====
section
/-! SUPPORT. DBUF as a memory: reading back what was written, leaving the rest alone, the canonical form. -/

namespace Sys2Proof.Machine

@[simp] theorem Memory.read_nil (a : Nat) : Memory.read [] a = none := rfl

@[simp] theorem Memory.read_write_self (m : Memory) (a : Nat) (b : Byte) : (m.write a b).read a = some b := by
  induction m with
  | nil => simp [Memory.write, Memory.read]
  | cons c rest ih =>
    unfold Memory.write
    split
    · simp [Memory.read]
    · split
      · simp [Memory.read]
      · rename_i h1 h2; simp [Memory.read, h2, ih]

theorem Memory.read_write_of_ne (m : Memory) {a x : Nat} (b : Byte) (h : x ≠ a) :
    (m.write a b).read x = m.read x := by
  induction m with
  | nil => simp [Memory.write, Memory.read, h]
  | cons c rest ih =>
    unfold Memory.write
    split
    · simp [Memory.read, h]
    · split
      · rename_i h1 h2; subst h2; simp [Memory.read, h]
      · simp [Memory.read, ih]

theorem Memory.read_write (m : Memory) (a x : Nat) (b : Byte) :
    (m.write a b).read x = if x = a then some b else m.read x := by
  split
  · rename_i h; subst h; simp
  · exact Memory.read_write_of_ne m b ‹_›

/-- What a write of a byte sequence leaves at every offset. -/
theorem Memory.read_writeBytes (s : List Byte) : ∀ (m : Memory) (off x : Nat),
    (m.writeBytes off s).read x = if off ≤ x ∧ x < off + s.length then s[x - off]? else m.read x := by
  induction s with
  | nil => intro m off x; rw [Memory.writeBytes, if_neg (by simp)]
  | cons b bs ih =>
    intro m off x
    rw [Memory.writeBytes, ih, Memory.read_write]
    by_cases h : x = off
    · subst h; simp
    · by_cases h2 : off + 1 ≤ x ∧ x < off + 1 + bs.length
      · have h3 : off ≤ x ∧ x < off + (b :: bs).length := by simp; omega
        obtain ⟨k, rfl⟩ : ∃ k, x = off + 1 + k := ⟨x - (off + 1), by omega⟩
        rw [if_pos h2, if_pos h3, show off + 1 + k - (off + 1) = k by omega,
          show off + 1 + k - off = k + 1 by omega]; rfl
      · have h3 : ¬(off ≤ x ∧ x < off + (b :: bs).length) := by simp; omega
        rw [if_neg h2, if_neg h3, if_neg h]

theorem Memory.read_writeBytes_outside (m : Memory) (off x : Nat) (s : List Byte)
    (h : x < off ∨ off + s.length ≤ x) : (m.writeBytes off s).read x = m.read x := by
  rw [Memory.read_writeBytes, if_neg (by omega)]

/-! ## The canonical form -/

theorem Memory.mem_write {m : Memory} {a : Nat} {b : Byte} {c : Host.Cell} (h : c ∈ m.write a b) :
    c = (a, b) ∨ c ∈ m := by
  induction m with
  | nil => simpa [Memory.write] using h
  | cons d rest ih =>
    unfold Memory.write at h
    split at h
    · simpa using h
    · split at h
      · simp at h; rcases h with h | h <;> simp [h]
      · simp at h
        rcases h with h | h
        · simp [h]
        · rcases ih h with h | h <;> simp [h]

/-- A one-byte write inside DBUF keeps the canonical form. -/
theorem Memory.wf_write {m : Memory} (h : m.wf) {a : Nat} (ha : a < Config.dbufSize) (b : Byte) :
    (m.write a b).wf := by
  refine ⟨?_, fun c hc => ?_⟩
  · obtain ⟨hp, -⟩ := h
    induction m with
    | nil => simp [Memory.write]
    | cons d rest ih =>
      rw [List.pairwise_cons] at hp
      unfold Memory.write
      split
      · rename_i h1
        refine List.pairwise_cons.2 ⟨fun x hx => ?_, List.pairwise_cons.2 hp⟩
        rcases List.mem_cons.1 hx with rfl | hx
        · exact h1
        · exact Nat.lt_trans h1 (hp.1 x hx)
      · split
        · rename_i h1 h2
          exact List.pairwise_cons.2 ⟨fun x hx => h2 ▸ hp.1 x hx, hp.2⟩
        · rename_i h1 h2
          refine List.pairwise_cons.2 ⟨fun x hx => ?_, ih hp.2⟩
          rcases Memory.mem_write hx with rfl | hx
          · simp; omega
          · exact hp.1 x hx
  · rcases Memory.mem_write hc with rfl | hc
    · exact ha
    · exact h.2 c hc

/-- A write of a byte range inside DBUF keeps the canonical form. -/
theorem Memory.wf_writeBytes (s : List Byte) : ∀ {m : Memory} {off : Nat}, m.wf →
    off + s.length ≤ Config.dbufSize → (m.writeBytes off s).wf := by
  induction s with
  | nil => exact fun h _ => h
  | cons b bs ih =>
    intro m off h ho
    simp only [List.length_cons] at ho
    exact ih (Memory.wf_write h (by omega) b) (by omega)

theorem Memory.read_eq_none_of_lt {m : Memory} {a : Nat} (h : ∀ c ∈ m, a < c.1) : m.read a = none := by
  induction m with
  | nil => rfl
  | cons c rest ih =>
    have := h c (by simp)
    rw [Memory.read, if_neg (by omega), ih fun x hx => h x (by simp [hx])]

/-- In the canonical form, memories that read alike are equal. -/
theorem Memory.ext_read : ∀ {m n : Memory}, m.wf → n.wf → (∀ a, m.read a = n.read a) → m = n
  | [], [], _, _, _ => rfl
  | [], c :: n, _, _, h => by simpa [Memory.read] using h c.1
  | c :: m, [], _, _, h => by simpa [Memory.read] using h c.1
  | (x, b) :: m, (y, d) :: n, hm, hn, h => by
    have pm := List.pairwise_cons.1 hm.1
    have pn := List.pairwise_cons.1 hn.1
    have hxy : x = y := by
      rcases Nat.lt_trichotomy x y with hlt | heq | hgt
      · have h1 := h x
        rw [Memory.read, if_pos rfl, Memory.read_eq_none_of_lt] at h1
        · cases h1
        · intro c hc
          rcases List.mem_cons.1 hc with rfl | hc
          · exact hlt
          · exact Nat.lt_trans hlt (pn.1 c hc)
      · exact heq
      · have h1 := h y
        rw [Memory.read_eq_none_of_lt, Memory.read, if_pos rfl] at h1
        · cases h1
        · intro c hc
          rcases List.mem_cons.1 hc with rfl | hc
          · exact hgt
          · exact Nat.lt_trans hgt (pm.1 c hc)
    subst hxy
    have hbd : b = d := by simpa [Memory.read] using h x
    subst hbd
    have : m = n := by
      refine Memory.ext_read ⟨pm.2, fun c hc => hm.2 c (by simp [hc])⟩ ⟨pn.2, fun c hc => hn.2 c (by simp [hc])⟩ fun a => ?_
      have h1 := h a
      by_cases ha : a = x
      · subst ha
        rw [Memory.read_eq_none_of_lt pm.1, Memory.read_eq_none_of_lt pn.1]
      · simpa [Memory.read, ha] using h1
    rw [this]

/-! ## Reading a range -/

/-- Reading n bytes answers exactly the n values that stand there. -/
theorem Memory.readBytes_ok_iff (m : Memory) (n : Nat) : ∀ (off : Nat) (bs : List Byte),
    m.readBytes off n = .ok bs ↔ bs.length = n ∧ ∀ k < n, m.read (off + k) = bs[k]? := by
  induction n with
  | zero => intro off bs; cases bs <;> simp [Memory.readBytes]
  | succ n ih =>
    intro off bs
    unfold Memory.readBytes
    cases h1 : m.read off with
    | none =>
      simp only [reduceCtorEq, false_iff, not_and]
      intro hl hk
      have := hk 0 (by omega)
      rw [Nat.add_zero, h1] at this
      simp at this; simp [this] at hl
    | some b =>
      cases h2 : m.readBytes (off + 1) n with
      | error f =>
        simp only [reduceCtorEq, false_iff, not_and]
        intro hl hk
        cases bs with
        | nil => simp at hl
        | cons c cs =>
          have : m.readBytes (off + 1) n = .ok cs := by
            refine (ih _ _).2 ⟨by simpa using hl, fun k hk' => ?_⟩
            have := hk (k + 1) (by omega)
            rw [show off + (k + 1) = off + 1 + k by omega] at this
            simpa using this
          rw [h2] at this; cases this
      | ok cs =>
        obtain ⟨hl, hk⟩ := (ih _ _).1 h2
        simp only [Except.ok.injEq]
        constructor
        · rintro rfl
          refine ⟨by simp [hl], fun k hk' => ?_⟩
          cases k with
          | zero => simpa using h1
          | succ k =>
            rw [show off + (k + 1) = off + 1 + k by omega, hk k (by omega)]; rfl
        · rintro ⟨hl', hk'⟩
          refine List.ext_getElem? fun k => ?_
          by_cases hkn : k < n + 1
          · rw [← hk' k hkn]
            cases k with
            | zero => simp [h1]
            | succ k =>
              rw [show off + (k + 1) = off + 1 + k by omega, hk k (by omega)]; rfl
          · rw [List.getElem?_eq_none (by simp; omega), List.getElem?_eq_none (by omega)]

theorem Memory.readBytes_length {m : Memory} {off n : Nat} {bs : List Byte} (h : m.readBytes off n = .ok bs) :
    bs.length = n := ((Memory.readBytes_ok_iff m n off bs).1 h).1

/-- A read of a range stops only at an UNWRITTEN byte of that range. -/
theorem Memory.readBytes_error (m : Memory) (n : Nat) : ∀ {off : Nat} {f : Fault}, m.readBytes off n = .error f →
    ∃ x, off ≤ x ∧ x < off + n ∧ m.read x = none ∧ f = .unwrittenByte x := by
  induction n with
  | zero => intro off f h; simp [Memory.readBytes] at h
  | succ n ih =>
    intro off f h
    unfold Memory.readBytes at h
    cases h1 : m.read off with
    | none => simp [h1] at h; exact ⟨off, by omega, by omega, h1, h.symm⟩
    | some b =>
      cases h2 : m.readBytes (off + 1) n with
      | error g =>
        simp [h1, h2] at h; subst h
        obtain ⟨x, hx1, hx2, hx3, rfl⟩ := ih h2
        exact ⟨x, by omega, by omega, hx3, rfl⟩
      | ok cs => simp [h1, h2] at h

end Sys2Proof.Machine
end

