-- ==== Sys2Proof/Laws/Ops.lean ====
section
/-! SUPPORT. What each shared operation of a command's rule can answer, once: checks, reads of DBUF, the end of a command. -/

namespace Sys2Proof.Machine

/-! ## Chains of checks -/

/-- A chain of checks succeeds exactly when its first part does and the rest does on what it answered. -/
theorem bind_eq_ok {α β : Type} {x : Except Abort α} {f : α → Except Abort β} {r : β} :
    (x >>= f) = .ok r ↔ ∃ a, x = .ok a ∧ f a = .ok r := by
  cases x <;> simp [bind, Except.bind]

/-- A chain of checks stops either in its first part or in the rest. -/
theorem bind_eq_error {α β : Type} {x : Except Abort α} {f : α → Except Abort β} {e : Abort} :
    (x >>= f) = .error e ↔ x = .error e ∨ ∃ a, x = .ok a ∧ f a = .error e := by
  cases x <;> simp [bind, Except.bind]

theorem map_eq_ok {α β : Type} {x : Except Abort α} {f : α → β} {r : β} :
    f <$> x = .ok r ↔ ∃ a, x = .ok a ∧ f a = r := by
  cases x <;> simp [Functor.map, Except.map]

theorem map_eq_error {α β : Type} {x : Except Abort α} {f : α → β} {e : Abort} :
    f <$> x = .error e ↔ x = .error e := by
  cases x <;> simp [Functor.map, Except.map]

theorem pure_eq_ok {α : Type} {a r : α} : (pure a : Except Abort α) = .ok r ↔ a = r := by
  simp [pure, Except.pure]

theorem pure_ne_error {α : Type} {a : α} {e : Abort} : ¬(pure a : Except Abort α) = .error e := by
  simp [pure, Except.pure]

theorem require_eq_ok {ok : Bool} {code : ErrCode} {info : Word} {u : Unit} :
    require ok code info = .ok u ↔ ok = true := by
  unfold require; cases ok <;> simp

theorem require_eq_error {ok : Bool} {code : ErrCode} {info : Word} {e : Abort} :
    require ok code info = .error e ↔ ok = false ∧ e = .error code info := by
  unfold require; cases ok <;> simp [eq_comm]

theorem needRange_eq_ok {s : State} {i : Fin 8} {n : Nat} {u : Unit} :
    needRange s i n = .ok u ↔ s.a i + n ≤ 1024 := by
  simp [needRange, require_eq_ok, rangeOK]

theorem needRange_eq_error {s : State} {i : Fin 8} {n : Nat} {e : Abort} :
    needRange s i n = .error e ↔ 1024 < s.a i + n ∧ e = .error .bufferRange (BitVec.ofNat 32 i) := by
  simp [needRange, require_eq_error, rangeOK]

theorem needDigits_eq_ok {s : State} {u : Unit} : needDigits s = .ok u ↔ 1 ≤ s.d ∧ s.d ≤ 9 := by
  simp [needDigits, require_eq_ok]

theorem needDigits_eq_error {s : State} {e : Abort} :
    needDigits s = .error e ↔ (s.d < 1 ∨ 9 < s.d) ∧ e = .error .badConfig 1 := by
  simp only [needDigits, require_eq_error, Bool.and_eq_false_iff, decide_eq_false_iff_not]
  constructor <;> rintro ⟨h, rfl⟩ <;> exact ⟨by omega, rfl⟩

theorem needPeriod_eq_ok {s : State} {u : Unit} : needPeriod s = .ok u ↔ s.p ≠ 0 := by
  simp [needPeriod, require_eq_ok]

theorem needPeriod_eq_error {s : State} {e : Abort} :
    needPeriod s = .error e ↔ s.p = 0 ∧ e = .error .badConfig 0 := by
  simp [needPeriod, require_eq_error]

theorem memRead_eq_ok {s : State} {i : Fin 8} {n : Nat} {bs : List Byte} :
    memRead s i n = .ok bs ↔ s.dbuf.readBytes (s.a i) n = .ok bs := by
  cases h : s.dbuf.readBytes (s.a i) n <;> simp [memRead, h]

theorem memRead_eq_error {s : State} {i : Fin 8} {n : Nat} {e : Abort} :
    memRead s i n = .error e ↔ ∃ f, s.dbuf.readBytes (s.a i) n = .error f ∧ e = .fault f := by
  cases h : s.dbuf.readBytes (s.a i) n <;> simp [memRead, h, eq_comm]

theorem needKeyed_eq_ok {s : State} {u : Unit} : needKeyed s = .ok u ↔ s.hc.st = .keyed := by
  unfold needKeyed
  simp only [bind_eq_ok, require_eq_ok]
  cases s.hc.st <;> simp

theorem needKeyed_eq_error {s : State} {e : Abort} : needKeyed s = .error e ↔
    (s.hc.st = .noKey ∧ e = .error .noKey 0) ∨ (s.hc.st = .finalized ∧ e = .error .contextFinalized 1) := by
  unfold needKeyed
  simp only [bind_eq_error, require_eq_ok, require_eq_error]
  cases s.hc.st <;> simp

theorem decodeText_eq_ok {t r : List Byte} : decodeText t = .ok r ↔ b32Decode t = .ok r := by
  cases h : b32Decode t <;> simp [decodeText, h]

theorem decodeText_eq_error {t : List Byte} {e : Abort} : decodeText t = .error e ↔
    ∃ i, b32Decode t = .error i ∧ e = .error .invalidBase32Character (BitVec.ofNat 32 i) := by
  cases h : b32Decode t <;> simp [decodeText, h, eq_comm]

theorem secretKey_eq_ok {t r : List Byte} : secretKey t = .ok r ↔ b32Decode t = .ok r ∧ r ≠ [] := by
  cases h : b32Decode t with
  | error i => simp [secretKey, h]
  | ok x =>
    cases x with
    | nil => simp [secretKey, h]
    | cons b bs =>
      simp only [secretKey, h, List.length_cons, Nat.succ_ne_zero, if_false, Except.ok.injEq, iff_self_and]
      rintro rfl
      simp

theorem secretKey_eq_error {t : List Byte} {e : Abort} : secretKey t = .error e ↔
    (∃ i, b32Decode t = .error i ∧ e = .error .invalidSecret (BitVec.ofNat 32 i)) ∨
      (b32Decode t = .ok [] ∧ e = .error .invalidSecret 0xFFFFFFFF) := by
  cases h : b32Decode t with
  | error i => simp [secretKey, h, eq_comm]
  | ok x => cases x <;> simp [secretKey, h, eq_comm]

/-! ## The end of a command -/

/-- A command answers a next state by completing, or by an error that leaves the state before it. -/
theorem settle_eq_next {s t : State} {r : Except Abort State} : settle s r = .next t ↔
    r = .ok t ∨ ∃ code info, r = .error (.error code info) ∧ t = s.raise code info := by
  unfold settle
  split <;> simp_all [eq_comm]

/-- A command faults exactly when a read of DBUF in its rule does. -/
theorem settle_eq_fault {s : State} {r : Except Abort State} {f : Fault} :
    settle s r = .fault f ↔ r = .error (.fault f) := by
  unfold settle
  split <;> simp_all

/-- No command is refused. -/
theorem settle_ne_refused {s : State} {r : Except Abort State} {q : Refusal} : settle s r ≠ .refused q := by
  unfold settle
  split <;> simp

theorem settle_error {s : State} {code : ErrCode} {info : Word} {r : Except Abort State}
    (h : r = .error (.error code info)) : settle s r = .next (s.raise code info) := by
  subst h; rfl

theorem settle_ok {s t : State} {r : Except Abort State} (h : r = .ok t) : settle s r = .next t := by
  subst h; rfl

/-- A command whose rule completes in a state with property P answers such a state. -/
theorem settle_exists_next {s : State} {r : Except Abort State} {P : State → Prop} (h : ∃ t, r = .ok t ∧ P t) :
    ∃ t, settle s r = .next t ∧ P t := by
  obtain ⟨t, rfl, hp⟩ := h
  exact ⟨t, rfl, hp⟩

/-! ## Error codes -/

theorem ErrCode.byte_ne_zero (c : ErrCode) : c.byte ≠ 0 := by cases c <;> decide

theorem ErrCode.byte_mem (c : ErrCode) : c.byte ∈ errcodes := by cases c <;> decide

end Sys2Proof.Machine
end

