-- ==== Sys2Proof/Laws/Algorithms.lean ====
section
/-! SUPPORT. What callers need of the algorithms: lengths, the byte orders, the hash stream, the key block. -/

namespace Sys2Proof.Machine

/-! ## Byte order -/

@[simp] theorem bytesBe_length (n v : Nat) : (bytesBe n v).length = n := by
  induction n generalizing v with
  | zero => rfl
  | succ n ih => simp [bytesBe, ih]

@[simp] theorem bytesBe32_length (w : Word) : (bytesBe32 w).length = 4 := bytesBe_length 4 _

@[simp] theorem bytesBe64_length (v : Nat) : (bytesBe64 v).length = 8 := bytesBe_length 8 v

@[simp] theorem bytesLe_length (n v : Nat) : (bytesLe n v).length = n := by
  induction n generalizing v with
  | zero => rfl
  | succ n ih => simp [bytesLe, ih]

@[simp] theorem zeros_length (n : Nat) : (zeros n).length = n := by simp [zeros]

theorem leNat_bytesLe (n v : Nat) : leNat (bytesLe n v) = v % 256 ^ n := by
  induction n generalizing v with
  | zero => simp [bytesLe, leNat, Nat.mod_one]
  | succ n ih =>
    rw [bytesLe, leNat, ih, Nat.pow_succ, Nat.mul_comm (256 ^ n) 256, Nat.mod_mul]
    simp

theorem bytesLe_getElem? (n v k : Nat) (h : k < n) :
    (bytesLe n v)[k]? = some (BitVec.ofNat 8 (v / 256 ^ k)) := by
  induction n generalizing v k with
  | zero => omega
  | succ n ih =>
    cases k with
    | zero => simp [bytesLe]
    | succ k =>
      rw [bytesLe, List.getElem?_cons_succ, ih _ _ (by omega), Nat.div_div_eq_div_mul, Nat.pow_succ, Nat.mul_comm]

/-! ## SHA-1 -/

@[simp] theorem digestBytes_length (h : HashState) : (digestBytes h).length = 20 := by
  simp [digestBytes]

@[simp] theorem sha1_length (s : List Byte) : (sha1 s).length = 20 := by simp [sha1]

/-- Compressing n + m blocks is compressing n, then m from where they end. -/
theorem compressBlocks_add (n m : Nat) (h : HashState) (buf : List Byte) :
    compressBlocks (n + m) h buf = compressBlocks m (compressBlocks n h buf) (buf.drop (64 * n)) := by
  induction n generalizing h buf with
  | zero => simp [compressBlocks]
  | succ n ih =>
    rw [show n + 1 + m = (n + m) + 1 by omega, compressBlocks, ih, compressBlocks, List.drop_drop,
      show 64 + 64 * n = 64 * (n + 1) by omega]

/-- What stands after the n whole blocks does not matter to compressing them. -/
theorem compressBlocks_append (n : Nat) (h : HashState) (buf rest : List Byte) (hn : 64 * n ≤ buf.length) :
    compressBlocks n h (buf ++ rest) = compressBlocks n h buf := by
  induction n generalizing h buf with
  | zero => rfl
  | succ n ih =>
    rw [compressBlocks, compressBlocks, List.take_append_of_le_length (by omega),
      List.drop_append_of_le_length (by omega), ih _ _ (by simp; omega)]

@[simp] theorem sha1Update_count (x : Stream) (s : List Byte) :
    (sha1Update x s).1.count = x.count + s.length := rfl

theorem sha1Update_rem_length (x : Stream) (s : List Byte) :
    (sha1Update x s).1.rem.length = (x.rem.length + s.length) % 64 := by
  simp [sha1Update]; omega

/-- An update of s ++ t is an update of s, then of t (41_sha1.md R505). -/
theorem sha1Update_append (x : Stream) (s t : List Byte) :
    (sha1Update (sha1Update x s).1 t).1 = (sha1Update x (s ++ t)).1 := by
  let buf := x.rem ++ s
  have hn : 64 * (buf.length / 64) ≤ buf.length := Nat.mul_div_le _ _
  have hsplit : (x.rem ++ (s ++ t)).length / 64
      = buf.length / 64 + (buf.drop (64 * (buf.length / 64)) ++ t).length / 64 := by
    simp only [buf, List.length_append, List.length_drop] at hn ⊢
    omega
  have hdrop : (x.rem ++ (s ++ t)).drop (64 * (buf.length / 64)) = buf.drop (64 * (buf.length / 64)) ++ t := by
    rw [← List.append_assoc, List.drop_append_of_le_length hn]
  unfold sha1Update
  simp only [Stream.mk.injEq]
  refine ⟨?_, ?_, by simp; omega⟩
  · rw [hsplit, compressBlocks_add, hdrop, ← List.append_assoc x.rem, compressBlocks_append _ _ _ _ hn]
  · rw [hsplit, Nat.mul_add, ← List.drop_drop, hdrop]

theorem sha1Update_nil_initial : (sha1Update Stream.initial []).1 = Stream.initial := rfl

/-- An update within the limit keeps a context coherent (10_state.md R122). -/
theorem Stream.Coherent.update {x : Stream} (h : x.Coherent) {s : List Byte}
    (hs : x.count + s.length ≤ Config.maxMsgBytes) : (sha1Update x s).1.Coherent := by
  refine ⟨?_, hs⟩
  rw [sha1Update_rem_length, h.1, sha1Update_count]
  omega

theorem Stream.initial_coherent : Stream.initial.Coherent := by
  simp [Stream.Coherent, Stream.initial]

/-! ## HMAC -/

/-- The key block of a non-empty key, and its size (42_hmac.md R600). -/
theorem hmacK0_eq_ok {k k0 : List Byte} : hmacK0 k = .ok k0 ↔
    k ≠ [] ∧ k0 = (if k.length > 64 then sha1 k else k) ++ zeros (64 - (if k.length > 64 then sha1 k else k).length) := by
  unfold hmacK0
  simp only [bind_eq_ok, require_eq_ok, pure_eq_ok]
  cases k <;> simp [eq_comm]

theorem hmacK0_eq_error {k : List Byte} {e : Abort} : hmacK0 k = .error e ↔ k = [] ∧ e = .error .emptyHmacKey 0 := by
  unfold hmacK0
  simp only [bind_eq_error, require_eq_error, pure_ne_error]
  cases k <;> simp

theorem hmacK0_length {k k0 : List Byte} (h : hmacK0 k = .ok k0) : k0.length = 64 := by
  obtain ⟨-, rfl⟩ := hmacK0_eq_ok.1 h
  split <;> simp; omega

theorem hmacSha1_eq_ok {k m d : List Byte} : hmacSha1 k m = .ok d ↔
    ∃ k0, hmacK0 k = .ok k0 ∧ d = hmacWithBlock k0 m := by
  unfold hmacSha1
  simp only [bind_eq_ok, pure_eq_ok, @eq_comm _ _ d]

theorem hmacSha1_eq_error {k m : List Byte} {e : Abort} : hmacSha1 k m = .error e ↔
    k = [] ∧ e = .error .emptyHmacKey 0 := by
  unfold hmacSha1
  simp only [bind_eq_error, pure_ne_error, hmacK0_eq_error, and_false, exists_false, or_false]

theorem hotp_eq_ok {key : List Byte} {c digits : Nat} {r : HotpOut} : hotp key c digits = .ok r ↔
    ∃ d, hmacSha1 key (bytesBe64 c) = .ok d ∧ r = hotpOfDigest d digits := by
  unfold hotp
  simp only [bind_eq_ok, pure_eq_ok, @eq_comm _ _ r]

theorem hotp_eq_error {key : List Byte} {c digits : Nat} {e : Abort} : hotp key c digits = .error e ↔
    key = [] ∧ e = .error .emptyHmacKey 0 := by
  unfold hotp
  simp only [bind_eq_error, pure_ne_error, hmacSha1_eq_error, and_false, exists_false, or_false]

/-! ## HOTP and Base32 texts -/

@[simp] theorem hotpRender_length (code n : Nat) : (hotpRender code n).length = n := by
  induction n generalizing code with
  | zero => rfl
  | succ n ih => simp [hotpRender, ih]

theorem b32Group_length (c : List Byte) : (b32Group c).length = 8 := by
  unfold b32Group groupSyms
  split <;> simp

theorem b32Encode_length (s : List Byte) : (b32Encode s).length = b32EncodeLen s.length := by
  induction s using b32Encode.induct with
  | case6 a b c d e rest ih =>
    simp only [b32Encode, List.length_append, b32Group_length, ih, b32EncodeLen, List.length_cons]
    omega
  | _ => simp [b32Encode, b32Group_length, b32EncodeLen]

end Sys2Proof.Machine
end

