-- ==== Sys2Proof/Laws/Commands.lean ====
section
/-! SUPPORT. Everything a command can do, once per command: if its meaning answers a next state, then it has raised one of
the errors its rule names, or its checks held and the state is the one its rule gives. -/

namespace Sys2Proof.Machine

theorem execShaInit_eq (s : State) : execShaInit s =
    .next ({ s with sc := { stream := Stream.initial, st := .init } }.complete 0 0 0 0) := rfl

theorem execB32Enc_next {s t : State} (h : execB32Enc s = .next t) :
    (∃ code info, code ∈ [ErrCode.bufferRange] ∧ t = s.raise code info) ∨
      ∃ src, s.a 0 + s.a 1 ≤ 1024 ∧
        s.a 2 + b32EncodeLen (s.a 1) ≤ 1024 ∧
        s.dbuf.readBytes (s.a 0) (s.a 1) = .ok src ∧
        t = (s.putBytes (s.a 2) (b32Encode src)).complete (BitVec.ofNat 32 (b32EncodeLen (s.a 1))) 0 0 0 := by
  rcases settle_eq_next.1 h with hk | ⟨code, info, he, rfl⟩
  · simp only [bind_eq_ok, pure_eq_ok, needRange_eq_ok, memRead_eq_ok] at hk
    obtain ⟨_, h1, _, h2, src, h3, rfl⟩ := hk
    exact .inr ⟨src, h1, h2, h3, rfl⟩
  · refine .inl ⟨code, info, ?_, rfl⟩
    simp only [bind_eq_error, pure_ne_error, needRange_eq_error, memRead_eq_error, memRead_eq_ok,
      Abort.error.injEq, reduceCtorEq] at he
    grind

theorem execB32Dec_next {s t : State} (h : execB32Dec s = .next t) :
    (∃ code info, code ∈ [ErrCode.bufferRange, ErrCode.invalidBase32Character] ∧ t = s.raise code info) ∨
      ∃ txt r, s.a 0 + s.a 1 ≤ 1024 ∧
        s.dbuf.readBytes (s.a 0) (s.a 1) = .ok txt ∧
        b32Decode txt = .ok r ∧
        s.a 2 + r.length ≤ 1024 ∧
        t = (s.putBytes (s.a 2) r).complete (BitVec.ofNat 32 r.length) 0 0 0 := by
  rcases settle_eq_next.1 h with hk | ⟨code, info, he, rfl⟩
  · simp only [bind_eq_ok, pure_eq_ok, needRange_eq_ok, memRead_eq_ok, decodeText_eq_ok] at hk
    obtain ⟨_, h1, txt, h2, r, h3, _, h4, rfl⟩ := hk
    exact .inr ⟨txt, r, h1, h2, h3, h4, rfl⟩
  · refine .inl ⟨code, info, ?_, rfl⟩
    simp only [bind_eq_error, pure_ne_error, needRange_eq_error, memRead_eq_error, decodeText_eq_error,
      memRead_eq_ok, Abort.error.injEq, reduceCtorEq] at he
    grind

theorem execShaUpdate_next {s t : State} (h : execShaUpdate s = .next t) :
    (∃ code info, code ∈ [ErrCode.contextFinalized, ErrCode.bufferRange, ErrCode.msgTooLong] ∧ t = s.raise code info) ∨
      ∃ m, s.sc.st ≠ .finalized ∧
        s.a 0 + s.a 1 ≤ 1024 ∧
        s.sc.stream.count + s.a 1 ≤ Config.maxMsgBytes ∧
        s.dbuf.readBytes (s.a 0) (s.a 1) = .ok m ∧
        t = { s with sc := { stream := (sha1Update s.sc.stream m).1, st := .updating } }.complete
          (BitVec.ofNat 32 (sha1Update s.sc.stream m).2)
          (BitVec.ofNat 32 (sha1Update s.sc.stream m).1.rem.length) 0 0 := by
  rcases settle_eq_next.1 h with hk | ⟨code, info, he, rfl⟩
  · simp only [bind_eq_ok, pure_eq_ok, needRange_eq_ok, memRead_eq_ok, require_eq_ok] at hk
    obtain ⟨_, h1, _, h2, _, h3, m, h4, rfl⟩ := hk
    exact .inr ⟨m, by simpa using h1, h2, by simpa using h3, h4, rfl⟩
  · refine .inl ⟨code, info, ?_, rfl⟩
    simp only [bind_eq_error, pure_ne_error, needRange_eq_error, memRead_eq_error, require_eq_error,
      memRead_eq_ok, Abort.error.injEq, reduceCtorEq] at he
    grind

theorem execShaFinal_next {s t : State} (h : execShaFinal s = .next t) :
    (∃ code info, code ∈ [ErrCode.contextFinalized, ErrCode.bufferRange] ∧ t = s.raise code info) ∨
      s.sc.st ≠ .finalized ∧
        s.a 0 + 20 ≤ 1024 ∧
        t = (({ s with
            sc :=
              { stream := { h := (sha1Final s.sc.stream).1, rem := [], count := s.sc.stream.count }
                st := .finalized } }.putBytes (s.a 0) (digestBytes (sha1Final s.sc.stream).1)).putDigest
            (digestBytes (sha1Final s.sc.stream).1)).complete (BitVec.ofNat 32 (sha1Final s.sc.stream).2) 0 0 0 := by
  rcases settle_eq_next.1 h with hk | ⟨code, info, he, rfl⟩
  · simp only [bind_eq_ok, pure_eq_ok, needRange_eq_ok, require_eq_ok] at hk
    obtain ⟨_, h1, _, h2, rfl⟩ := hk
    exact .inr ⟨by simpa using h1, h2, rfl⟩
  · refine .inl ⟨code, info, ?_, rfl⟩
    simp only [bind_eq_error, pure_ne_error, needRange_eq_error, require_eq_error, Abort.error.injEq] at he
    grind

theorem execShaHash_next {s t : State} (h : execShaHash s = .next t) :
    (∃ code info, code ∈ [ErrCode.bufferRange] ∧ t = s.raise code info) ∨
      ∃ m, s.a 0 + s.a 1 ≤ 1024 ∧
        s.a 2 + 20 ≤ 1024 ∧
        s.dbuf.readBytes (s.a 0) (s.a 1) = .ok m ∧
        t = ((s.putBytes (s.a 2) (sha1 m)).putDigest (sha1 m)).complete (BitVec.ofNat 32 (hashBlocks (s.a 1))) 0 0 0 := by
  rcases settle_eq_next.1 h with hk | ⟨code, info, he, rfl⟩
  · simp only [bind_eq_ok, pure_eq_ok, needRange_eq_ok, memRead_eq_ok] at hk
    obtain ⟨_, h1, _, h2, m, h3, rfl⟩ := hk
    exact .inr ⟨m, h1, h2, h3, rfl⟩
  · refine .inl ⟨code, info, ?_, rfl⟩
    simp only [bind_eq_error, pure_ne_error, needRange_eq_error, memRead_eq_error, memRead_eq_ok,
      Abort.error.injEq, reduceCtorEq] at he
    grind

theorem execHmacSetkey_next {s t : State} (h : execHmacSetkey s = .next t) :
    (∃ code info, code ∈ [ErrCode.bufferRange, ErrCode.emptyHmacKey] ∧ t = s.raise code info) ∨
      ∃ k k0, s.a 0 + s.a 1 ≤ 1024 ∧
        s.dbuf.readBytes (s.a 0) (s.a 1) = .ok k ∧
        hmacK0 k = .ok k0 ∧
        t = { s with hc := { k0 := k0, inner := innerStart k0, st := .keyed } }.complete (preHashed (s.a 1)) 0 0 0 := by
  rcases settle_eq_next.1 h with hk | ⟨code, info, he, rfl⟩
  · simp only [bind_eq_ok, pure_eq_ok, needRange_eq_ok, memRead_eq_ok, require_eq_ok] at hk
    obtain ⟨_, h1, _, _, k, h2, k0, h3, rfl⟩ := hk
    exact .inr ⟨k, k0, h1, h2, h3, rfl⟩
  · refine .inl ⟨code, info, ?_, rfl⟩
    simp only [bind_eq_error, pure_ne_error, needRange_eq_error, memRead_eq_error, require_eq_error,
      hmacK0_eq_error, memRead_eq_ok, Abort.error.injEq, reduceCtorEq] at he
    grind

theorem execHmacUpdate_next {s t : State} (h : execHmacUpdate s = .next t) :
    (∃ code info, code ∈ [ErrCode.noKey, ErrCode.contextFinalized, ErrCode.bufferRange, ErrCode.msgTooLong] ∧ t = s.raise code info) ∨
      ∃ m, s.hc.st = .keyed ∧
        s.a 0 + s.a 1 ≤ 1024 ∧
        s.hc.inner.count + s.a 1 ≤ Config.maxMsgBytes ∧
        s.dbuf.readBytes (s.a 0) (s.a 1) = .ok m ∧
        t = { s with hc := { s.hc with inner := (sha1Update s.hc.inner m).1 } }.complete
          (BitVec.ofNat 32 (sha1Update s.hc.inner m).2)
          (BitVec.ofNat 32 (sha1Update s.hc.inner m).1.rem.length) 0 0 := by
  rcases settle_eq_next.1 h with hk | ⟨code, info, he, rfl⟩
  · simp only [bind_eq_ok, pure_eq_ok, needRange_eq_ok, memRead_eq_ok, require_eq_ok, needKeyed_eq_ok] at hk
    obtain ⟨_, h1, _, h2, _, h3, m, h4, rfl⟩ := hk
    exact .inr ⟨m, h1, h2, by simpa using h3, h4, rfl⟩
  · refine .inl ⟨code, info, ?_, rfl⟩
    simp only [bind_eq_error, pure_ne_error, needRange_eq_error, memRead_eq_error, require_eq_error,
      needKeyed_eq_error, memRead_eq_ok, Abort.error.injEq, reduceCtorEq] at he
    grind

theorem execHmacFinal_next {s t : State} (h : execHmacFinal s = .next t) :
    (∃ code info, code ∈ [ErrCode.noKey, ErrCode.contextFinalized, ErrCode.bufferRange] ∧ t = s.raise code info) ∨
      s.hc.st = .keyed ∧
        s.a 0 + 20 ≤ 1024 ∧
        t = (({ s with hc := { s.hc with st := .finalized } }.putBytes (s.a 0) (hmacFinalDigest s.hc)).putDigest
            (hmacFinalDigest s.hc)).complete 0 0 0 0 := by
  rcases settle_eq_next.1 h with hk | ⟨code, info, he, rfl⟩
  · simp only [bind_eq_ok, pure_eq_ok, needRange_eq_ok, needKeyed_eq_ok] at hk
    obtain ⟨_, h1, _, h2, rfl⟩ := hk
    exact .inr ⟨h1, h2, rfl⟩
  · refine .inl ⟨code, info, ?_, rfl⟩
    simp only [bind_eq_error, pure_ne_error, needRange_eq_error, needKeyed_eq_error, Abort.error.injEq] at he
    grind

theorem execHmacMac_next {s t : State} (h : execHmacMac s = .next t) :
    (∃ code info, code ∈ [ErrCode.bufferRange, ErrCode.emptyHmacKey] ∧ t = s.raise code info) ∨
      ∃ k m d, s.a 0 + s.a 1 ≤ 1024 ∧
        s.a 2 + s.a 3 ≤ 1024 ∧
        s.a 4 + 20 ≤ 1024 ∧
        s.dbuf.readBytes (s.a 0) (s.a 1) = .ok k ∧
        s.dbuf.readBytes (s.a 2) (s.a 3) = .ok m ∧
        hmacSha1 k m = .ok d ∧
        t = ((s.putBytes (s.a 4) d).putDigest d).complete (preHashed (s.a 1)) 0 0 0 := by
  rcases settle_eq_next.1 h with hk | ⟨code, info, he, rfl⟩
  · simp only [bind_eq_ok, pure_eq_ok, needRange_eq_ok, memRead_eq_ok, require_eq_ok] at hk
    obtain ⟨_, h1, _, h2, _, h3, _, _, k, h4, m, h5, d, h6, rfl⟩ := hk
    exact .inr ⟨k, m, d, h1, h2, h3, h4, h5, h6, rfl⟩
  · refine .inl ⟨code, info, ?_, rfl⟩
    simp only [bind_eq_error, pure_ne_error, needRange_eq_error, memRead_eq_error, require_eq_error,
      hmacSha1_eq_error, memRead_eq_ok, Abort.error.injEq, reduceCtorEq] at he
    grind

theorem execHotpGen_next {s t : State} (h : execHotpGen s = .next t) :
    (∃ code info, code ∈ [ErrCode.badConfig, ErrCode.bufferRange, ErrCode.invalidSecret] ∧ t = s.raise code info) ∨
      ∃ txt key r, (1 ≤ s.d ∧ s.d ≤ 9) ∧
        s.a 0 + s.a 1 ≤ 1024 ∧
        s.a 4 + s.d ≤ 1024 ∧
        s.dbuf.readBytes (s.a 0) (s.a 1) = .ok txt ∧
        (b32Decode txt = .ok key ∧ key ≠ []) ∧
        hotp key s.a64 s.d = .ok r ∧
        t = (s.putBytes (s.a 4) r.text).complete (BitVec.ofNat 32 r.code) (BitVec.ofNat 32 r.p)
          (BitVec.ofNat 32 r.off) 0 := by
  rcases settle_eq_next.1 h with hk | ⟨code, info, he, rfl⟩
  · simp only [bind_eq_ok, pure_eq_ok, needRange_eq_ok, memRead_eq_ok, needDigits_eq_ok, secretKey_eq_ok] at hk
    obtain ⟨_, h1, _, h2, _, h3, txt, h4, key, h5, r, h6, rfl⟩ := hk
    exact .inr ⟨txt, key, r, h1, h2, h3, h4, h5, h6, rfl⟩
  · refine .inl ⟨code, info, ?_, rfl⟩
    simp only [bind_eq_error, pure_ne_error, needRange_eq_error, memRead_eq_error, needDigits_eq_error,
      secretKey_eq_error, hotp_eq_error, memRead_eq_ok, secretKey_eq_ok, Abort.error.injEq, reduceCtorEq] at he
    grind

theorem execHotpTrunc_next {s t : State} (h : execHotpTrunc s = .next t) :
    (∃ code info, code ∈ [ErrCode.badConfig, ErrCode.bufferRange] ∧ t = s.raise code info) ∨
      ∃ d, (1 ≤ s.d ∧ s.d ≤ 9) ∧
        s.a 0 + 20 ≤ 1024 ∧
        s.a 1 + s.d ≤ 1024 ∧
        s.dbuf.readBytes (s.a 0) 20 = .ok d ∧
        t = (s.putBytes (s.a 1) (hotpOfDigest d s.d).text).complete (BitVec.ofNat 32 (hotpOfDigest d s.d).code)
          (BitVec.ofNat 32 (hotpOfDigest d s.d).p) (BitVec.ofNat 32 (hotpOfDigest d s.d).off) 0 := by
  rcases settle_eq_next.1 h with hk | ⟨code, info, he, rfl⟩
  · simp only [bind_eq_ok, pure_eq_ok, needRange_eq_ok, memRead_eq_ok, needDigits_eq_ok] at hk
    obtain ⟨_, h1, _, h2, _, h3, d, h4, rfl⟩ := hk
    exact .inr ⟨d, h1, h2, h3, h4, rfl⟩
  · refine .inl ⟨code, info, ?_, rfl⟩
    simp only [bind_eq_error, pure_ne_error, needRange_eq_error, memRead_eq_error, needDigits_eq_error,
      memRead_eq_ok, Abort.error.injEq, reduceCtorEq] at he
    grind

theorem execTotpGen_next (src : TimeSource) {s t : State} (h : execTotpGen src s = .next t) :
    (∃ code info, code ∈ [ErrCode.badConfig, ErrCode.bufferRange, ErrCode.invalidSecret] ∧ t = s.raise code info) ∨
      ∃ txt key r, s.p ≠ 0 ∧
        (1 ≤ s.d ∧ s.d ≤ 9) ∧
        s.a 0 + s.a 1 ≤ 1024 ∧
        s.a 4 + s.d ≤ 1024 ∧
        s.dbuf.readBytes (s.a 0) (s.a 1) = .ok txt ∧
        (b32Decode txt = .ok key ∧ key ≠ []) ∧
        hotp key (totpCounter (totpTime s src) s.p) s.d = .ok r ∧
        t = ((s.takeTime src).putBytes (s.a 4) r.text).complete (BitVec.ofNat 32 r.code) (BitVec.ofNat 32 r.p)
          (loWord (totpCounter (totpTime s src) s.p)) (hiWord (totpCounter (totpTime s src) s.p)) := by
  rcases settle_eq_next.1 h with hk | ⟨code, info, he, rfl⟩
  · simp only [bind_eq_ok, pure_eq_ok, needRange_eq_ok, memRead_eq_ok, needDigits_eq_ok, needPeriod_eq_ok,
      secretKey_eq_ok] at hk
    obtain ⟨_, h0, _, h1, _, h2, _, h3, txt, h4, key, h5, r, h6, rfl⟩ := hk
    exact .inr ⟨txt, key, r, h0, h1, h2, h3, h4, h5, h6, rfl⟩
  · refine .inl ⟨code, info, ?_, rfl⟩
    simp only [bind_eq_error, pure_ne_error, needRange_eq_error, memRead_eq_error, needDigits_eq_error,
      needPeriod_eq_error, secretKey_eq_error, hotp_eq_error, memRead_eq_ok, secretKey_eq_ok, Abort.error.injEq,
      reduceCtorEq] at he
    grind

theorem execTotpVerify_next (src : TimeSource) {s t : State} (h : execTotpVerify src s = .next t) :
    (∃ code info, code ∈ [ErrCode.badConfig, ErrCode.bufferRange, ErrCode.invalidSecret] ∧ t = s.raise code info) ∨
      ∃ txt tok key k0, s.p ≠ 0 ∧
        (1 ≤ s.d ∧ s.d ≤ 9) ∧
        s.a 0 + s.a 1 ≤ 1024 ∧
        s.a 4 + s.a 5 ≤ 1024 ∧
        s.dbuf.readBytes (s.a 0) (s.a 1) = .ok txt ∧
        s.dbuf.readBytes (s.a 4) (s.a 5) = .ok tok ∧
        (b32Decode txt = .ok key ∧ key ≠ []) ∧
        hmacK0 key = .ok k0 ∧
        t = (s.takeTime src).complete
          (if tokenMatches k0 (totpCounter (totpTime s src) s.p) (s.a 6) s.d tok then 1 else 0) 0
          (loWord (totpCounter (totpTime s src) s.p)) (hiWord (totpCounter (totpTime s src) s.p)) := by
  rcases settle_eq_next.1 h with hk | ⟨code, info, he, rfl⟩
  · simp only [bind_eq_ok, pure_eq_ok, needRange_eq_ok, memRead_eq_ok, needDigits_eq_ok, needPeriod_eq_ok,
      secretKey_eq_ok] at hk
    obtain ⟨_, h0, _, h1, _, h2, _, h3, txt, h4, tok, h5, key, h6, k0, h7, rfl⟩ := hk
    exact .inr ⟨txt, tok, key, k0, h0, h1, h2, h3, h4, h5, h6, h7, rfl⟩
  · refine .inl ⟨code, info, ?_, rfl⟩
    simp only [bind_eq_error, pure_ne_error, needRange_eq_error, memRead_eq_error, needDigits_eq_error,
      needPeriod_eq_error, secretKey_eq_error, hmacK0_eq_error, memRead_eq_ok, secretKey_eq_ok, Abort.error.injEq,
      reduceCtorEq] at he
    grind

theorem execTotpRemsec_next (src : TimeSource) {s t : State} (h : execTotpRemsec src s = .next t) :
    (∃ code info, code ∈ [ErrCode.badConfig] ∧ t = s.raise code info) ∨
      s.p ≠ 0 ∧
        t = (s.takeTime src).complete (BitVec.ofNat 32 (totpRemaining (totpTime s src) s.p)) 0 0 0 := by
  rcases settle_eq_next.1 h with hk | ⟨code, info, he, rfl⟩
  · simp only [bind_eq_ok, pure_eq_ok, needPeriod_eq_ok] at hk
    obtain ⟨_, h1, rfl⟩ := hk
    exact .inr ⟨h1, rfl⟩
  · refine .inl ⟨code, info, ?_, rfl⟩
    simp only [bind_eq_error, pure_ne_error, needPeriod_eq_error, Abort.error.injEq] at he
    grind

theorem execTotpRempct_next (src : TimeSource) {s t : State} (h : execTotpRempct src s = .next t) :
    (∃ code info, code ∈ [ErrCode.badConfig] ∧ t = s.raise code info) ∨
      s.p ≠ 0 ∧
        t = (s.takeTime src).complete
          (loWord (remPercent (totpRemaining (totpTime s src) s.p) s.p).toNat)
          (hiWord (remPercent (totpRemaining (totpTime s src) s.p) s.p).toNat)
          (BitVec.ofNat 32 (totpRemaining (totpTime s src) s.p)) 0 := by
  rcases settle_eq_next.1 h with hk | ⟨code, info, he, rfl⟩
  · simp only [bind_eq_ok, pure_eq_ok, needPeriod_eq_ok] at hk
    obtain ⟨_, h1, rfl⟩ := hk
    exact .inr ⟨h1, rfl⟩
  · refine .inl ⟨code, info, ?_, rfl⟩
    simp only [bind_eq_error, pure_ne_error, needPeriod_eq_error, Abort.error.injEq] at he
    grind

end Sys2Proof.Machine
end

