-- ==== Sys2Proof/Laws/HostBus.lean ====
section
/-! SUPPORT. What each kind of host access answers, and where the registers stand. -/

namespace Sys2Proof.Machine

/-! ## The register map -/

/-- Past the last LEN register the map holds nothing: every comparison of `regAt` fails. -/
theorem regAt_reserved {off : Nat} (h : 0x074 ≤ off) : regAt off = .reserved := by
  unfold regAt
  iterate 15 rw [if_neg (by omega)]

theorem regAt_eq_ctrl {off : Nat} : regAt off = .ctrl ↔ off = 0x004 := by
  by_cases h : 0x074 ≤ off
  · simp [regAt_reserved h]; omega
  · have : ∀ k < 0x074, regAt k = .ctrl ↔ k = 0x004 := by decide
    exact this off (by omega)

theorem regAt_eq_cmd {off : Nat} : regAt off = .cmd ↔ off = 0x014 := by
  by_cases h : 0x074 ≤ off
  · simp [regAt_reserved h]; omega
  · have : ∀ k < 0x074, regAt k = .cmd ↔ k = 0x014 := by decide
    exact this off (by omega)

/-- Registers from 0x040 on are read-only or reserved: a write leaves them alone. -/
theorem regWrite_readOnly (s : State) {off : Nat} (v : Word) (h : 0x040 ≤ off) : s.regWrite (regAt off) v = s := by
  by_cases h1 : 0x074 ≤ off
  · rw [regAt_reserved h1]; rfl
  · have : ∀ k < 0x074, 0x040 ≤ k →
        (∃ i, regAt k = .result i) ∨ (∃ i, regAt k = .digest i) ∨ regAt k = .shaLenLo ∨ regAt k = .shaLenHi ∨
          regAt k = .hmacLenLo ∨ regAt k = .hmacLenHi ∨ regAt k = .reserved := by decide
    rcases this off (by omega) h with ⟨i, e⟩ | ⟨i, e⟩ | e | e | e | e | e <;> rw [e] <;> rfl

/-! ## Register accesses -/

theorem hostRead_reg (s : State) {off : Nat} (h : off < 0x400) (h4 : off % 4 = 0) :
    hostRead s off 4 = .next (s.reply (.data (s.regRead (regAt off)))) := by
  simp [hostRead, inRegs, regAccessOK, h, h4]

theorem hostWrite_reg (s : State) {off : Nat} (v : Word) (h : off < 0x400) (h4 : off % 4 = 0) :
    hostWrite s off 4 v = .next ((s.regWrite (regAt off) v).reply .written) := by
  simp [hostWrite, inRegs, regAccessOK, h, h4]

/-! ## Window accesses -/

theorem windowAccessOK_iff {off n : Nat} :
    windowAccessOK off n = true ↔ (n = 1 ∨ n = 2 ∨ n = 4) ∧ off % n = 0 := by
  simp [windowAccessOK, or_assoc]

theorem inRegs_window {off : Nat} (h : 0x400 ≤ off) : inRegs off = false := decide_eq_false (Nat.not_lt.2 h)

theorem hostRead_window_busy {s : State} {off n : Nat} (h : 0x400 ≤ off) (ha : windowAccessOK off n = true)
    (hp : s.phase = .pending) : hostRead s off n = .next ({ s with accErr := true }.reply (.data 0)) := by
  have hb : s.busy = true := by rw [State.busy, hp]; rfl
  rw [hostRead, inRegs_window h, ha, hb]; rfl

theorem hostWrite_window_busy {s : State} {off n : Nat} (v : Word) (h : 0x400 ≤ off)
    (ha : windowAccessOK off n = true) (hp : s.phase = .pending) :
    hostWrite s off n v = .next ({ s with accErr := true }.reply .written) := by
  have hb : s.busy = true := by rw [State.busy, hp]; rfl
  rw [hostWrite, inRegs_window h, ha, hb]; rfl

theorem hostRead_window_idle {s : State} {off n : Nat} {bs : List Byte} (h : 0x400 ≤ off)
    (ha : windowAccessOK off n = true) (hp : s.phase = .idle) (hbs : s.dbuf.readBytes (windowByte off) n = .ok bs) :
    hostRead s off n = .next (s.reply (.data (BitVec.ofNat 32 (leNat bs)))) := by
  have hb : s.busy = false := by rw [State.busy, hp]; rfl
  rw [hostRead, inRegs_window h, ha, hb, hbs]; rfl

theorem hostWrite_window_idle {s : State} {off n : Nat} (v : Word) (h : 0x400 ≤ off)
    (ha : windowAccessOK off n = true) (hp : s.phase = .idle) :
    hostWrite s off n v = .next ((s.putBytes (windowByte off) (bytesLe n v.toNat)).reply .written) := by
  have hb : s.busy = false := by rw [State.busy, hp]; rfl
  rw [hostWrite, inRegs_window h, ha, hb]; rfl

end Sys2Proof.Machine
end

