-- ==== Sys2Proof/Laws/PerInstr.lean ====
section
/-! SUPPORT. The statements made per instruction: what is true of each command as syntax. -/

namespace Sys2Proof.Laws

/-- The command word of an instruction is legal (30_encoding.md R302), decodes to it, has the operation code and the
T bit of R304 in their fields, and no reserved bit set (R300). -/
def Encoding.Statement (i : Instr) : Prop :=
  legal (encode i) = true ∧ decode (encode i) = .ok i ∧
    CmdFields.ofWord (encode i) = { op := opcode i, t := timeBit i, rsv := 0 }

theorem Encoding.b32Enc : Encoding.Statement .b32Enc := by unfold Encoding.Statement; decide
theorem Encoding.b32Dec : Encoding.Statement .b32Dec := by unfold Encoding.Statement; decide
theorem Encoding.shaInit : Encoding.Statement .shaInit := by unfold Encoding.Statement; decide
theorem Encoding.shaUpdate : Encoding.Statement .shaUpdate := by unfold Encoding.Statement; decide
theorem Encoding.shaFinal : Encoding.Statement .shaFinal := by unfold Encoding.Statement; decide
theorem Encoding.shaHash : Encoding.Statement .shaHash := by unfold Encoding.Statement; decide
theorem Encoding.hmacSetkey : Encoding.Statement .hmacSetkey := by unfold Encoding.Statement; decide
theorem Encoding.hmacUpdate : Encoding.Statement .hmacUpdate := by unfold Encoding.Statement; decide
theorem Encoding.hmacFinal : Encoding.Statement .hmacFinal := by unfold Encoding.Statement; decide
theorem Encoding.hmacMac : Encoding.Statement .hmacMac := by unfold Encoding.Statement; decide
theorem Encoding.hotpGen : Encoding.Statement .hotpGen := by unfold Encoding.Statement; decide
theorem Encoding.hotpTrunc : Encoding.Statement .hotpTrunc := by unfold Encoding.Statement; decide

theorem Encoding.totpGen (t : TimeSource) : Encoding.Statement (.totpGen t) := by
  cases t <;> (unfold Encoding.Statement; decide)

theorem Encoding.totpVerify (t : TimeSource) : Encoding.Statement (.totpVerify t) := by
  cases t <;> (unfold Encoding.Statement; decide)

theorem Encoding.totpRemsec (t : TimeSource) : Encoding.Statement (.totpRemsec t) := by
  cases t <;> (unfold Encoding.Statement; decide)

theorem Encoding.totpRempct (t : TimeSource) : Encoding.Statement (.totpRempct t) := by
  cases t <;> (unfold Encoding.Statement; decide)

end Sys2Proof.Laws
end

