-- ==== Sys2Proof/Laws/Step.lean ====
section
/-! SUPPORT. Everything one step can do: whose move it is, what a host access answers, and what the engine's turn does. -/

namespace Sys2Proof.Machine

/-! ## Whose move it is -/

theorem nextMove_engineNext {p : StepParams} {s : State} (h : s.engineNext = true) : nextMove p s = .engine := by
  simp [nextMove, h]

theorem nextMove_order {p : StepParams} {s : State} (h : p.order s.turns = .engine) : nextMove p s = .engine := by
  unfold nextMove; split <;> simp [h]

/-- With the host program at its end, only the power switch can come before the ENGINE. -/
theorem nextMove_finished {p : StepParams} {s : State} (h : p.program s.replies = .finished) :
    nextMove p s = .engine ∨ nextMove p s = .powerOn := by
  unfold nextMove
  split
  · exact .inl rfl
  · cases p.order s.turns <;> simp [h]

/-- Two programs that do the same on the answers so far make the same step, the order being the same. -/
theorem stepUnder_congr {p q : StepParams} {s : State} (hp : p.program s.replies = q.program s.replies)
    (ho : p.order s.turns = q.order s.turns) : stepUnder p s = stepUnder q s := by
  simp [stepUnder, nextMove, hp, ho]

/-- A step is a move of the host, of the engine or of the power switch. -/
theorem stepUnder_cases (p : StepParams) (s : State) :
    (∃ a, stepUnder p s = hostAccess s.moved a) ∨ stepUnder p s = engineStep s.moved ∨
      stepUnder p s = .next s.moved.powerOn := by
  unfold stepUnder
  cases nextMove p s with
  | host a => exact .inl ⟨a, rfl⟩
  | engine => exact .inr (.inl rfl)
  | powerOn => exact .inr (.inr rfl)

/-! ## The engine's turn -/

theorem engineStep_idle {s : State} (h : s.phase = .idle) : engineStep s = .next s := by
  simp [engineStep, h]

theorem engineStep_of_decode {s : State} {i : Instr} (hp : s.phase = .pending) (hd : decode s.latch.cmd = .ok i) :
    engineStep s = exec i s := by
  simp [engineStep, hp, hd]

theorem engineStep_of_illegal {s : State} {e : Illegal} (hp : s.phase = .pending)
    (hd : decode s.latch.cmd = .error e) :
    engineStep s = .next (s.raise .illegalCommand s.latch.cmd) := by
  simp [engineStep, hp, hd]

/-- The engine's turn: nothing while idle, the decoded command, or ILLEGAL_COMMAND. -/
theorem engineStep_cases (s : State) :
    (s.phase = .idle ∧ engineStep s = .next s) ∨
      (s.phase = .pending ∧ ∃ i, decode s.latch.cmd = .ok i ∧ engineStep s = exec i s) ∨
      (s.phase = .pending ∧ engineStep s = .next (s.raise .illegalCommand s.latch.cmd)) := by
  cases hp : s.phase with
  | idle => exact .inl ⟨rfl, engineStep_idle hp⟩
  | pending =>
    cases hd : decode s.latch.cmd with
    | ok i => exact .inr (.inl ⟨rfl, i, rfl, engineStep_of_decode hp hd⟩)
    | error e => exact .inr (.inr ⟨rfl, engineStep_of_illegal hp hd⟩)

/-- No command is refused: each has its meaning. -/
theorem exec_ne_refused (i : Instr) (s : State) (q : Refusal) : exec i s ≠ .refused q := by
  cases i with
  | shaInit => rw [exec, execShaInit_eq]; simp
  | _ => exact settle_ne_refused

/-! ## The host's accesses -/

/-- Everything a host read does where it answers: the answer alone, or ACC_ERR beside it for the window while busy. -/
theorem hostRead_next {s t : State} {off n : Nat} (h : hostRead s off n = .next t) :
    (∃ r, t = s.reply r) ∨ (s.busy = true ∧ 0x400 ≤ off ∧ t = { s with accErr := true }.reply (.data 0)) := by
  unfold hostRead busError at h
  grind [inRegs]

/-- Everything a host write does where it answers: nothing, ACC_ERR, a register, or bytes of the window. -/
theorem hostWrite_next {s t : State} {off n : Nat} {v : Word} (h : hostWrite s off n v = .next t) :
    (∃ r, t = s.reply r) ∨
      (s.busy = true ∧ 0x400 ≤ off ∧ t = { s with accErr := true }.reply .written) ∨
      (off < 0x400 ∧ n = 4 ∧ off % 4 = 0 ∧ t = (s.regWrite (regAt off) v).reply .written) ∨
      (s.busy = false ∧ 0x400 ≤ off ∧ windowAccessOK off n = true ∧
        t = (s.putBytes (windowByte off) (bytesLe n v.toNat)).reply .written) := by
  unfold hostWrite at h
  split at h
  · rename_i hr
    split at h
    · rename_i ha
      cases h
      simp only [inRegs, regAccessOK, decide_eq_true_eq, Bool.and_eq_true, beq_iff_eq] at hr ha
      exact .inr (.inr (.inl ⟨hr, ha.1, ha.2, rfl⟩))
    · exact .inl ⟨_, by cases h; rfl⟩
  · rename_i hr
    simp only [inRegs, decide_eq_true_eq, Nat.not_lt] at hr
    split at h
    · rename_i ha
      cases hb : s.busy <;> rw [hb] at h <;> cases h
      · exact .inr (.inr (.inr ⟨rfl, hr, ha, rfl⟩))
      · exact .inr (.inl ⟨rfl, hr, rfl⟩)
    · exact .inl ⟨_, by cases h; rfl⟩

/-- A host access faults only where an idle read of the window meets an UNWRITTEN byte. -/
theorem hostAccess_fault {s : State} {a : HostAccess} {f : Fault} (h : hostAccess s a = .fault f) :
    ∃ off n, a = .read off n ∧ s.dbuf.readBytes (windowByte off.toNat) n = .error f ∧
      windowAccessOK off.toNat n = true ∧ 0x400 ≤ off.toNat := by
  cases a with
  | read off n =>
    refine ⟨off, n, rfl, ?_⟩
    simp only [hostAccess, hostRead, busError] at h
    grind [inRegs]
  | write off n v =>
    simp only [hostAccess, hostWrite, busError] at h
    grind

end Sys2Proof.Machine
end

