-- ==== Sys2Proof/Tests/Slice0.lean ====
section
/-! SUPPORT. Tests of the decoder and of single steps, with results taken from spec/, and a witness for every statement
of Certificates/Slice0/Obligations.lean that has hypotheses. -/

namespace Sys2Proof.Tests

open Sys2Proof.Machine

-- One theorem at a time: each evaluation in the kernel takes a thread and its stack.
set_option Elab.async false

/-! ## Small states -/

/-- The ASCII bytes of a text. -/
def ascii (s : String) : List Byte := s.toList.map fun c => BitVec.ofNat 8 c.toNat

/-- A command pending with arguments a, and bytes in DBUF from off on. -/
def st (a : Vector Word 8) (off : Nat) (bytes : List Byte) (d : BitVec 4 := 6) (p : Word := 30) : State :=
  { State.reset with
    phase := .pending
    latch := { cmd := 0, args := a, period := p, digits := d }
    dbuf := Memory.writeBytes [] off bytes }

/-- No argument at all, and DBUF unwritten. -/
def st0 : State := st #v[0, 0, 0, 0, 0, 0, 0, 0] 0 []

/-- What f says of the next state, where there is one. -/
def after {α : Type} (o : Host.Outcome State Fault Refusal) (f : State → α) : Option α :=
  match o with
  | .next t => some (f t)
  | .fault _ => none
  | .refused _ => none

theorem exists_next {α : Type} {o : Host.Outcome State Fault Refusal} {f : State → α} {v : α}
    (h : after o f = some v) : ∃ t, o = .next t ∧ f t = v := by
  cases o <;> simp_all [after]

/-- The error code and its info. -/
def errorOf (t : State) : Byte × Word := (t.errcode, t.errinfo)

/-- The secret of spec/95_test_vectors.md V5. -/
def s32 : List Byte := ascii "GEZDGNBVGY3TQOJQGEZDGNBVGY3TQOJQ"

/-! ## Well-formedness refuses (30_encoding.md R302) -/

theorem test_wf_accepts : (CmdFields.mk 0x43 true 0).wf = true ∧ (CmdFields.mk 0x01 false 0).wf = true := by decide
theorem test_wf_refuses_unassigned_op : (CmdFields.mk 0x03 false 0).wf = false ∧ (CmdFields.mk 0x00 false 0).wf = false := by
  decide
theorem test_wf_refuses_reserved_bit : (CmdFields.mk 0x01 false 1).wf = false := by decide
theorem test_wf_refuses_time_flag : (CmdFields.mk 0x31 true 0).wf = false := by decide

/-! ## Words written out from the encoding of 30_encoding.md R304 -/

theorem test_word_b32Enc : decode 0b00000000000000000000000000000001 = .ok .b32Enc := by decide
theorem test_word_b32Dec : decode 0b00000000000000000000000000000010 = .ok .b32Dec := by decide
theorem test_word_shaInit : decode 0b00000000000000000000000000010000 = .ok .shaInit := by decide
theorem test_word_shaUpdate : decode 0b00000000000000000000000000010001 = .ok .shaUpdate := by decide
theorem test_word_shaFinal : decode 0b00000000000000000000000000010010 = .ok .shaFinal := by decide
theorem test_word_shaHash : decode 0b00000000000000000000000000010011 = .ok .shaHash := by decide
theorem test_word_hmacSetkey : decode 0b00000000000000000000000000100000 = .ok .hmacSetkey := by decide
theorem test_word_hmacUpdate : decode 0b00000000000000000000000000100001 = .ok .hmacUpdate := by decide
theorem test_word_hmacFinal : decode 0b00000000000000000000000000100010 = .ok .hmacFinal := by decide
theorem test_word_hmacMac : decode 0b00000000000000000000000000100011 = .ok .hmacMac := by decide
theorem test_word_hotpGen : decode 0b00000000000000000000000000110000 = .ok .hotpGen := by decide
theorem test_word_hotpTrunc : decode 0b00000000000000000000000000110001 = .ok .hotpTrunc := by decide

theorem test_word_totpGen :
    decode 0b00000000000000000000000001000000 = .ok (.totpGen .port) ∧
    decode 0b00000000000000000000000101000000 = .ok (.totpGen .stamp) := by decide

theorem test_word_totpVerify :
    decode 0b00000000000000000000000001000001 = .ok (.totpVerify .port) ∧
    decode 0b00000000000000000000000101000001 = .ok (.totpVerify .stamp) := by decide

theorem test_word_totpRemsec :
    decode 0b00000000000000000000000001000010 = .ok (.totpRemsec .port) ∧
    decode 0b00000000000000000000000101000010 = .ok (.totpRemsec .stamp) := by decide

theorem test_word_totpRempct :
    decode 0b00000000000000000000000001000011 = .ok (.totpRempct .port) ∧
    decode 0b00000000000000000000000101000011 = .ok (.totpRempct .stamp) := by decide

/-- 30_encoding.md R303: an unassigned code, a reserved bit, a T bit outside the TOTP commands. -/
theorem test_words_refused :
    decode 0x00000000 = .error .unassignedOp ∧ decode 0x00000044 = .error .unassignedOp ∧
    decode 0x00000201 = .error .reservedBits ∧ decode 0x80000040 = .error .reservedBits ∧
    decode 0x00000111 = .error .timeFlag := by decide

theorem test_decodeTableWord :
    decodeTableWord 32 0x141 = some (.totpVerify .stamp) ∧ decodeTableWord 8 0x141 = some (.totpVerify .port) ∧
    decodeTableWord 9 0x141 = some (.totpVerify .stamp) ∧ decodeTableWord 40 (2 ^ 32 + 1) = none := by decide

/-- 60_exceptions.md R903, R904: a word accepted from reset is run by the very next step; SHA_INIT sets DONE. -/
theorem test_step_runs_placed_word :
    after (step (State.reset.withFetchWord 32 0x10)) (fun t => (t.done, t.busy, t.latch.cmd)) =
      some (true, false, 0x10) := by decide

/-- 30_encoding.md R302: an illegal word completes with ILLEGAL_COMMAND and the word as info. -/
theorem test_step_illegal_word :
    after (step (State.reset.withFetchWord 32 0x111)) errorOf = some (0x10, 0x111) := by decide

/-! ## Base32 -/

/-- 40_base32.md R420, the example. -/
theorem test_b32Enc_foobar :
    after (exec .b32Enc (st #v[0, 6, 0x100, 0, 0, 0, 0, 0] 0 (ascii "foobar")))
      (fun t => (t.results, t.dbuf.readBytes 0x100 16)) =
      some (#v[16, 0, 0, 0], .ok (ascii "MZXW6YTBOI======")) := by decide +kernel

/-- 40_base32.md R420, the corner: n = 641 with the destination at 0 fails with info 2. -/
theorem test_b32Enc_range :
    after (exec .b32Enc (st #v[0, 641, 0, 0, 0, 0, 0, 0] 0 [])) errorOf = some (0x11, 2) := by decide +kernel

/-- 40_base32.md R421, the example. -/
theorem test_b32Dec_foobar :
    after (exec .b32Dec (st #v[0, 14, 0x40, 0, 0, 0, 0, 0] 0 (ascii "mzxw6ytboi======")))
      (fun t => (t.results, t.dbuf.readBytes 0x40 6)) = some (#v[6, 0, 0, 0], .ok (ascii "foobar")) := by
  decide +kernel

/-- 40_base32.md R421, the example of a bad character. -/
theorem test_b32Dec_bad_character :
    after (exec .b32Dec (st #v[0, 8, 0x40, 0, 0, 0, 0, 0] 0 (ascii "AAAA0!!!"))) errorOf = some (0x01, 4) := by
  decide +kernel

/-! ## SHA-1 -/

/-- 41_sha1.md R520: SHA_INIT in FINALIZED. -/
theorem test_shaInit :
    after (exec .shaInit { st0 with sc := { stream := { h := iv, rem := [], count := 3 }, st := .finalized } })
      (fun t => (t.sc.st, t.shaLen, t.results)) = some (.init, 0, #v[0, 0, 0, 0]) := by decide +kernel

/-- 41_sha1.md R521, the example. -/
theorem test_shaUpdate_abc :
    after (exec .shaUpdate (st #v[0, 3, 0, 0, 0, 0, 0, 0] 0 (ascii "abc")))
      (fun t => (t.results, t.shaLen, t.sc.st)) = some (#v[0, 3, 0, 0], 3, .updating) := by decide +kernel

/-- 41_sha1.md R521: an update that fills REM to 64 bytes compresses at once. -/
theorem test_shaUpdate_full_block :
    after (exec .shaUpdate (st #v[0, 64, 0, 0, 0, 0, 0, 0] 0 (zeros 64))) (·.results) = some #v[1, 0, 0, 0] := by
  decide +kernel

/-- 41_sha1.md R522, the example. -/
theorem test_shaFinal_abc :
    after (exec .shaFinal { st #v[0x40, 0, 0, 0, 0, 0, 0, 0] 0 [] with
        sc := { stream := { h := iv, rem := ascii "abc", count := 3 }, st := .updating } })
      (fun t => (t.results[0], t.digest[0], t.dbuf.readBytes 0x50 4, t.sc.st, t.shaLen)) =
      some (1, 0xA9993E36, .ok [0x9c, 0xd0, 0xd8, 0x9d], .finalized, 3) := by decide +kernel

/-- 41_sha1.md R522: a second SHA_FINAL is rejected. -/
theorem test_shaFinal_twice :
    after (exec .shaFinal { st0 with sc := { stream := Stream.initial, st := .finalized } }) errorOf =
      some (0x12, 0) := by decide +kernel

/-- 41_sha1.md R523, the example. -/
theorem test_shaHash_abc :
    after (exec .shaHash (st #v[0, 3, 0x40, 0, 0, 0, 0, 0] 0 (ascii "abc"))) (fun t => (t.results[0], t.digest)) =
      some (1, #v[0xA9993E36, 0x4706816A, 0xBA3E2571, 0x7850C26C, 0x9CD0D89D]) := by decide +kernel

/-- 95_test_vectors.md V1. -/
theorem test_shaHash_empty :
    after (exec .shaHash st0) (·.digest) =
      some #v[0xDA39A3EE, 0x5E6B4B0D, 0x3255BFEF, 0x95601890, 0xAFD80709] := by decide +kernel

/-! ## HMAC -/

/-- 42_hmac.md R620, the example. -/
theorem test_hmacSetkey_jefe :
    after (exec .hmacSetkey (st #v[0, 4, 0, 0, 0, 0, 0, 0] 0 (ascii "Jefe")))
      (fun t => (t.results[0], t.hc.st, t.hmacLen, t.hc.inner.rem, t.hc.k0.take 5)) =
      some (0, .keyed, 0, [], [0x4a, 0x65, 0x66, 0x65, 0x00]) := by decide +kernel

/-- 42_hmac.md R620: a key of 65 bytes is pre-hashed. -/
theorem test_hmacSetkey_long :
    after (exec .hmacSetkey (st #v[0, 65, 0, 0, 0, 0, 0, 0] 0 (zeros 65))) (·.results[0]) = some 1 := by
  decide +kernel

/-- HC after HMAC_SETKEY "Jefe". -/
def jefe : HmacCtx :=
  { k0 := ascii "Jefe" ++ zeros 60, inner := innerStart (ascii "Jefe" ++ zeros 60), st := .keyed }

/-- 42_hmac.md R621, the example. -/
theorem test_hmacUpdate_jefe :
    after (exec .hmacUpdate { st #v[0x10, 28, 0, 0, 0, 0, 0, 0] 0x10 (ascii "what do ya want for nothing?") with hc := jefe })
      (fun t => (t.results, t.hmacLen)) = some (#v[0, 28, 0, 0], 28) := by decide +kernel

/-- 42_hmac.md R621: no key loaded. -/
theorem test_hmacUpdate_noKey : after (exec .hmacUpdate st0) errorOf = some (0x13, 0) := by decide +kernel

/-- 42_hmac.md R622, the example. -/
theorem test_hmacFinal_jefe :
    after (exec .hmacFinal { st0 with
        hc := { jefe with inner := (sha1Update jefe.inner (ascii "what do ya want for nothing?")).1 } })
      (fun t => (t.digest, t.hc.st, t.dbuf.readBytes 0 4)) =
      some (#v[0xEFFCDF6A, 0xE5EB2FA2, 0xD27416D5, 0xF184DF9C, 0x259A7C79], .finalized,
        .ok [0xef, 0xfc, 0xdf, 0x6a]) := by decide +kernel

/-- 42_hmac.md R622: a second HMAC_FINAL is rejected, with info 1. -/
theorem test_hmacFinal_twice :
    after (exec .hmacFinal { st0 with hc := { jefe with st := .finalized } }) errorOf = some (0x12, 1) := by
  decide +kernel

/-- 42_hmac.md R623, the example. -/
theorem test_hmacMac_hi_there :
    after (exec .hmacMac (st #v[0, 20, 0x20, 8, 0x40, 0, 0, 0] 0 (List.replicate 20 0x0B ++ zeros 12 ++ ascii "Hi There")))
      (fun t => (t.results[0], t.digest)) =
      some (0, #v[0xB6173186, 0x55057264, 0xE28BC0B6, 0xFB378C8E, 0xF146BE00]) := by decide +kernel

/-! ## HOTP -/

/-- 43_hotp.md R720, the example. -/
theorem test_hotpGen_counter1 :
    after (exec .hotpGen (st #v[0, 32, 1, 0, 0x40, 0, 0, 0] 0 s32)) (fun t => (t.results, t.dbuf.readBytes 0x40 6)) =
      some (#v[287082, 0x41397EEA, 11, 0], .ok (ascii "287082")) := by decide +kernel

/-- 43_hotp.md R704, R720: a secret of '=' only. -/
theorem test_hotpGen_no_key :
    after (exec .hotpGen (st #v[0, 2, 0, 0, 0x40, 0, 0, 0] 0 (ascii "=="))) errorOf = some (0x02, 0xFFFFFFFF) := by
  decide +kernel

/-- 43_hotp.md R721, the example. -/
theorem test_hotpTrunc_rfc :
    after (exec .hotpTrunc (st #v[0, 0x20, 0, 0, 0, 0, 0, 0] 0
        [0x1f, 0x86, 0x98, 0x69, 0x0e, 0x02, 0xca, 0x16, 0x61, 0x85, 0x50, 0xef, 0x7f, 0x19, 0xda, 0x8e, 0x94, 0x5b,
          0x55, 0x5a])) (fun t => (t.results, t.dbuf.readBytes 0x20 6)) =
      some (#v[872921, 0x50EF7F19, 10, 0], .ok (ascii "872921")) := by decide +kernel

/-- 43_hotp.md R721, the corner: 20 bytes 0xFF, nine digits. -/
theorem test_hotpTrunc_all_ones :
    after (exec .hotpTrunc (st #v[0, 0x20, 0, 0, 0, 0, 0, 0] 0 (List.replicate 20 0xFF) 9)) (·.results) =
      some #v[147483647, 0x7FFFFFFF, 15, 0] := by decide +kernel

/-! ## TOTP -/

/-- 44_totp.md R820, the example with 8 digits. -/
theorem test_totpGen_rfc :
    after (exec (.totpGen .stamp) (st #v[0, 32, 59000, 0, 0x40, 0, 0, 0] 0 s32 8))
      (fun t => (t.dbuf.readBytes 0x40 8, t.results[2], t.draws)) = some (.ok (ascii "94287082"), 1, 0) := by
  decide +kernel

/-- 44_totp.md R821, the example: the code of counter 2 at counter 3 and window 1. -/
theorem test_totpVerify_window :
    after (exec (.totpVerify .stamp) (st #v[0, 32, 119000, 0, 0x20, 6, 1, 0] 0 (s32 ++ ascii "359152"))) (·.results) =
      some #v[1, 0, 3, 0] := by decide +kernel

/-- 44_totp.md R821, the example: the same token at counter 4 fails. -/
theorem test_totpVerify_outside :
    after (exec (.totpVerify .stamp) (st #v[0, 32, 149000, 0, 0x20, 6, 1, 0] 0 (s32 ++ ascii "359152"))) (·.results) =
      some #v[0, 0, 4, 0] := by decide +kernel

/-- 44_totp.md R822, the example. -/
theorem test_totpRemsec :
    after (exec (.totpRemsec .stamp) (st #v[0, 0, 59000, 0, 0, 0, 0, 0] 0 [])) (·.results[0]) = some 1 ∧
    after (exec (.totpRemsec .stamp) (st #v[0, 0, 60000, 0, 0, 0, 0, 0] 0 [])) (·.results[0]) = some 30 := by
  decide +kernel

/-- 44_totp.md R822: with the time port, one answer is used. -/
theorem test_totpRemsec_port :
    after (exec (.totpRemsec .port) (st #v[0, 0, 0, 0, 0, 0, 0, 0] 0 [] 6 1)) (·.draws) = some 1 := by rfl

/-- 44_totp.md R823, the example. -/
theorem test_totpRempct :
    after (exec (.totpRempct .stamp) (st #v[0, 0, 1000, 0, 0, 0, 0, 0] 0 [])) (·.results) =
      some #v[0xAAAAAAAB, 0x40582AAA, 29, 0] := by decide +kernel

/-- 44_totp.md R804, R823: the smallest percentage, and P = 3 at time 2. -/
theorem test_totpRempct_corners :
    remPercent 1 4294967295 = 0x3E59000000190000 ∧ remPercent 1 3 = 0x4040AAAAAAAAAAAA := by decide +kernel

/-! ## The host interface -/

/-- 20_memory.md R204: "abcd" at 0 reads as 0x64636261, and the byte at 1 as bits 15..8. -/
theorem test_window_lanes :
    after (hostAccess { State.reset with dbuf := Memory.writeBytes [] 0 (ascii "abcd") } (.read 0x400 4)) (·.replies) =
      some [.data 0x64636261] ∧
    after (hostAccess { State.reset with dbuf := Memory.writeBytes [] 0 (ascii "abcd") } (.read 0x401 1)) (·.replies) =
      some [.data 0x62] := by decide +kernel

/-- 10_state.md R141: a host read of a byte never written is the model fault. -/
theorem test_window_unwritten : ∃ f, hostAccess State.reset (.read 0x404 4) = .fault f ∧ f = .unwrittenByte 4 :=
  ⟨_, rfl, rfl⟩

/-- 10_state.md R102, 70_reset_and_hazards.md R1002: SRST beats IE in the same write. -/
theorem test_soft_reset_clears_ie :
    after (hostAccess { st0 with ie := true, cmdOvr := true } (.write 0x004 4 3)) (fun t => (t.ie, t.busy, t.cmdOvr)) =
      some (false, false, false) := by decide +kernel

/-! ## Witnesses: encoding and steps -/

theorem witness_IllegalWordRaisesIllegalCommand :
    st0.phase = .pending ∧ legal st0.latch.cmd = false ∧ legal 0x00000201 = false ∧ legal 0x00000131 = false := by
  decide

/-- A host program and an order: it writes SHA_INIT to CMD, awaits the interrupt, and reads STATUS until BUSY is 0
(30_encoding.md R332); the host steps at even counts, the engine at odd ones, with a power-on at step 9. -/
def pollSha : StepParams where
  program
    | [] => .access (.write 0x014 4 0x10)
    | [_] => .awaitIrq (.read 0x008 4)
    | .data v :: _ => if v.getLsbD 0 then .access (.read 0x008 4) else .finished
    | _ => .finished
  order n := if n = 9 then .power else if n % 2 = 0 then .host else .engine

/-- s with the last access of `pollSha` made. -/
def runEnd (s : State) : State := { s with replies := [.data 2, .written], turns := 2 }

theorem witness_StepRunsTheDecodedCommand :
    (placeCommand State.reset 0x143).phase = .pending ∧
    decode (placeCommand State.reset 0x143).latch.cmd = .ok (.totpRempct .stamp) ∧
    nextMove Config.stepParams (placeCommand State.reset 0x143) = .engine ∧
    nextMove pollSha { State.reset.accept 0x10 with turns := 1 } = .engine := ⟨rfl, rfl, rfl, rfl⟩

theorem witness_StepTakesTheNextMove :
    (placeCommand State.reset 0x143).engineNext = true ∧ State.reset.engineNext = false ∧
    pollSha.order 0 = .host ∧ pollSha.order 1 = .engine ∧ pollSha.order 9 = .power ∧
    pollSha.program State.reset.replies = .access (.write 0x014 4 0x10) ∧
    pollSha.program [.written] = .awaitIrq (.read 0x008 4) ∧
    pollSha.program [.data 2, .written] = .finished ∧
    ({ State.reset with ie := true, done := true } : State).irq = true ∧ State.reset.irq = false ∧
    State.reset.phase = .idle := by decide

/-- 00_scope.md R9, 30_encoding.md R332: a host program reacts to what it reads: it makes its next access or not by the
answer to the last. -/
theorem test_program_reacts :
    pollSha.program [.data 3, .written] = .access (.read 0x008 4) ∧
    after (stepUnder pollSha { State.reset with replies := [.data 3, .written] }) (·.replies) =
      some [.data 0, .data 3, .written] := by decide +kernel

/-- 70_reset_and_hazards.md R1035: a pending command, and an access still to make, keep a run open. -/
theorem test_run_end :
    ({ State.reset with replies := [.data 2, .written] } : State).ended pollSha.program = true ∧
    ({ st0 with replies := [.data 2, .written] } : State).ended pollSha.program = false ∧
    State.reset.ended pollSha.program = false := by decide

/-- 70_reset_and_hazards.md R1035, 10_state.md R100: the observation holds ID first, and 29 registers. -/
theorem test_observation :
    State.reset.observation.1.head? = some 0x4F545031 ∧ State.reset.observation.1.length = 29 := by decide

theorem witness_RunEndsWhenTheHostIsDoneAndNothingIsPending :
    pollSha.program (runEnd (State.reset.accept 0x10)).replies = .finished ∧
    nextMove pollSha (runEnd (State.reset.accept 0x10)) = .engine ∧
    (∃ t, stepUnder pollSha (runEnd (State.reset.accept 0x10)) = .next t) ∧
    (runEnd State.reset).ended pollSha.program = true ∧ nextMove pollSha (runEnd State.reset) = .engine ∧
    pollSha.Fair ∧ st0.phase = .pending :=
  ⟨rfl, rfl, ⟨_, rfl⟩, rfl, rfl, fun n => ⟨2 * n + 11, by omega, by simp [pollSha]⟩, rfl⟩

/-- 10_state.md R112, R122, 41_sha1.md R522 (log 8): after SHA_FINAL of 3 bytes, no context has the empty REM of R522,
the COUNT of R112 and the length of R122 together. -/
theorem test_no_context_after_final_meets_R122 (x : Stream) (h522 : x.rem = []) (h112 : x.count = 3) :
    x.rem.length ≠ x.count % 64 := by simp [h522, h112]

/-! ## Witnesses: the host interface -/

theorem witness_CmdWriteAcceptsTheCommand : State.reset.phase = .idle := rfl
theorem witness_CmdWriteWhileBusyOnlySetsCmdOvr : st0.phase = .pending := rfl

theorem witness_BusyBlocksTheWindow :
    st0.phase = .pending ∧ 0x400 ≤ (0x400 : BitVec 11).toNat ∧ (0x7FF : BitVec 11).toNat % 1 = 0 ∧
    (0x7FE : BitVec 11).toNat % 2 = 0 ∧ (0x7FC : BitVec 11).toNat % 4 = 0 := by decide

theorem witness_SoftResetRestoresAllButDbuf : (3 : Word).getLsbD 0 = true := by decide

theorem witness_ReadOnlyRegistersIgnoreWrites :
    (0x000 : BitVec 11).toNat % 4 = 0 ∧ (0x00C : BitVec 11).toNat % 4 = 0 ∧ (0x010 : BitVec 11).toNat % 4 = 0 ∧
    0x040 ≤ (0x040 : BitVec 11).toNat ∧ (0x3FC : BitVec 11).toNat < 0x400 ∧ 0x074 ≤ (0x074 : BitVec 11).toNat := by
  decide

theorem witness_BadAccessesGetABusError :
    ((0x3FF : BitVec 11).toNat < 0x400 ∧ (0x3FF : BitVec 11).toNat % 4 ≠ 0) ∧
    ((0x000 : BitVec 11).toNat < 0x400 ∧ 1 ≠ 4) ∧
    (0x400 ≤ (0x401 : BitVec 11).toNat ∧ (0x401 : BitVec 11).toNat % 2 ≠ 0) ∧
    (0x400 ≤ (0x7FE : BitVec 11).toNat ∧ (0x7FE : BitVec 11).toNat % 4 ≠ 0) ∧
    State.reset.phase = .idle ∧ st0.phase = .pending := by decide

theorem witness_RegisterReadsAnswerTheMap : State.reset.hc.st = .noKey ∧ jefe.st ≠ .noKey := by decide +kernel

theorem witness_ReadsChangeNothing :
    (∃ t, hostAccess State.reset (.read 0x7FF 2) = .next t) ∧ State.reset.phase = .idle ∧
    (∃ t, hostAccess st0 (.read 0x3FC 4) = .next t) ∧ (0x3FC : BitVec 11).toNat < 0x400 :=
  ⟨⟨_, rfl⟩, rfl, ⟨_, rfl⟩, by decide⟩

theorem witness_WindowLanesAreLittleEndian :
    State.reset.phase = .idle ∧ 0x400 ≤ (0x400 : BitVec 11).toNat ∧ (0x7FF : BitVec 11).toNat % 1 = 0 ∧
    (0x7FE : BitVec 11).toNat % 2 = 0 ∧ (0x7FC : BitVec 11).toNat % 4 = 0 := by decide

theorem witness_WindowReadAnswersTheBytes :
    { State.reset with dbuf := [(1020, 1), (1021, 2), (1022, 3), (1023, 4)] }.phase = .idle ∧
    (0x7FC : BitVec 11).toNat % 4 = 0 ∧
    ∀ k < 4, Memory.read [(1020, 1), (1021, 2), (1022, 3), (1023, 4)] ((0x7FC : BitVec 11).toNat - 0x400 + k) =
      some (BitVec.ofNat 8 (k + 1)) := by decide

theorem witness_WritableRegistersHoldWhatIsWritten : (2 : Word).getLsbD 0 = false := by decide

theorem witness_HostCannotTouchThePendingCommand :
    st0.phase = .pending ∧ (∀ v, HostAccess.write 0x004 4 2 = .write 0x004 4 v → v.getLsbD 0 = false) ∧
    ∃ t, hostAccess st0 (.write 0x004 4 2) = .next t :=
  ⟨rfl, by rintro v h; cases h; decide, ⟨_, rfl⟩⟩

theorem witness_InterruptOutputIsALevel : (6 : Word).getLsbD 1 = true ∧ (6 : Word).getLsbD 2 = true := by decide

/-! ## Witnesses: the rules of the commands -/

/-- Operands at the edges: range 0 one past the end, then range 2; all in range, read and unread. -/
theorem witness_B32EncFollowsItsRule :
    1024 < (st #v[1023, 2, 0, 0, 0, 0, 0, 0] 0 []).a 0 + (st #v[1023, 2, 0, 0, 0, 0, 0, 0] 0 []).a 1 ∧
    (let s := st #v[1023, 1, 1017, 0, 0, 0, 0, 0] 1023 [7];
      s.a 0 + s.a 1 ≤ 1024 ∧ 1024 < s.a 2 + 8 * ((s.a 1 + 4) / 5)) ∧
    (let s := st #v[1023, 1, 1016, 0, 0, 0, 0, 0] 1023 [7];
      s.a 0 + s.a 1 ≤ 1024 ∧ s.a 2 + 8 * ((s.a 1 + 4) / 5) ≤ 1024 ∧ s.dbuf.readBytes (s.a 0) (s.a 1) = .ok [7]) ∧
    (let s := st #v[1023, 1, 1016, 0, 0, 0, 0, 0] 0 [];
      s.dbuf.readBytes (s.a 0) (s.a 1) = .error (.unwrittenByte 1023)) := by decide +kernel

theorem witness_B32DecFollowsItsRule :
    (let s := st #v[1024, 1, 0, 0, 0, 0, 0, 0] 0 [];
      1024 < s.a 0 + s.a 1) ∧
    (let s := st #v[1022, 2, 1023, 0, 0, 0, 0, 0] 1022 (ascii "MY");
      s.a 0 + s.a 1 ≤ 1024 ∧ s.dbuf.readBytes (s.a 0) (s.a 1) = .ok (ascii "MY") ∧
        b32Decode (ascii "MY") = .ok [0x66] ∧ s.a 2 + 1 ≤ 1024) ∧
    (let s := st #v[1022, 2, 1024, 0, 0, 0, 0, 0] 1022 (ascii "MY");
      1024 < s.a 2 + 1) ∧
    b32Decode (ascii "M1") = .error 1 ∧
    (let s := st #v[1022, 2, 1024, 0, 0, 0, 0, 0] 0 [];
      s.dbuf.readBytes (s.a 0) (s.a 1) = .error (.unwrittenByte 1022)) := by decide +kernel

/-- A stream one byte short of the limit of 41_sha1.md R509. -/
def nearLimit : Stream := { h := iv, rem := zeros 62, count := 2 ^ 61 - 2 }

theorem witness_ShaUpdateFollowsItsRule :
    ({ stream := Stream.initial, st := .finalized } : ShaCtx).st = .finalized ∧ st0.sc.st ≠ .finalized ∧
    (let s := st #v[1023, 2, 0, 0, 0, 0, 0, 0] 0 [];
      1024 < s.a 0 + s.a 1) ∧
    (let s := { st #v[1022, 2, 0, 0, 0, 0, 0, 0] 0 [] with sc := { stream := nearLimit, st := .updating } };
      s.sc.st ≠ .finalized ∧ s.a 0 + s.a 1 ≤ 1024 ∧ 2 ^ 61 - 1 < s.sc.stream.count + s.a 1) ∧
    (let s := { st #v[1023, 1, 0, 0, 0, 0, 0, 0] 1023 [7] with sc := { stream := nearLimit, st := .updating } };
      s.a 0 + s.a 1 ≤ 1024 ∧ s.sc.stream.count + s.a 1 ≤ 2 ^ 61 - 1 ∧ s.dbuf.readBytes (s.a 0) (s.a 1) = .ok [7]) ∧
    (let s := st #v[1023, 1, 0, 0, 0, 0, 0, 0] 0 [];
      s.dbuf.readBytes (s.a 0) (s.a 1) = .error (.unwrittenByte 1023)) := by decide +kernel

theorem witness_ShaFinalFollowsItsRule :
    (∃ h nf, sha1Final st0.sc.stream = (h, nf)) ∧
    ({ stream := Stream.initial, st := .finalized } : ShaCtx).st = .finalized ∧ st0.sc.st ≠ .finalized ∧
    1024 < (st #v[1005, 0, 0, 0, 0, 0, 0, 0] 0 []).a 0 + 20 ∧ (st #v[1004, 0, 0, 0, 0, 0, 0, 0] 0 []).a 0 + 20 ≤ 1024 :=
  ⟨⟨_, _, rfl⟩, by decide, by decide, by decide, by decide⟩

theorem witness_ShaHashFollowsItsRule :
    (let s := st #v[0, 1025, 0, 0, 0, 0, 0, 0] 0 [];
      1024 < s.a 0 + s.a 1) ∧
    (let s := st #v[0, 1024, 1005, 0, 0, 0, 0, 0] 0 [];
      s.a 0 + s.a 1 ≤ 1024 ∧ 1024 < s.a 2 + 20) ∧
    (let s := st #v[1023, 1, 1004, 0, 0, 0, 0, 0] 1023 [7];
      s.a 0 + s.a 1 ≤ 1024 ∧ s.a 2 + 20 ≤ 1024 ∧ s.dbuf.readBytes (s.a 0) (s.a 1) = .ok [7]) ∧
    (let s := st #v[1023, 1, 1004, 0, 0, 0, 0, 0] 0 [];
      s.dbuf.readBytes (s.a 0) (s.a 1) = .error (.unwrittenByte 1023)) := by decide +kernel

theorem witness_HmacSetkeyFollowsItsRule :
    (let s := st #v[1025, 0, 0, 0, 0, 0, 0, 0] 0 [];
      1024 < s.a 0 + s.a 1) ∧
    (let s := st #v[1024, 0, 0, 0, 0, 0, 0, 0] 0 [];
      s.a 0 + s.a 1 ≤ 1024 ∧ s.a 1 = 0) ∧
    (let s := st #v[1023, 1, 0, 0, 0, 0, 0, 0] 1023 [7];
      s.a 0 + s.a 1 ≤ 1024 ∧ s.a 1 ≠ 0 ∧ s.dbuf.readBytes (s.a 0) (s.a 1) = .ok [7]) ∧
    (let s := st #v[1023, 1, 0, 0, 0, 0, 0, 0] 0 [];
      s.dbuf.readBytes (s.a 0) (s.a 1) = .error (.unwrittenByte 1023)) := by decide +kernel

theorem witness_HmacUpdateFollowsItsRule :
    st0.hc.st = .noKey ∧ { jefe with st := .finalized }.st = .finalized ∧ jefe.st = .keyed ∧
    (let s := { st #v[1, 1024, 0, 0, 0, 0, 0, 0] 0 [] with hc := jefe };
      1024 < s.a 0 + s.a 1) ∧
    (let s := { st #v[1022, 2, 0, 0, 0, 0, 0, 0] 0 [] with hc := { jefe with inner := nearLimit } };
      s.hc.st = .keyed ∧ s.a 0 + s.a 1 ≤ 1024 ∧ 2 ^ 61 - 1 < s.hc.inner.count + s.a 1) ∧
    (let s := { st #v[1023, 1, 0, 0, 0, 0, 0, 0] 1023 [7] with hc := { jefe with inner := nearLimit } };
      s.hc.st = .keyed ∧ s.a 0 + s.a 1 ≤ 1024 ∧ s.hc.inner.count + s.a 1 ≤ 2 ^ 61 - 1 ∧
        s.dbuf.readBytes (s.a 0) (s.a 1) = .ok [7]) ∧
    (let s := { st #v[1023, 1, 0, 0, 0, 0, 0, 0] 0 [] with hc := jefe };
      s.dbuf.readBytes (s.a 0) (s.a 1) = .error (.unwrittenByte 1023)) := by decide +kernel

theorem witness_HmacFinalFollowsItsRule :
    (∃ d, d = sha1 (opadBlock jefe.k0 ++ digestBytes (sha1Final jefe.inner).1)) ∧ st0.hc.st = .noKey ∧
    { jefe with st := .finalized }.st = .finalized ∧ jefe.st = .keyed ∧
    1024 < (st #v[1005, 0, 0, 0, 0, 0, 0, 0] 0 []).a 0 + 20 ∧ (st #v[1004, 0, 0, 0, 0, 0, 0, 0] 0 []).a 0 + 20 ≤ 1024 :=
  ⟨⟨_, rfl⟩, rfl, rfl, rfl, by decide, by decide⟩

theorem witness_HmacMacFollowsItsRule :
    (let s := st #v[1024, 1, 0, 0, 0, 0, 0, 0] 0 [];
      1024 < s.a 0 + s.a 1) ∧
    (let s := st #v[1023, 1, 1024, 1, 0, 0, 0, 0] 0 [];
      s.a 0 + s.a 1 ≤ 1024 ∧ 1024 < s.a 2 + s.a 3) ∧
    (let s := st #v[1023, 1, 1023, 1, 1005, 0, 0, 0] 0 [];
      s.a 2 + s.a 3 ≤ 1024 ∧ 1024 < s.a 4 + 20) ∧
    (let s := st #v[1024, 0, 1024, 0, 1004, 0, 0, 0] 0 [];
      s.a 0 + s.a 1 ≤ 1024 ∧ s.a 2 + s.a 3 ≤ 1024 ∧ s.a 4 + 20 ≤ 1024 ∧ s.a 1 = 0) ∧
    (let s := st #v[1022, 1, 1023, 1, 1004, 0, 0, 0] 1022 [7, 8];
      s.a 1 ≠ 0 ∧ s.a 0 + s.a 1 ≤ 1024 ∧ s.a 2 + s.a 3 ≤ 1024 ∧ s.a 4 + 20 ≤ 1024 ∧
        s.dbuf.readBytes (s.a 0) (s.a 1) = .ok [7] ∧ s.dbuf.readBytes (s.a 2) (s.a 3) = .ok [8]) ∧
    (let s := st #v[1022, 1, 1023, 1, 1004, 0, 0, 0] 1022 [7];
      s.dbuf.readBytes (s.a 0) (s.a 1) = .ok [7] ∧
        s.dbuf.readBytes (s.a 2) (s.a 3) = .error (.unwrittenByte 1023)) ∧
    (let s := st #v[1022, 1, 1023, 1, 1004, 0, 0, 0] 0 [];
      s.dbuf.readBytes (s.a 0) (s.a 1) = .error (.unwrittenByte 1022)) := by decide +kernel

/-- Secret texts: of one byte, with a bad character, of no key; the last two bytes of DBUF, read and unread. -/
theorem secret_texts :
    b32Decode (ascii "MY") = .ok [0x66] ∧ b32Decode (ascii "M1") = .error 1 ∧ b32Decode (ascii "==") = .ok [] ∧
    Memory.readBytes (Memory.writeBytes [] 1022 (ascii "MY")) 1022 2 = .ok (ascii "MY") ∧
    Memory.readBytes (Memory.writeBytes [] 1022 (ascii "M1")) 1022 2 = .ok (ascii "M1") ∧
    Memory.readBytes (Memory.writeBytes [] 1022 (ascii "==")) 1022 2 = .ok (ascii "==") ∧
    Memory.readBytes [] 1022 2 = .error (.unwrittenByte 1022) := by decide +kernel

theorem witness_HotpGenFollowsItsRule :
    (st #v[0, 0, 0, 0, 0, 0, 0, 0] 0 [] 0).d < 1 ∧ 9 < (st #v[0, 0, 0, 0, 0, 0, 0, 0] 0 [] 10).d ∧
    (let s := st #v[1023, 2, 0, 0, 0, 0, 0, 0] 0 [] 1;
      1 ≤ s.d ∧ s.d ≤ 9 ∧ 1024 < s.a 0 + s.a 1) ∧
    (let s := st #v[1022, 2, 0, 0, 1016, 0, 0, 0] 0 [] 9;
      1 ≤ s.d ∧ s.d ≤ 9 ∧ s.a 0 + s.a 1 ≤ 1024 ∧ 1024 < s.a 4 + s.d) ∧
    (let s := st #v[1022, 2, 0, 0, 1015, 0, 0, 0] 1022 (ascii "MY") 9;
      1 ≤ s.d ∧ s.d ≤ 9 ∧ s.a 0 + s.a 1 ≤ 1024 ∧ s.a 4 + s.d ≤ 1024 ∧
        s.dbuf.readBytes (s.a 0) (s.a 1) = .ok (ascii "MY")) ∧
    b32Decode (ascii "M1") = .error 1 ∧ b32Decode (ascii "==") = .ok [] ∧ b32Decode (ascii "MY") = .ok [0x66] ∧
    Memory.readBytes [] 1022 2 = .error (.unwrittenByte 1022) := by decide +kernel

theorem witness_HotpTruncFollowsItsRule :
    (st #v[0, 0, 0, 0, 0, 0, 0, 0] 0 [] 0).d < 1 ∧ 9 < (st #v[0, 0, 0, 0, 0, 0, 0, 0] 0 [] 10).d ∧
    (let s := st #v[1005, 0, 0, 0, 0, 0, 0, 0] 0 [] 1;
      1 ≤ s.d ∧ s.d ≤ 9 ∧ 1024 < s.a 0 + 20) ∧
    (let s := st #v[1004, 1016, 0, 0, 0, 0, 0, 0] 0 [] 9;
      1 ≤ s.d ∧ s.d ≤ 9 ∧ s.a 0 + 20 ≤ 1024 ∧ 1024 < s.a 1 + s.d) ∧
    (let s := st #v[1004, 1015, 0, 0, 0, 0, 0, 0] 1004 (zeros 20) 9;
      1 ≤ s.d ∧ s.d ≤ 9 ∧ s.a 0 + 20 ≤ 1024 ∧ s.a 1 + s.d ≤ 1024 ∧
        s.dbuf.readBytes (s.a 0) 20 = .ok (zeros 20)) ∧
    (let s := st #v[1004, 1015, 0, 0, 0, 0, 0, 0] 0 [] 9;
      s.dbuf.readBytes (s.a 0) 20 = .error (.unwrittenByte 1004)) := by decide +kernel

theorem witness_TotpGenFollowsItsRule :
    (∃ c, c = totpTime st0 .port / st0.p) ∧ (st #v[0, 0, 0, 0, 0, 0, 0, 0] 0 [] 6 0).p = 0 ∧
    (let s := st #v[0, 0, 0, 0, 0, 0, 0, 0] 0 [] 0;
      s.p ≠ 0 ∧ s.d < 1) ∧
    (let s := st #v[0, 0, 0, 0, 0, 0, 0, 0] 0 [] 10;
      s.p ≠ 0 ∧ 9 < s.d) ∧
    (let s := st #v[1023, 2, 0, 0, 0, 0, 0, 0] 0 [] 1;
      s.p ≠ 0 ∧ 1 ≤ s.d ∧ s.d ≤ 9 ∧ 1024 < s.a 0 + s.a 1) ∧
    (let s := st #v[1022, 2, 0, 0, 1016, 0, 0, 0] 0 [] 9;
      s.p ≠ 0 ∧ 1 ≤ s.d ∧ s.d ≤ 9 ∧ s.a 0 + s.a 1 ≤ 1024 ∧ 1024 < s.a 4 + s.d) ∧
    (let s := st #v[1022, 2, 0, 0, 1015, 0, 0, 0] 1022 (ascii "MY") 9;
      s.p ≠ 0 ∧ 1 ≤ s.d ∧ s.d ≤ 9 ∧ s.a 0 + s.a 1 ≤ 1024 ∧ s.a 4 + s.d ≤ 1024 ∧
        s.dbuf.readBytes (s.a 0) (s.a 1) = .ok (ascii "MY")) ∧
    b32Decode (ascii "M1") = .error 1 ∧ b32Decode (ascii "==") = .ok [] ∧ b32Decode (ascii "MY") = .ok [0x66] ∧
    Memory.readBytes [] 1022 2 = .error (.unwrittenByte 1022) := ⟨⟨_, rfl⟩, by decide +kernel⟩

/-- With W = 0 at counter 1: the token "287082" matches, "287083" does not. -/
theorem verify_tokens :
    tokenMatches (ascii "12345678901234567890" ++ zeros 44) 1 0 6 (ascii "287082") = true ∧
    tokenMatches (ascii "12345678901234567890" ++ zeros 44) 1 0 6 (ascii "287083") = false := by decide +kernel

/-- The last two clauses: a counter in the window with the token's code, and none, whatever the window. -/
theorem witness_TotpVerify_match_and_mismatch :
    (∃ x d, x ≤ 2 ^ 64 - 1 ∧ 1 ≤ x + 0 ∧ x ≤ 1 + 0 ∧
      hmacSha1 (ascii "12345678901234567890") (bytesBe64 x) = .ok d ∧
        hotpRender (truncValue d % 10 ^ 6) 6 = ascii "287082") ∧
    ¬∃ x d, x ≤ 2 ^ 64 - 1 ∧ 1 ≤ x + 0 ∧ x ≤ 1 + 0 ∧
      hmacSha1 (ascii "12345678901234567890") (bytesBe64 x) = .ok d ∧
        hotpRender (truncValue d % 10 ^ 6) 6 = ascii "28708" := by
  refine ⟨⟨1, hmacWithBlock (ascii "12345678901234567890" ++ zeros 44) (bytesBe64 1), by decide +kernel⟩, ?_⟩
  rintro ⟨x, d, -, -, -, -, h⟩
  have h6 := congrArg List.length h
  rw [hotpRender_length] at h6
  exact absurd h6 (by decide +kernel)

theorem witness_TotpVerifyFollowsItsRule :
    (∃ c, c = totpTime st0 .port / st0.p) ∧ (st #v[0, 0, 0, 0, 0, 0, 0, 0] 0 [] 6 0).p = 0 ∧
    (let s := st #v[0, 0, 0, 0, 0, 0, 0, 0] 0 [] 0;
      s.p ≠ 0 ∧ s.d < 1) ∧
    (let s := st #v[0, 0, 0, 0, 0, 0, 0, 0] 0 [] 10;
      s.p ≠ 0 ∧ 9 < s.d) ∧
    (let s := st #v[1023, 2, 0, 0, 0, 0, 0, 0] 0 [] 1;
      s.p ≠ 0 ∧ 1 ≤ s.d ∧ s.d ≤ 9 ∧ 1024 < s.a 0 + s.a 1) ∧
    (let s := st #v[1022, 2, 0, 0, 1023, 2, 0, 0] 0 [] 9;
      s.p ≠ 0 ∧ 1 ≤ s.d ∧ s.d ≤ 9 ∧ s.a 0 + s.a 1 ≤ 1024 ∧ 1024 < s.a 4 + s.a 5) ∧
    (let s := st #v[1022, 2, 0, 0, 1021, 3, 0, 0] 1021 (ascii "7MY") 9;
      s.p ≠ 0 ∧ 1 ≤ s.d ∧ s.d ≤ 9 ∧ s.a 0 + s.a 1 ≤ 1024 ∧ s.a 4 + s.a 5 ≤ 1024 ∧
        s.dbuf.readBytes (s.a 0) (s.a 1) = .ok (ascii "MY") ∧ s.dbuf.readBytes (s.a 4) (s.a 5) = .ok (ascii "7MY")) ∧
    Memory.readBytes (Memory.writeBytes [] 1022 (ascii "MY")) 1021 3 = .error (.unwrittenByte 1021) ∧
    b32Decode (ascii "M1") = .error 1 ∧ b32Decode (ascii "==") = .ok [] ∧ b32Decode (ascii "MY") = .ok [0x66] ∧
    Memory.readBytes [] 1022 2 = .error (.unwrittenByte 1022) := ⟨⟨_, rfl⟩, by decide +kernel⟩

theorem witness_TotpRemsecFollowsItsRule :
    (st #v[0, 0, 0, 0, 0, 0, 0, 0] 0 [] 6 0).p = 0 ∧ (st #v[0, 0, 0, 0, 0, 0, 0, 0] 0 [] 6 1).p ≠ 0 := by decide

theorem witness_TotpRempctFollowsItsRule :
    (∃ rem, rem = st0.p - totpTime st0 .port % st0.p ∧ ∃ bits, bits = ((round64 rem st0.p).mulNat 100).bits) ∧
    (st #v[0, 0, 0, 0, 0, 0, 0, 0] 0 [] 6 0).p = 0 ∧ st0.p ≠ 0 :=
  ⟨⟨_, rfl, _, rfl⟩, by decide, by decide⟩

/-! ## Witnesses: frames and invariants -/

theorem witness_CommandsKeepTheHostsRegisters : ∃ t, exec .shaInit st0 = .next t := ⟨_, rfl⟩

/-- Both ends of a command: DONE, and an error alone. -/
theorem witness_CommandEndsInDoneOrInAnErrorAlone :
    after (exec .b32Enc st0) (·.done) = some true ∧ after (exec .hmacSetkey st0) (·.err) = some true := by
  decide +kernel

theorem witness_OnlyTheStreamingCommandsChangeTheContexts :
    ∃ t, exec .b32Enc st0 = .next t ∧ t.done = true ∧ Instr.b32Enc ≠ .shaInit ∧ Instr.b32Enc ≠ .hmacSetkey := by
  obtain ⟨t, h1, h2⟩ := exists_next witness_CommandEndsInDoneOrInAnErrorAlone.1
  exact ⟨t, h1, h2, by decide, by decide⟩

theorem witness_OnlyTheHashCommandsWriteDigest :
    (∃ t, exec .shaUpdate st0 = .next t) ∧ Instr.shaUpdate ≠ .shaFinal ∧ Instr.shaUpdate ≠ .shaHash ∧
    Instr.shaUpdate ≠ .hmacFinal ∧ Instr.shaUpdate ≠ .hmacMac :=
  ⟨⟨_, rfl⟩, by decide, by decide, by decide, by decide⟩

/-- Just below and just above the 20 bytes of a digest, and a command that stores nothing. -/
theorem witness_CommandsStoreOnlyInTheirOutputRange :
    (∃ t, exec .shaHash (st #v[0, 0, 0x40, 0, 0, 0, 0, 0] 0 []) = .next t) ∧
    Outside (storeRange .shaHash (st #v[0, 0, 0x40, 0, 0, 0, 0, 0] 0 [])) 0x3F ∧
    Outside (storeRange .shaHash (st #v[0, 0, 0x40, 0, 0, 0, 0, 0] 0 [])) 0x54 ∧
    Outside (storeRange .shaInit st0) 0 :=
  ⟨⟨_, rfl⟩, .inl (by decide), .inr (by decide), trivial⟩

/-- One command for each error code, on states whose ERRCODE is 0. -/
theorem witness_ErrorsAreRaisedOnlyByTheirCommands :
    after (exec .b32Dec (st #v[0, 1, 0, 0, 0, 0, 0, 0] 0 (ascii "!"))) (·.errcode) = some 0x01 ∧
    after (exec .hotpGen (st #v[0, 1, 0, 0, 0, 0, 0, 0] 0 (ascii "!"))) (·.errcode) = some 0x02 ∧
    after (exec .hmacMac st0) (·.errcode) = some 0x03 ∧
    after (exec .shaFinal (st #v[1005, 0, 0, 0, 0, 0, 0, 0] 0 [])) (·.errcode) = some 0x11 ∧
    after (exec .shaFinal { st0 with sc := { stream := Stream.initial, st := .finalized } }) (·.errcode) = some 0x12 ∧
    after (exec .hmacFinal st0) (·.errcode) = some 0x13 ∧
    after (exec .hotpTrunc (st #v[0, 0, 0, 0, 0, 0, 0, 0] 0 [] 0)) (·.errcode) = some 0x14 ∧
    after (exec .shaUpdate { st #v[0, 2, 0, 0, 0, 0, 0, 0] 0 [] with sc := { stream := nearLimit, st := .updating } })
      (·.errcode) = some 0x15 ∧ st0.errcode = 0 := by decide +kernel

/-- A state that is not the reset state: interrupts on, a byte written, SHA finalized, a key loaded, an error shown. -/
def busyState : State :=
  { State.reset with
    ie := true, err := true, errcode := 0x11, errinfo := 4, dbuf := [(1023, 7)], engineNext := true
    sc := { stream := { h := iv, rem := [], count := 5 }, st := .finalized }
    hc := { k0 := zeros 64, inner := { h := iv, rem := [], count := 64 }, st := .keyed } }

theorem witness_EveryStepKeepsTheInvariant :
    busyState.Inv ∧ (∃ t, step busyState = .next t) ∧ ∃ t, stepUnder pollSha { busyState with engineNext := false } = .next t := by
  refine ⟨⟨⟨by decide, by decide⟩, ⟨rfl, by decide⟩, ⟨rfl, fun _ => rfl, ⟨rfl, by decide⟩, fun _ => by decide⟩, ?_⟩, ⟨_, rfl⟩, ⟨_, rfl⟩⟩
  unfold State.FlagsInv
  decide

/-! ## Witnesses: the algorithms -/

theorem witness_Base32Lengths :
    b32Decode (ascii "MZXW6===") = .ok (ascii "foo") ∧
    (ascii "MZXW6===").countP (fun c => (symVal c).isSome) = 5 := by decide +kernel

theorem witness_ShaContextTracksItsMessage :
    State.reset.sc.Absorbed [] ∧
    (let s := st #v[1023, 1, 0, 0, 0, 0, 0, 0] 1023 [7];
      s.a 0 + s.a 1 ≤ 1024 ∧ ([] : List Byte).length + s.a 1 ≤ 2 ^ 61 - 1 ∧
        s.dbuf.readBytes (s.a 0) (s.a 1) = .ok [7]) ∧
    (st #v[1004, 0, 0, 0, 0, 0, 0, 0] 0 []).a 0 + 20 ≤ 1024 :=
  ⟨⟨by decide, rfl⟩, by decide +kernel, by decide⟩

theorem witness_HmacContextTracksItsMessage :
    (let s := st #v[1023, 1, 0, 0, 0, 0, 0, 0] 1023 [7];
      s.a 0 + s.a 1 ≤ 1024 ∧ s.a 1 ≠ 0 ∧ 64 + ([] : List Byte).length + s.a 1 ≤ 2 ^ 61 - 1 ∧
        s.dbuf.readBytes (s.a 0) (s.a 1) = .ok [7]) ∧
    hmacK0 (ascii "Jefe") = .ok jefe.k0 ∧ jefe.Absorbed jefe.k0 [] ∧
    (st #v[1004, 0, 0, 0, 0, 0, 0, 0] 0 []).a 0 + 20 ≤ 1024 :=
  ⟨by decide +kernel, by decide +kernel, ⟨rfl, rfl, by simp [jefe, innerStart]⟩, by decide⟩

theorem witness_DigestSizeAndBlockCount :
    (Stream.mk iv (zeros 55) 55).rem.length ≤ 63 ∧ (Stream.mk iv (zeros 56) 56).rem.length ≤ 63 ∧
    (Stream.mk iv (zeros 63) 63).rem.length ≤ 63 := by decide

theorem witness_CandidatesAreTheWindow : 0 ≤ 2 ^ 64 - 1 ∧ 2 ^ 64 - 1 ≤ 2 ^ 64 - 1 := by decide

theorem witness_RemainingTimeLiesInThePeriod :
    st0.p ≠ 0 ∧ (1 ≤ 1 ∧ 1 ≤ 2 ^ 32 - 1 ∧ 2 ^ 32 - 1 < 2 ^ 32) ∧ (1 ≤ 2 ^ 32 - 1 ∧ 2 ^ 32 - 1 ≤ 2 ^ 32 - 1) := by decide

/-- A tie: 2^53 + 1 lies halfway between 2^53 and 2^53 + 2. -/
theorem witness_Round64IsNearestTiesToEven :
    round64 (2 ^ 53 + 1) 1 = { sig := 2 ^ 52, exp := 1 } ∧ { sig := 2 ^ 52 + 1, exp := 1 } ≠ round64 (2 ^ 53 + 1) 1 ∧
    2 ^ 52 ≤ 2 ^ 52 + 1 ∧ 2 ^ 52 + 1 < 2 ^ 53 := by decide +kernel

end Sys2Proof.Tests
end

section
/-! PROOFS. The family of 00_scope.md: whose move a step is (O7), and the end of a run (O60). -/

namespace Sys2Proof.Machine

/-! ## Whose move it is, by what the order offers -/

theorem stepUnder_engine {p : StepParams} {s : State} (h : nextMove p s = .engine) :
    stepUnder p s = engineStep s.moved := by
  rw [stepUnder, h, runMove]

theorem nextMove_power {p : StepParams} {s : State} (he : s.engineNext = false) (ho : p.order s.turns = .power) :
    nextMove p s = .powerOn := by
  simp [nextMove, he, ho]

/-- Where the order offers the HOST a step, its program says whether there is one. -/
theorem nextMove_host {p : StepParams} {s : State} (he : s.engineNext = false) (ho : p.order s.turns = .host) :
    (∀ a, p.program s.replies = .access a → nextMove p s = .host a) ∧
      (∀ a, p.program s.replies = .awaitIrq a → nextMove p s = if s.irq then .host a else .engine) ∧
      (p.program s.replies = .finished → nextMove p s = .engine) := by
  refine ⟨fun a h => ?_, fun a h => ?_, fun h => ?_⟩ <;> simp [nextMove, he, ho, h]

/-- Power-on keeps the model's own fields alone; the step has cleared `engineNext`. -/
theorem powerOn_moved (s : State) :
    s.moved.powerOn = { State.reset with draws := s.draws, turns := s.turns + 1, replies := s.replies } := rfl

/-- Settles O7: `nextMove` is the offered agent's move, and a step runs it. -/
theorem stepTakesTheNextMove : Obligations.StepTakesTheNextMove := by
  unfold Obligations.StepTakesTheNextMove
  intro p s
  refine ⟨fun he => stepUnder_engine (nextMove_engineNext he), fun he => ⟨fun ho => ?_, fun ho => ?_, fun ho => ?_⟩,
    rfl, engineStep_idle, rfl⟩
  · exact stepUnder_engine (nextMove_order ho)
  · rw [stepUnder, nextMove_power he ho, runMove, powerOn_moved]
  · obtain ⟨haccess, hawait, hfinished⟩ := nextMove_host he ho
    refine ⟨fun a h => ?_, fun a h => ?_, fun h => stepUnder_engine (hfinished h)⟩
    · rw [stepUnder, haccess a h, runMove]
    · rw [stepUnder, hawait a h]
      cases s.irq <;> rfl

/-! ## How a command ends -/

/-- u is s but for what a command may write before it completes: SC, HC, DBUF, DIGEST and the model's draws. -/
def State.CommandWrites (s u : State) : Prop :=
  u = { s with sc := u.sc, hc := u.hc, dbuf := u.dbuf, digest := u.digest, draws := u.draws }

/-- t ends the command pending in s: an error that leaves the rest of s alone, or the command's writes and completion. -/
inductive State.CommandEnd (s : State) : State → Prop where
  | raise (code : ErrCode) (info : Word) : s.CommandEnd (s.raise code info)
  | complete {u : State} (r0 r1 r2 r3 : Word) (h : s.CommandWrites u) : s.CommandEnd (u.complete r0 r1 r2 r3)

theorem State.CommandWrites.refl (s : State) : s.CommandWrites s := rfl

theorem State.CommandWrites.sc (s : State) (c : ShaCtx) : s.CommandWrites { s with sc := c } := rfl

theorem State.CommandWrites.hc (s : State) (c : HmacCtx) : s.CommandWrites { s with hc := c } := rfl

theorem State.CommandWrites.takeTime (s : State) (src : TimeSource) : s.CommandWrites (s.takeTime src) := by
  cases src <;> rfl

theorem State.CommandWrites.putBytes {s u : State} (h : s.CommandWrites u) (off : Nat) (bs : List Byte) :
    s.CommandWrites (u.putBytes off bs) := by
  unfold State.CommandWrites at h
  rw [h]
  rfl

theorem State.CommandWrites.putDigest {s u : State} (h : s.CommandWrites u) (d : List Byte) :
    s.CommandWrites (u.putDigest d) := by
  unfold State.CommandWrites at h
  rw [h]
  rfl

theorem State.CommandWrites.replies {s u : State} (h : s.CommandWrites u) : u.replies = s.replies := by
  simpa using congrArg State.replies h

theorem State.CommandWrites.turns {s u : State} (h : s.CommandWrites u) : u.turns = s.turns := by
  simpa using congrArg State.turns h

/-- Everything a command leaves alone, over all 16 commands: it answers a next state only by ending. -/
theorem exec_next {i : Instr} {s t : State} (h : exec i s = .next t) : s.CommandEnd t := by
  cases i with
  | shaInit =>
    rw [exec, execShaInit_eq] at h
    cases h
    exact .complete _ _ _ _ (.sc _ _)
  | b32Enc =>
    obtain ⟨_, _, -, rfl⟩ | ⟨_, -, -, -, rfl⟩ := execB32Enc_next h
    exacts [.raise _ _, .complete _ _ _ _ (.putBytes (.refl s) _ _)]
  | b32Dec =>
    obtain ⟨_, _, -, rfl⟩ | ⟨_, _, -, -, -, -, rfl⟩ := execB32Dec_next h
    exacts [.raise _ _, .complete _ _ _ _ (.putBytes (.refl s) _ _)]
  | shaUpdate =>
    obtain ⟨_, _, -, rfl⟩ | ⟨_, -, -, -, -, rfl⟩ := execShaUpdate_next h
    exacts [.raise _ _, .complete _ _ _ _ (.sc _ _)]
  | shaFinal =>
    obtain ⟨_, _, -, rfl⟩ | ⟨-, -, rfl⟩ := execShaFinal_next h
    exacts [.raise _ _, .complete _ _ _ _ (.putDigest (.putBytes (.sc _ _) _ _) _)]
  | shaHash =>
    obtain ⟨_, _, -, rfl⟩ | ⟨_, -, -, -, rfl⟩ := execShaHash_next h
    exacts [.raise _ _, .complete _ _ _ _ (.putDigest (.putBytes (.refl s) _ _) _)]
  | hmacSetkey =>
    obtain ⟨_, _, -, rfl⟩ | ⟨_, _, -, -, -, rfl⟩ := execHmacSetkey_next h
    exacts [.raise _ _, .complete _ _ _ _ (.hc _ _)]
  | hmacUpdate =>
    obtain ⟨_, _, -, rfl⟩ | ⟨_, -, -, -, -, rfl⟩ := execHmacUpdate_next h
    exacts [.raise _ _, .complete _ _ _ _ (.hc _ _)]
  | hmacFinal =>
    obtain ⟨_, _, -, rfl⟩ | ⟨-, -, rfl⟩ := execHmacFinal_next h
    exacts [.raise _ _, .complete _ _ _ _ (.putDigest (.putBytes (.hc _ _) _ _) _)]
  | hmacMac =>
    obtain ⟨_, _, -, rfl⟩ | ⟨_, _, _, -, -, -, -, -, -, rfl⟩ := execHmacMac_next h
    exacts [.raise _ _, .complete _ _ _ _ (.putDigest (.putBytes (.refl s) _ _) _)]
  | hotpGen =>
    obtain ⟨_, _, -, rfl⟩ | ⟨_, _, _, -, -, -, -, -, -, rfl⟩ := execHotpGen_next h
    exacts [.raise _ _, .complete _ _ _ _ (.putBytes (.refl s) _ _)]
  | hotpTrunc =>
    obtain ⟨_, _, -, rfl⟩ | ⟨_, -, -, -, -, rfl⟩ := execHotpTrunc_next h
    exacts [.raise _ _, .complete _ _ _ _ (.putBytes (.refl s) _ _)]
  | totpGen src =>
    obtain ⟨_, _, -, rfl⟩ | ⟨_, _, _, -, -, -, -, -, -, -, rfl⟩ := execTotpGen_next src h
    exacts [.raise _ _, .complete _ _ _ _ (.putBytes (.takeTime s src) _ _)]
  | totpVerify src =>
    obtain ⟨_, _, -, rfl⟩ | ⟨_, _, _, _, -, -, -, -, -, -, -, -, rfl⟩ := execTotpVerify_next src h
    exacts [.raise _ _, .complete _ _ _ _ (.takeTime s src)]
  | totpRemsec src =>
    obtain ⟨_, _, -, rfl⟩ | ⟨-, rfl⟩ := execTotpRemsec_next src h
    exacts [.raise _ _, .complete _ _ _ _ (.takeTime s src)]
  | totpRempct src =>
    obtain ⟨_, _, -, rfl⟩ | ⟨-, rfl⟩ := execTotpRempct_next src h
    exacts [.raise _ _, .complete _ _ _ _ (.takeTime s src)]

theorem State.CommandEnd.phase {s t : State} (h : s.CommandEnd t) : t.phase = .idle := by
  cases h <;> rfl

theorem State.CommandEnd.replies {s t : State} (h : s.CommandEnd t) : t.replies = s.replies := by
  cases h with
  | raise => rfl
  | complete _ _ _ _ hu => exact hu.replies

theorem State.CommandEnd.turns {s t : State} (h : s.CommandEnd t) : t.turns = s.turns := by
  cases h with
  | raise => rfl
  | complete _ _ _ _ hu => exact hu.turns

/-- An engine turn that answers leaves the state alone, it being idle, or ends the pending command. -/
theorem engineStep_next {s t : State} (h : engineStep s = .next t) : (s.phase = .idle ∧ t = s) ∨ s.CommandEnd t := by
  obtain ⟨hp, hs⟩ | ⟨-, i, -, hs⟩ | ⟨-, hs⟩ := engineStep_cases s <;> rw [hs] at h
  · cases h; exact .inl ⟨hp, rfl⟩
  · exact .inr (exec_next h)
  · cases h; exact .inr (.raise _ _)

/-- After an engine turn no command is pending (60_exceptions.md R904 to R906). -/
theorem engineStep_next_phase {s t : State} (h : engineStep s = .next t) : t.phase = .idle := by
  obtain ⟨hp, rfl⟩ | he := engineStep_next h
  exacts [hp, he.phase]

/-- The engine answers no host access. -/
theorem engineStep_next_replies {s t : State} (h : engineStep s = .next t) : t.replies = s.replies := by
  obtain ⟨-, rfl⟩ | he := engineStep_next h
  exacts [rfl, he.replies]

theorem engineStep_next_turns {s t : State} (h : engineStep s = .next t) : t.turns = s.turns := by
  obtain ⟨-, rfl⟩ | he := engineStep_next h
  exacts [rfl, he.turns]

/-! ## Every step counts, and none is refused -/

@[simp] theorem State.regWrite_turns (s : State) (r : Reg) (v : Word) : (s.regWrite r v).turns = s.turns := by
  cases r with
  | ctrl => simp only [State.regWrite, State.writeCtrl]; split <;> rfl
  | cmd => simp only [State.regWrite, State.writeCmd]; split <;> rfl
  | _ => rfl

theorem hostAccess_next_turns {s t : State} {a : HostAccess} (h : hostAccess s a = .next t) : t.turns = s.turns := by
  cases a with
  | read off n =>
    obtain ⟨_, rfl⟩ | ⟨-, -, rfl⟩ := hostRead_next h <;> rfl
  | write off n v =>
    obtain ⟨_, rfl⟩ | ⟨-, -, rfl⟩ | ⟨-, -, -, rfl⟩ | ⟨-, -, -, rfl⟩ := hostWrite_next h <;> simp

theorem hostAccess_ne_refused (s : State) (a : HostAccess) (q : Refusal) : hostAccess s a ≠ .refused q := by
  cases a with
  | read off n => simp only [hostAccess, hostRead, busError]; grind
  | write off n v => simp only [hostAccess, hostWrite, busError]; grind

theorem stepUnder_next_turns {p : StepParams} {s t : State} (h : stepUnder p s = .next t) : t.turns = s.turns + 1 := by
  obtain ⟨a, hs⟩ | hs | hs := stepUnder_cases p s <;> rw [hs] at h
  · exact hostAccess_next_turns h
  · exact engineStep_next_turns h
  · cases h; rfl

theorem stepUnder_ne_refused (p : StepParams) (s : State) (q : Refusal) : stepUnder p s ≠ .refused q := by
  obtain ⟨a, hs⟩ | hs | hs := stepUnder_cases p s <;> rw [hs]
  · exact hostAccess_ne_refused _ _ _
  · obtain ⟨-, he⟩ | ⟨-, i, -, he⟩ | ⟨-, he⟩ := engineStep_cases s.moved <;> rw [he]
    exacts [nofun, exec_ne_refused _ _ _, nofun]
  · nofun

/-! ## The end of a run -/

theorem State.ended_iff {program : HostProgram} {s : State} :
    s.ended program = true ↔ program s.replies = .finished ∧ s.phase = .idle := by
  simp [State.ended]

/-- Once the program has made its last access, an engine turn ends the run. -/
theorem stepUnder_engine_ended {p : StepParams} {s t : State} (hf : p.program s.replies = .finished)
    (hm : nextMove p s = .engine) (h : stepUnder p s = .next t) : t.ended p.program = true := by
  rw [stepUnder_engine hm] at h
  refine State.ended_iff.2 ⟨?_, engineStep_next_phase h⟩
  rw [engineStep_next_replies h, State.moved_replies, hf]

/-- After the end an engine turn changes nothing but the count of steps. -/
theorem stepUnder_of_ended {p : StepParams} {s : State} (he : s.ended p.program = true)
    (hm : nextMove p s = .engine) : stepUnder p s = .next s.moved := by
  obtain ⟨-, hp⟩ := State.ended_iff.1 he
  rw [stepUnder_engine hm, engineStep_idle (s.moved_phase.trans hp)]

/-! ## No command stays pending for ever -/

/-- Some number of steps from s leads to a state with no command pending, or to the model fault. -/
def State.CommandSettles (p : StepParams) (s : State) : Prop :=
  ∃ n, (∃ t, runUnder p n s = .next t ∧ t.phase = .idle) ∨ ∃ f, runUnder p n s = .fault f

theorem State.CommandSettles.of_idle {p : StepParams} {s : State} (h : s.phase = .idle) : s.CommandSettles p :=
  ⟨0, .inl ⟨s, rfl, h⟩⟩

/-- A step that faults settles the command, and none is refused: only its next states remain. -/
theorem State.CommandSettles.of_next {p : StepParams} {s : State}
    (h : ∀ t, stepUnder p s = .next t → t.CommandSettles p) : s.CommandSettles p := by
  cases hs : stepUnder p s with
  | next t =>
    obtain ⟨n, hn⟩ := h t hs
    exact ⟨n + 1, by simpa only [runUnder, hs] using hn⟩
  | fault f => exact ⟨1, .inr ⟨f, by rw [runUnder, hs]⟩⟩
  | refused q => exact absurd hs (stepUnder_ne_refused p s q)

/-- k steps before a turn the order gives the ENGINE: since every step counts one, either an earlier step settles the
command, or the run reaches that turn, which does. -/
theorem commandSettles_of_engine_turn {p : StepParams} (k : Nat) :
    ∀ {s : State}, p.order (s.turns + k) = .engine → s.CommandSettles p := by
  induction k with
  | zero =>
    intro s ho
    refine .of_next fun t hs => .of_idle ?_
    rw [stepUnder_engine (nextMove_order ho)] at hs
    exact engineStep_next_phase hs
  | succ k ih =>
    intro s ho
    refine .of_next fun t hs => ih ?_
    rw [stepUnder_next_turns hs, Nat.add_right_comm, Nat.add_assoc, ho]

theorem StepParams.Fair.commandSettles {p : StepParams} (hp : p.Fair) (s : State) : s.CommandSettles p := by
  obtain ⟨m, hm, ho⟩ := hp s.turns
  obtain ⟨k, rfl⟩ := Nat.exists_eq_add_of_le hm
  exact commandSettles_of_engine_turn k ho

/-- Settles O60: an engine turn leaves no command pending and answers no host access (`engineStep_next`), so it ends a run
whose program has finished (log 1); under fairness such a turn comes, whatever the host or a power-on (log 12) does before. -/
theorem runEndsWhenTheHostIsDoneAndNothingIsPending : Obligations.RunEndsWhenTheHostIsDoneAndNothingIsPending := by
  unfold Obligations.RunEndsWhenTheHostIsDoneAndNothingIsPending
  intro p s
  refine ⟨State.ended_iff, fun hf => ⟨nextMove_finished hf, fun hm t => stepUnder_engine_ended hf hm⟩,
    fun he hm => ⟨s.moved, stepUnder_of_ended he hm, he, State.moved_observation s⟩,
    fun hp _ => hp.commandSettles s⟩

end Sys2Proof.Machine
end

section
/-! PROOFS. The family of 10_state.md: the invariant of the block (O48, O49), the register map (O13, O14, O16, O18, O19, O22),
what the host leaves to a pending command (O23), and the digest registers (O45). -/

namespace Sys2Proof.Machine

/-! ## The invariant, in two parts -/

/-- The part of the invariant that speaks of what is stored: DBUF, SC and HC. -/
def State.StoresInv (s : State) : Prop := s.dbuf.wf ∧ s.sc.Inv ∧ s.hc.Inv

theorem State.inv_iff {s : State} : s.Inv ↔ s.StoresInv ∧ s.FlagsInv := by
  simp only [State.Inv, State.StoresInv, and_assoc]

/-! ### What is stored -/

theorem State.StoresInv.putBytes {s : State} (h : s.StoresInv) {off : Nat} {bs : List Byte}
    (hr : off + bs.length ≤ 1024) : (s.putBytes off bs).StoresInv := by
  obtain ⟨hdbuf, hctx⟩ := h
  exact ⟨Memory.wf_writeBytes bs hdbuf hr, hctx⟩

theorem State.StoresInv.withSc {s : State} (h : s.StoresInv) {c : ShaCtx} (hc : c.Inv) :
    State.StoresInv { s with sc := c } := by
  obtain ⟨hdbuf, -, hhc⟩ := h
  exact ⟨hdbuf, hc, hhc⟩

theorem State.StoresInv.withHc {s : State} (h : s.StoresInv) {c : HmacCtx} (hc : c.Inv) :
    State.StoresInv { s with hc := c } := by
  obtain ⟨hdbuf, hsc, -⟩ := h
  exact ⟨hdbuf, hsc, hc⟩

theorem State.StoresInv.takeTime {s : State} (h : s.StoresInv) (src : TimeSource) : (s.takeTime src).StoresInv := by
  simpa [State.StoresInv] using h

theorem State.StoresInv.putDigest {s : State} (h : s.StoresInv) (d : List Byte) : (s.putDigest d).StoresInv := h

theorem State.StoresInv.complete {s : State} (h : s.StoresInv) (r0 r1 r2 r3 : Word) :
    (s.complete r0 r1 r2 r3).StoresInv := h

theorem ShaCtx.inv_init : ShaCtx.Inv { stream := Stream.initial, st := .init } := rfl

theorem ShaCtx.Inv.coherent {c : ShaCtx} (h : c.Inv) (hf : c.st ≠ .finalized) : c.stream.Coherent := by
  unfold ShaCtx.Inv at h
  split at h
  · rw [h]; exact Stream.initial_coherent
  · exact h
  · exact absurd ‹_› hf

theorem ShaCtx.Inv.update {c : ShaCtx} (h : c.Inv) (hf : c.st ≠ .finalized) {m : List Byte}
    (hm : c.stream.count + m.length ≤ Config.maxMsgBytes) :
    ShaCtx.Inv { stream := (sha1Update c.stream m).1, st := .updating } :=
  (h.coherent hf).update hm

theorem ShaCtx.Inv.finalize {c : ShaCtx} (h : c.Inv) (hf : c.st ≠ .finalized) (x : HashState) :
    ShaCtx.Inv { stream := { h := x, rem := [], count := c.stream.count }, st := .finalized } := by
  obtain ⟨-, hcount⟩ := h.coherent hf
  exact ⟨rfl, hcount⟩

/-- The context HMAC_SETKEY leaves: its 64-byte ipad block is absorbed whole (42_hmac.md R620). -/
theorem HmacCtx.inv_keyed {k0 : List Byte} (h : k0.length = 64) :
    HmacCtx.Inv { k0 := k0, inner := innerStart k0, st := .keyed } := by
  have hcount : (innerStart k0).count = 64 := by
    simp [innerStart, sha1Update_count, ipadBlock, h, Stream.initial]
  have hlen : Stream.initial.count + (ipadBlock k0).length ≤ Config.maxMsgBytes := by
    simp only [Stream.initial, ipadBlock, List.length_map, h]
    decide
  exact ⟨h, nofun, Stream.initial_coherent.update hlen, fun _ => hcount.ge⟩

theorem HmacCtx.Inv.update {c : HmacCtx} (h : c.Inv) {m : List Byte}
    (hm : c.inner.count + m.length ≤ Config.maxMsgBytes) : HmacCtx.Inv { c with inner := (sha1Update c.inner m).1 } := by
  obtain ⟨hk0, hzero, hinner, hpad⟩ := h
  exact ⟨hk0, hzero, hinner.update hm, fun hst => (hpad hst).trans (Nat.le_add_right _ _)⟩

theorem HmacCtx.Inv.finalize {c : HmacCtx} (h : c.Inv) (hst : c.st = .keyed) : HmacCtx.Inv { c with st := .finalized } := by
  obtain ⟨hk0, -, hinner, hpad⟩ := h
  exact ⟨hk0, nofun, hinner, fun _ => hpad (by simp [hst])⟩

theorem hmacFinalDigest_length (c : HmacCtx) : (hmacFinalDigest c).length = 20 := sha1_length _

theorem hmacSha1_length {k m d : List Byte} (h : hmacSha1 k m = .ok d) : d.length = 20 := by
  obtain ⟨k0, -, rfl⟩ := hmacSha1_eq_ok.1 h
  exact sha1_length _

theorem hotp_text_length {key : List Byte} {c n : Nat} {r : HotpOut} (h : hotp key c n = .ok r) : r.text.length = n := by
  obtain ⟨d, -, rfl⟩ := hotp_eq_ok.1 h
  exact hotpRender_length _ _

/-- Every command stores inside its checked ranges and keeps both contexts coherent. -/
theorem exec_keeps_storesInv {i : Instr} {s t : State} (hs : s.StoresInv) (h : exec i s = .next t) : t.StoresInv := by
  have ⟨_, hsc, hhc⟩ := hs
  cases i with
  | shaInit =>
    rw [exec, execShaInit_eq] at h
    cases h
    exact (hs.withSc ShaCtx.inv_init).complete _ _ _ _
  | b32Enc =>
    obtain ⟨_, _, -, rfl⟩ | ⟨src, -, hr, hsrc, rfl⟩ := execB32Enc_next h
    · exact hs
    · refine (hs.putBytes ?_).complete _ _ _ _
      rwa [b32Encode_length, Memory.readBytes_length hsrc]
  | b32Dec =>
    obtain ⟨_, _, -, rfl⟩ | ⟨_, _, -, -, -, hr, rfl⟩ := execB32Dec_next h
    exacts [hs, (hs.putBytes hr).complete _ _ _ _]
  | shaUpdate =>
    obtain ⟨_, _, -, rfl⟩ | ⟨m, hf, -, hcount, hm, rfl⟩ := execShaUpdate_next h
    · exact hs
    · rw [← Memory.readBytes_length hm] at hcount
      exact (hs.withSc (hsc.update hf hcount)).complete _ _ _ _
  | shaFinal =>
    obtain ⟨_, _, -, rfl⟩ | ⟨hf, hr, rfl⟩ := execShaFinal_next h
    · exact hs
    · exact (((hs.withSc (hsc.finalize hf _)).putBytes (by rwa [digestBytes_length])).putDigest _).complete _ _ _ _
  | shaHash =>
    obtain ⟨_, _, -, rfl⟩ | ⟨_, -, hr, -, rfl⟩ := execShaHash_next h
    exacts [hs, ((hs.putBytes (by rwa [sha1_length])).putDigest _).complete _ _ _ _]
  | hmacSetkey =>
    obtain ⟨_, _, -, rfl⟩ | ⟨_, _, -, -, hk, rfl⟩ := execHmacSetkey_next h
    exacts [hs, (hs.withHc (HmacCtx.inv_keyed (hmacK0_length hk))).complete _ _ _ _]
  | hmacUpdate =>
    obtain ⟨_, _, -, rfl⟩ | ⟨m, -, -, hcount, hm, rfl⟩ := execHmacUpdate_next h
    · exact hs
    · rw [← Memory.readBytes_length hm] at hcount
      exact (hs.withHc (hhc.update hcount)).complete _ _ _ _
  | hmacFinal =>
    obtain ⟨_, _, -, rfl⟩ | ⟨hst, hr, rfl⟩ := execHmacFinal_next h
    · exact hs
    · exact (((hs.withHc (hhc.finalize hst)).putBytes (by rwa [hmacFinalDigest_length])).putDigest _).complete _ _ _ _
  | hmacMac =>
    obtain ⟨_, _, -, rfl⟩ | ⟨_, _, _, -, -, hr, -, -, hd, rfl⟩ := execHmacMac_next h
    exacts [hs, ((hs.putBytes (by rwa [hmacSha1_length hd])).putDigest _).complete _ _ _ _]
  | hotpGen =>
    obtain ⟨_, _, -, rfl⟩ | ⟨_, _, _, -, -, hr, -, -, hd, rfl⟩ := execHotpGen_next h
    exacts [hs, (hs.putBytes (by rwa [hotp_text_length hd])).complete _ _ _ _]
  | hotpTrunc =>
    obtain ⟨_, _, -, rfl⟩ | ⟨_, -, -, hr, -, rfl⟩ := execHotpTrunc_next h
    exacts [hs, (hs.putBytes (by rwa [hotpOfDigest, hotpRender_length])).complete _ _ _ _]
  | totpGen src =>
    obtain ⟨_, _, -, rfl⟩ | ⟨_, _, _, -, -, -, hr, -, -, hd, rfl⟩ := execTotpGen_next src h
    exacts [hs, ((hs.takeTime src).putBytes (by rwa [hotp_text_length hd])).complete _ _ _ _]
  | totpVerify src =>
    obtain ⟨_, _, -, rfl⟩ | ⟨_, _, _, _, -, -, -, -, -, -, -, -, rfl⟩ := execTotpVerify_next src h
    exacts [hs, (hs.takeTime src).complete _ _ _ _]
  | totpRemsec src =>
    obtain ⟨_, _, -, rfl⟩ | ⟨-, rfl⟩ := execTotpRemsec_next src h
    exacts [hs, (hs.takeTime src).complete _ _ _ _]
  | totpRempct src =>
    obtain ⟨_, _, -, rfl⟩ | ⟨-, rfl⟩ := execTotpRempct_next src h
    exacts [hs, (hs.takeTime src).complete _ _ _ _]

/-! ### The flags -/

/-- Acceptance clears both flags and the error record (60_exceptions.md R903). -/
theorem State.accept_flagsInv (s : State) (w : Word) : (s.accept w).FlagsInv := by
  simp [State.FlagsInv, errcodes]

theorem State.FlagsInv.ack {s : State} (h : s.FlagsInv) (v : Word) : (s.ack v).FlagsInv := by
  obtain ⟨hboth, hpend, herr, hdone, hinfo, hmem⟩ := h
  refine ⟨fun hb => hboth ?_, fun hp => ?_, fun he => herr ?_, fun hd => hdone ?_, hinfo, hmem⟩
  · simp only [State.ack_done, State.ack_err, Bool.and_eq_true] at hb
    exact ⟨hb.1.1, hb.2.1⟩
  · obtain ⟨hd, he, hc⟩ := hpend hp
    simp [hd, he, hc]
  · simp only [State.ack_err, Bool.and_eq_true] at he
    exact he.1
  · simp only [State.ack_done, Bool.and_eq_true] at hd
    exact hd.1

/-- A command ends with exactly one of DONE and ERR, both being 0 while it was pending. -/
theorem State.CommandEnd.flagsInv {s t : State} (h : s.CommandEnd t) (hp : s.phase = .pending) (hs : s.FlagsInv) :
    t.FlagsInv := by
  obtain ⟨-, hpend, -, -, hinfo, hmem⟩ := hs
  obtain ⟨hd, he, hc⟩ := hpend hp
  cases h with
  | raise code info =>
    have hne : code.byte ≠ 0#8 := code.byte_ne_zero
    simp [State.FlagsInv, hd, hne, code.byte_mem]
  | complete r0 r1 r2 r3 hu =>
    rw [hu]
    simp [State.FlagsInv, he, hc, hinfo hc, errcodes]

/-! ### The resets -/

theorem State.reset_storesInv : State.reset.StoresInv :=
  ⟨⟨.nil, nofun⟩, rfl, zeros_length 64, fun _ => rfl, Stream.initial_coherent, absurd rfl⟩

theorem State.reset_flagsInv : State.reset.FlagsInv := by
  simp [State.FlagsInv, State.reset, errcodes]

theorem State.reset_inv : State.reset.Inv := State.inv_iff.2 ⟨State.reset_storesInv, State.reset_flagsInv⟩

/-- Settles O48: nothing is stored, both contexts are at their first value, no flag is set. -/
theorem invariantHoldsAtReset : Obligations.InvariantHoldsAtReset := by
  unfold Obligations.InvariantHoldsAtReset
  exact State.reset_inv

/-- Power-on changes no field of the reset state that the invariant speaks of. -/
theorem State.powerOn_inv (s : State) : s.powerOn.Inv := State.reset_inv

theorem State.Inv.softReset {s : State} (h : s.Inv) : s.softReset.Inv := by
  obtain ⟨hdbuf, -⟩ := h
  obtain ⟨-, hrest⟩ := State.reset_inv
  exact ⟨hdbuf, hrest⟩

/-! ### Each agent's step -/

theorem State.Inv.regWrite {s : State} (h : s.Inv) (r : Reg) (v : Word) : (s.regWrite r v).Inv := by
  obtain ⟨hst, hfl⟩ := State.inv_iff.1 h
  cases r with
  | ctrl =>
    rw [State.regWrite, State.writeCtrl]
    split
    exacts [h.softReset, h]
  | status => exact State.inv_iff.2 ⟨hst, hfl.ack v⟩
  | cmd =>
    rw [State.regWrite, State.writeCmd]
    split
    exacts [h, State.inv_iff.2 ⟨hst, s.accept_flagsInv v⟩]
  | _ => exact h

/-- An aligned access of the window ends inside DBUF. -/
theorem windowByte_add_le {off n : Nat} (h : 0x400 ≤ off) (hlt : off < 2 ^ 11) (ha : windowAccessOK off n = true) :
    windowByte off + n ≤ 1024 := by
  obtain ⟨hn, h0⟩ := windowAccessOK_iff.1 ha
  unfold windowByte
  obtain rfl | rfl | rfl := hn <;> omega

theorem hostAccess_keeps_inv {s t : State} {a : HostAccess} (hs : s.Inv) (h : hostAccess s a = .next t) : t.Inv := by
  cases a with
  | read off n =>
    obtain ⟨_, rfl⟩ | ⟨-, -, rfl⟩ := hostRead_next h
    exacts [hs, hs]
  | write off n v =>
    obtain ⟨_, rfl⟩ | ⟨-, -, rfl⟩ | ⟨-, -, -, rfl⟩ | ⟨-, hoff, ha, rfl⟩ := hostWrite_next h
    · exact hs
    · exact hs
    · exact hs.regWrite _ v
    · obtain ⟨hst, hfl⟩ := State.inv_iff.1 hs
      refine State.inv_iff.2 ⟨hst.putBytes ?_, hfl⟩
      rw [bytesLe_length]
      exact windowByte_add_le hoff off.isLt ha

theorem engineStep_keeps_inv {s t : State} (hs : s.Inv) (h : engineStep s = .next t) : t.Inv := by
  obtain ⟨hst, hfl⟩ := State.inv_iff.1 hs
  obtain ⟨-, he⟩ | ⟨hp, i, -, he⟩ | ⟨hp, he⟩ := engineStep_cases s <;> rw [he] at h
  · cases h; exact hs
  · exact State.inv_iff.2 ⟨exec_keeps_storesInv hst h, (exec_next h).flagsInv hp hfl⟩
  · cases h; exact State.inv_iff.2 ⟨hst, (State.CommandEnd.raise _ _).flagsInv hp hfl⟩

theorem stepUnder_keeps_inv {p : StepParams} {s t : State} (hs : s.Inv) (h : stepUnder p s = .next t) : t.Inv := by
  have hm : s.moved.Inv := hs
  obtain ⟨a, he⟩ | he | he := stepUnder_cases p s <;> rw [he] at h
  · exact hostAccess_keeps_inv hm h
  · exact engineStep_keeps_inv hm h
  · cases h; exact State.powerOn_inv _

/-- Settles O49: whichever agent steps, what it stores (`StoresInv`) and the flags it leaves (`FlagsInv`) keep the
invariant; `step` is one of these steps. -/
theorem everyStepKeepsTheInvariant : Obligations.EveryStepKeepsTheInvariant := by
  unfold Obligations.EveryStepKeepsTheInvariant
  exact fun s t hs => ⟨stepUnder_keeps_inv hs, fun p => stepUnder_keeps_inv hs⟩

/-! ## The register map -/

/-- The register r stands at the aperture offset: an aligned word of the register space (10_state.md R100). -/
abbrev RegisterAt (off : BitVec 11) (r : Reg) : Prop := off.toNat < 0x400 ∧ off.toNat % 4 = 0 ∧ regAt off.toNat = r

theorem RegisterAt.read {off : BitVec 11} {r : Reg} (h : RegisterAt off r) (s : State) :
    hostAccess s (.read off 4) = .next (s.reply (.data (s.regRead r))) := by
  obtain ⟨hlt, h4, rfl⟩ := h
  exact hostRead_reg s hlt h4

theorem RegisterAt.write {off : BitVec 11} {r : Reg} (h : RegisterAt off r) (s : State) (v : Word) :
    hostAccess s (.write off 4 v) = .next ((s.regWrite r v).reply .written) := by
  obtain ⟨hlt, h4, rfl⟩ := h
  exact hostWrite_reg s v hlt h4

theorem RegisterAt.answers {off : BitVec 11} {r : Reg} (h : RegisterAt off r) {s : State} {v : Word}
    (hv : s.regRead r = v) : s.Answers off v := by
  rw [State.Answers, h.read, hv]

theorem registerAt_id : RegisterAt 0x000 .id := by decide
theorem registerAt_ctrl : RegisterAt 0x004 .ctrl := by decide
theorem registerAt_status : RegisterAt 0x008 .status := by decide
theorem registerAt_errcode : RegisterAt 0x00C .errcode := by decide
theorem registerAt_errinfo : RegisterAt 0x010 .errinfo := by decide
theorem registerAt_cmd : RegisterAt 0x014 .cmd := by decide
theorem registerAt_cfgPeriod : RegisterAt 0x018 .cfgPeriod := by decide
theorem registerAt_cfgDigits : RegisterAt 0x01C .cfgDigits := by decide
theorem registerAt_shaLenLo : RegisterAt 0x064 .shaLenLo := by decide
theorem registerAt_shaLenHi : RegisterAt 0x068 .shaLenHi := by decide
theorem registerAt_hmacLenLo : RegisterAt 0x06C .hmacLenLo := by decide
theorem registerAt_hmacLenHi : RegisterAt 0x070 .hmacLenHi := by decide

theorem registerAt_arg (i : Fin 8) : RegisterAt (BitVec.ofNat 11 (0x020 + 4 * i)) (.arg i) := by
  revert i; decide

theorem registerAt_result (i : Fin 4) : RegisterAt (BitVec.ofNat 11 (0x040 + 4 * i)) (.result i) := by
  revert i; decide

theorem registerAt_digest (i : Fin 5) : RegisterAt (BitVec.ofNat 11 (0x050 + 4 * i)) (.digest i) := by
  revert i; decide

theorem registerAt_reserved {off : BitVec 11} (h : 0x074 ≤ off.toNat) (hlt : off.toNat < 0x400) (h4 : off.toNat % 4 = 0) :
    RegisterAt off .reserved := ⟨hlt, h4, regAt_reserved h⟩

/-! ### What the registers read -/

theorem State.regRead_ctrl (s : State) : s.regRead .ctrl = if s.ie then 2 else 0 := by
  unfold State.regRead
  cases s.ie <;> rfl

theorem loWord_eq (v : Nat) : loWord v = BitVec.ofNat 32 (v % 2 ^ 32) :=
  BitVec.eq_of_toNat_eq (by simp [loWord])

theorem State.hmacLen_noKey {s : State} (h : s.hc.st = .noKey) : s.hmacLen = 0 := by
  simp [State.hmacLen, h]

theorem State.hmacLen_key {s : State} (h : s.hc.st ≠ .noKey) : s.hmacLen = s.hc.inner.count - 64 := by
  unfold State.hmacLen
  split
  · exact absurd ‹_› h
  · rfl
  · rfl

/-- Settles O16: each offset holds the register the map names, and `regRead` answers its field. -/
theorem registerReadsAnswerTheMap : Obligations.RegisterReadsAnswerTheMap := by
  unfold Obligations.RegisterReadsAnswerTheMap
  intro s
  refine ⟨registerAt_id.answers rfl, registerAt_ctrl.answers s.regRead_ctrl, registerAt_status.answers rfl,
    registerAt_errcode.answers rfl, registerAt_errinfo.answers rfl, registerAt_cmd.answers rfl,
    registerAt_cfgPeriod.answers rfl, registerAt_cfgDigits.answers rfl,
    fun i => (registerAt_arg i).answers rfl, fun i => (registerAt_result i).answers rfl,
    fun i => (registerAt_digest i).answers rfl, registerAt_shaLenLo.answers (loWord_eq _),
    registerAt_shaLenHi.answers rfl, fun h => ?_, fun h => ?_⟩
  · have hlen := State.hmacLen_noKey h
    exact ⟨registerAt_hmacLenLo.answers (congrArg loWord hlen), registerAt_hmacLenHi.answers (congrArg hiWord hlen)⟩
  · have hlen := State.hmacLen_key h
    exact ⟨registerAt_hmacLenLo.answers ((congrArg loWord hlen).trans (loWord_eq _)),
      registerAt_hmacLenHi.answers (congrArg hiWord hlen)⟩

/-- Settles O14: a write to ID, ERRCODE, ERRINFO or a register from 0x040 on leaves the state alone (`regWrite_readOnly`),
and past the LEN registers the map is reserved. -/
theorem readOnlyRegistersIgnoreWrites : Obligations.ReadOnlyRegistersIgnoreWrites := by
  unfold Obligations.ReadOnlyRegistersIgnoreWrites
  intro s off v h4
  refine ⟨?_, fun ⟨h, hlt⟩ => (registerAt_reserved h hlt h4).answers rfl⟩
  rintro (rfl | rfl | rfl | ⟨h, hlt⟩)
  · exact registerAt_id.write s v
  · exact registerAt_errcode.write s v
  · exact registerAt_errinfo.write s v
  · have hreg : RegisterAt off (regAt off.toNat) := ⟨hlt, h4, rfl⟩
    rw [hreg.write, regWrite_readOnly s v h]

/-! ### STATUS -/

/-- STATUS is a number with one binary digit per flag and two per context state, so it has no bit above bit 8. -/
theorem State.status_digits (s : State) : s.status.toNat =
    s.busy.toNat + 2 * s.done.toNat + 4 * s.err.toNat + 8 * s.cmdOvr.toNat + 16 * s.accErr.toNat
      + 32 * s.sc.st.code + 128 * s.hc.st.code ∧
    s.busy.toNat < 2 ∧ s.done.toNat < 2 ∧ s.err.toNat < 2 ∧ s.cmdOvr.toNat < 2 ∧ s.accErr.toNat < 2 ∧
    s.sc.st.code < 4 ∧ s.hc.st.code < 4 := by
  have hsc : s.sc.st.code < 4 := by cases s.sc.st <;> decide
  have hhc : s.hc.st.code < 4 := by cases s.hc.st <;> decide
  have hbusy := s.busy.toNat_lt
  have hdone := s.done.toNat_lt
  have herr := s.err.toNat_lt
  have hcmdOvr := s.cmdOvr.toNat_lt
  have haccErr := s.accErr.toNat_lt
  refine ⟨?_, hbusy, hdone, herr, hcmdOvr, haccErr, hsc, hhc⟩
  rw [State.status, BitVec.toNat_ofNat, Nat.mod_eq_of_lt]
  omega

theorem getLsbD_eq_of_digit {w : Word} {k : Nat} {b : Bool} (h : w.toNat / 2 ^ k % 2 = b.toNat) : w.getLsbD k = b := by
  rw [BitVec.getLsbD, Nat.testBit_eq_decide_div_mod_eq, h]
  cases b <;> rfl

theorem extractLsb'_eq_of_digit {w : Word} {k c : Nat} (h : w.toNat / 2 ^ k % 4 = c) :
    w.extractLsb' k 2 = BitVec.ofNat 2 c := by
  subst h
  apply BitVec.eq_of_toNat_eq
  simp [BitVec.extractLsb'_toNat, Nat.shiftRight_eq_div_pow]

/-- Settles O18: each field is the digit of STATUS at its place. -/
theorem statusWordLayout : Obligations.StatusWordLayout := by
  unfold Obligations.StatusWordLayout
  intro s
  obtain ⟨hw, hbusy, hdone, herr, hcmdOvr, haccErr, hsc, hhc⟩ := s.status_digits
  have hsha : s.status.extractLsb' 5 2 = BitVec.ofNat 2 s.sc.st.code := extractLsb'_eq_of_digit (by omega)
  have hhmac : s.status.extractLsb' 7 2 = BitVec.ofNat 2 s.hc.st.code := extractLsb'_eq_of_digit (by omega)
  refine ⟨getLsbD_eq_of_digit (b := s.busy) (by omega), getLsbD_eq_of_digit (by omega), getLsbD_eq_of_digit (by omega),
    getLsbD_eq_of_digit (by omega), getLsbD_eq_of_digit (by omega), ?_, ?_, by omega⟩
  · rw [hsha]; cases s.sc.st <;> rfl
  · rw [hhmac]; cases s.hc.st <;> rfl

/-- Settles O19: the write is `State.ack`, which clears a flag exactly where the bit is 1. -/
theorem statusWriteClearsTheOnes : Obligations.StatusWriteClearsTheOnes := by
  unfold Obligations.StatusWriteClearsTheOnes
  intro s v
  have hclear (b c : Bool) : (if c then false else b) = (b && !c) := by cases c <;> simp
  rw [registerAt_status.write]
  simp only [hclear]
  rfl

/-! ### Writable registers -/

theorem State.regWrite_ctrl_ie (s : State) {v : Word} (h : v.getLsbD 0 = false) :
    s.regWrite .ctrl v = { s with ie := v.getLsbD 1 } := by
  rw [State.regWrite, State.writeCtrl, h]
  rfl

/-- Settles O22: `regWrite` sets the one register at each offset. -/
theorem writableRegistersHoldWhatIsWritten : Obligations.WritableRegistersHoldWhatIsWritten := by
  unfold Obligations.WritableRegistersHoldWhatIsWritten
  intro s v
  refine ⟨fun h => ?_, registerAt_cfgPeriod.write s v, ⟨_, registerAt_cfgDigits.write s v, ?_, rfl⟩,
    fun i => ⟨_, (registerAt_arg i).write s v, ?_, fun j hj => ?_, rfl⟩⟩
  · rw [registerAt_ctrl.write, s.regWrite_ctrl_ie h]
    rfl
  · exact BitVec.toNat_setWidth 4 v
  · exact Vector.getElem_set_self i.isLt
  · exact Vector.getElem_set_ne i.isLt j.isLt fun he => hj (Fin.ext he.symm)

/-! ### The reset values -/

/-- Settles O13: `State.reset` is a literal state; its DBUF is empty, so every byte reads as UNWRITTEN. -/
theorem powerOnResetValues : Obligations.PowerOnResetValues := by
  unfold Obligations.PowerOnResetValues
  refine ⟨rfl, rfl, rfl, rfl, rfl, rfl, rfl, rfl, rfl, by decide, rfl, rfl, by decide, by decide,
    rfl, rfl, rfl, rfl, rfl, rfl, rfl, rfl, Memory.read_nil, rfl⟩

/-! ## What the host leaves to a pending command -/

/-- t still holds what a pending command of s uses or has produced: phase, latch, DBUF, contexts, results, error record. -/
def State.KeepsCommand (s t : State) : Prop :=
  t.phase = s.phase ∧ t.latch = s.latch ∧ t.dbuf = s.dbuf ∧ t.sc = s.sc ∧ t.hc = s.hc ∧
    t.results = s.results ∧ t.digest = s.digest ∧ t.errcode = s.errcode ∧ t.errinfo = s.errinfo ∧ t.draws = s.draws

theorem State.KeepsCommand.refl (s : State) : s.KeepsCommand s := ⟨rfl, rfl, rfl, rfl, rfl, rfl, rfl, rfl, rfl, rfl⟩

theorem State.busy_of_pending {s : State} (h : s.phase = .pending) : s.busy = true := by
  rw [State.busy, h]
  rfl

/-- While a command is pending, a register write without soft reset keeps it: CMD only sets CMD_OVR. -/
theorem State.regWrite_keepsCommand {s : State} (hp : s.phase = .pending) {r : Reg} {v : Word}
    (hr : r = .ctrl → v.getLsbD 0 = false) : s.KeepsCommand (s.regWrite r v) := by
  cases r with
  | ctrl =>
    rw [s.regWrite_ctrl_ie (hr rfl)]
    exact .refl s
  | cmd =>
    rw [State.regWrite, State.writeCmd, State.busy_of_pending hp]
    exact .refl s
  | _ => exact .refl s

theorem hostAccess_keepsCommand {s t : State} {a : HostAccess} (hp : s.phase = .pending)
    (ha : ∀ v, a = .write 0x004 4 v → v.getLsbD 0 = false) (h : hostAccess s a = .next t) : s.KeepsCommand t := by
  cases a with
  | read off n =>
    obtain ⟨_, rfl⟩ | ⟨-, -, rfl⟩ := hostRead_next h
    exacts [.refl s, .refl s]
  | write off n v =>
    obtain ⟨_, rfl⟩ | ⟨-, -, rfl⟩ | ⟨-, rfl, -, rfl⟩ | ⟨hb, -⟩ := hostWrite_next h
    · exact .refl s
    · exact .refl s
    · refine State.regWrite_keepsCommand (s := s) hp fun hr => ha v ?_
      rw [BitVec.eq_of_toNat_eq (y := 0x004) (regAt_eq_ctrl.1 hr)]
    · rw [State.busy_of_pending hp] at hb
      cases hb

/-- Settles O23: what a pending access leaves is `State.KeepsCommand`. -/
theorem hostCannotTouchThePendingCommand : Obligations.HostCannotTouchThePendingCommand := by
  unfold Obligations.HostCannotTouchThePendingCommand
  intro s t a hp ha h
  obtain ⟨hphase, hrest⟩ := hostAccess_keepsCommand hp ha h
  exact ⟨hphase.trans hp, hrest⟩

/-! ## The digest registers -/

/-- Settles O45: an error keeps DIGEST, and of the completions only the four hash commands' call `putDigest`. -/
theorem onlyTheHashCommandsWriteDigest : Obligations.OnlyTheHashCommandsWriteDigest := by
  unfold Obligations.OnlyTheHashCommandsWriteDigest
  intro i s t h hFinal hHash hHmacFinal hMac
  cases i with
  | shaFinal => exact absurd rfl hFinal
  | shaHash => exact absurd rfl hHash
  | hmacFinal => exact absurd rfl hHmacFinal
  | hmacMac => exact absurd rfl hMac
  | shaInit => rw [exec, execShaInit_eq] at h; cases h; rfl
  | b32Enc => obtain ⟨_, _, -, rfl⟩ | ⟨_, -, -, -, rfl⟩ := execB32Enc_next h <;> simp
  | b32Dec => obtain ⟨_, _, -, rfl⟩ | ⟨_, _, -, -, -, -, rfl⟩ := execB32Dec_next h <;> simp
  | shaUpdate => obtain ⟨_, _, -, rfl⟩ | ⟨_, -, -, -, -, rfl⟩ := execShaUpdate_next h <;> simp
  | hmacSetkey => obtain ⟨_, _, -, rfl⟩ | ⟨_, _, -, -, -, rfl⟩ := execHmacSetkey_next h <;> simp
  | hmacUpdate => obtain ⟨_, _, -, rfl⟩ | ⟨_, -, -, -, -, rfl⟩ := execHmacUpdate_next h <;> simp
  | hotpGen => obtain ⟨_, _, -, rfl⟩ | ⟨_, _, _, -, -, -, -, -, -, rfl⟩ := execHotpGen_next h <;> simp
  | hotpTrunc => obtain ⟨_, _, -, rfl⟩ | ⟨_, -, -, -, -, rfl⟩ := execHotpTrunc_next h <;> simp
  | totpGen src => obtain ⟨_, _, -, rfl⟩ | ⟨_, _, _, -, -, -, -, -, -, -, rfl⟩ := execTotpGen_next src h <;> simp
  | totpVerify src =>
    obtain ⟨_, _, -, rfl⟩ | ⟨_, _, _, _, -, -, -, -, -, -, -, -, rfl⟩ := execTotpVerify_next src h <;> simp
  | totpRemsec src => obtain ⟨_, _, -, rfl⟩ | ⟨-, rfl⟩ := execTotpRemsec_next src h <;> simp
  | totpRempct src => obtain ⟨_, _, -, rfl⟩ | ⟨-, rfl⟩ := execTotpRempct_next src h <;> simp

end Sys2Proof.Machine
end

section
/-! PROOFS. The family of 20_memory.md: the bus errors (O15), the window's byte lanes (O20, O21), what a read leaves alone
(O17), and where a command stores (O46). -/

namespace Sys2Proof.Machine

/-! ## Bus errors -/

/-- An access whose width or alignment the space of its offset does not take (20_memory.md R201, R203). -/
def BadAccess (off n : Nat) : Prop :=
  (inRegs off = true ∧ regAccessOK off n = false) ∨ (inRegs off = false ∧ windowAccessOK off n = false)

/-- A bad read is a bus error, idle or busy: BUSY is asked only after the check (log 5). -/
theorem hostRead_badAccess {off n : Nat} (h : BadAccess off n) (s : State) : hostRead s off n = busError s := by
  obtain ⟨hr, ha⟩ | ⟨hr, ha⟩ := h <;> simp [hostRead, hr, ha]

theorem hostWrite_badAccess {off n : Nat} (h : BadAccess off n) (s : State) (v : Word) :
    hostWrite s off n v = busError s := by
  obtain ⟨hr, ha⟩ | ⟨hr, ha⟩ := h <;> simp [hostWrite, hr, ha]

theorem BadAccess.reg {off n : Nat} (h : off < 0x400) (hbad : n ≠ 4 ∨ off % 4 ≠ 0) : BadAccess off n := by
  refine .inl ⟨decide_eq_true h, ?_⟩
  obtain hn | ha := hbad
  · simp [regAccessOK, hn]
  · simp [regAccessOK, ha]

theorem BadAccess.window {off n : Nat} (h : 0x400 ≤ off) (hbad : off % n ≠ 0) : BadAccess off n :=
  .inr ⟨inRegs_window h, by simp [windowAccessOK, hbad]⟩

/-- Settles O15: each access named is a `BadAccess`, which both directions refuse before anything else. -/
theorem badAccessesGetABusError : Obligations.BadAccessesGetABusError := by
  unfold Obligations.BadAccessesGetABusError
  intro s off n v hcases
  have hbad : BadAccess off.toNat n := by
    obtain ⟨hreg, h⟩ | ⟨hwin, ⟨rfl, h⟩ | ⟨rfl, h⟩⟩ := hcases
    exacts [.reg hreg h, .window hwin h, .window hwin h]
  exact ⟨hostRead_badAccess hbad s, hostWrite_badAccess hbad s v⟩

/-! ## Reads -/

theorem State.busy_of_idle {s : State} (h : s.phase = .idle) : s.busy = false := by
  rw [State.busy, h]
  rfl

/-- Settles O17: beside its answer a read changes ACC_ERR alone, and that in the window while busy. -/
theorem readsChangeNothing : Obligations.ReadsChangeNothing := by
  unfold Obligations.ReadsChangeNothing
  intro s t off n h hcase
  obtain ⟨r, rfl⟩ | ⟨hbusy, hwin, -⟩ := hostRead_next h
  · exact ⟨r, rfl⟩
  · obtain hidle | hreg := hcase
    · simp [State.busy_of_idle hidle] at hbusy
    · exact absurd hreg (Nat.not_lt.2 hwin)

/-! ## The window's byte lanes -/

/-- A range just written reads back. -/
theorem Memory.readBytes_writeBytes (m : Memory) (off : Nat) (bs : List Byte) :
    (m.writeBytes off bs).readBytes off bs.length = .ok bs := by
  refine (Memory.readBytes_ok_iff _ _ _ _).2 ⟨rfl, fun k hk => ?_⟩
  rw [Memory.read_writeBytes, if_pos (by omega), Nat.add_sub_cancel_left]

/-- Lane k of a write carries bits [8k+7:8k] of its data (20_memory.md R204). -/
theorem bytesLe_lane {n k : Nat} (v : Word) (h : k < n) :
    (bytesLe n v.toNat)[k]? = some (v.extractLsb' (8 * k) 8) := by
  rw [bytesLe_getElem? _ _ _ h, BitVec.extractLsb', Nat.shiftRight_eq_div_pow, Nat.pow_mul]

/-- What lane k of a write of n bytes at off leaves in the memory. -/
theorem Memory.read_writeBytes_lane (m : Memory) (off : Nat) {n k : Nat} (v : Word) (h : k < n) :
    (m.writeBytes off (bytesLe n v.toNat)).read (off + k) = some (v.extractLsb' (8 * k) 8) := by
  rw [Memory.read_writeBytes, if_pos (by simpa using h), Nat.add_sub_cancel_left, bytesLe_lane v h]

theorem Memory.read_writeBytes_lanes_outside (m : Memory) {off n x : Nat} (v : Nat) (h : x < off ∨ off + n ≤ x) :
    (m.writeBytes off (bytesLe n v)).read x = m.read x :=
  Memory.read_writeBytes_outside _ _ _ _ (by rwa [bytesLe_length])

/-- The lanes of n bytes carry the low 8n bits of the data. -/
theorem leNat_bytesLe_two_pow (n v : Nat) : leNat (bytesLe n v) = v % 2 ^ (8 * n) := by
  rw [leNat_bytesLe, Nat.pow_mul]

/-- The little-endian value weighs byte k by 2^(8k) (20_memory.md R204). -/
theorem leNat_map_range (b : Nat → Byte) (n : Nat) :
    leNat ((List.range n).map b) = ((List.range n).map fun k => 2 ^ (8 * k) * (b k).toNat).sum := by
  induction n generalizing b with
  | zero => rfl
  | succ n ih =>
    have hstep : ∀ k, 2 ^ (8 * (k + 1)) * (b (k + 1)).toNat = 256 * (2 ^ (8 * k) * (b (k + 1)).toNat) := by
      intro k
      ring
    simp [List.range_succ_eq_map, leNat, ih, Function.comp_def, hstep, List.sum_map_mul_left]

/-- Settles O20: the write is `putBytes` of the data's lanes, and an aligned read of the same range takes them back. -/
theorem windowLanesAreLittleEndian : Obligations.WindowLanesAreLittleEndian := by
  unfold Obligations.WindowLanesAreLittleEndian
  intro s off n v hidle hwin hn halign
  have hok : windowAccessOK off.toNat n = true := windowAccessOK_iff.2 ⟨hn, halign⟩
  refine ⟨_, hostWrite_window_idle v hwin hok hidle, fun k hk => s.dbuf.read_writeBytes_lane _ v hk,
    fun x hx => s.dbuf.read_writeBytes_lanes_outside _ hx, rfl, ?_⟩
  have hread : (s.dbuf.writeBytes (windowByte off.toNat) (bytesLe n v.toNat)).readBytes (windowByte off.toNat) n =
      .ok (bytesLe n v.toNat) := by
    simpa using s.dbuf.readBytes_writeBytes (windowByte off.toNat) (bytesLe n v.toNat)
  rw [← leNat_bytesLe_two_pow]
  exact hostRead_window_idle (s := (s.putBytes _ _).reply _) hwin hok hidle hread

/-- Settles O21: the bytes read are `b 0 .. b (n-1)`, and `leNat` weighs them. -/
theorem windowReadAnswersTheBytes : Obligations.WindowReadAnswersTheBytes := by
  unfold Obligations.WindowReadAnswersTheBytes
  intro s off n b hidle hwin hn halign hb
  have hread : s.dbuf.readBytes (windowByte off.toNat) n = .ok ((List.range n).map b) := by
    refine (Memory.readBytes_ok_iff _ _ _ _).2 ⟨by simp, fun k hk => ?_⟩
    rw [List.getElem?_map, List.getElem?_range hk]
    exact hb k hk
  rw [← leNat_map_range]
  exact hostRead_window_idle hwin (windowAccessOK_iff.2 ⟨hn, halign⟩) hidle hread

/-! ## Where a command stores -/

/-- From s to t, DBUF is as before, or one byte sequence that fills the range r has been stored. -/
def State.StoresIn (s t : State) (r : Option (Nat × Nat)) : Prop :=
  t.dbuf = s.dbuf ∨ ∃ off bs, r = some (off, bs.length) ∧ t.dbuf = s.dbuf.writeBytes off bs

theorem State.StoresIn.putBytes {s u : State} (hu : u.dbuf = s.dbuf) {off n : Nat} {bs : List Byte}
    (hlen : bs.length = n) : s.StoresIn (u.putBytes off bs) (some (off, n)) :=
  .inr ⟨off, bs, by rw [hlen], by rw [State.putBytes_dbuf, hu]⟩

theorem State.StoresIn.putDigest {s u : State} {r : Option (Nat × Nat)} (h : s.StoresIn u r) {d : List Byte} :
    s.StoresIn (u.putDigest d) r := h

theorem State.StoresIn.complete {s u : State} {r : Option (Nat × Nat)} (h : s.StoresIn u r) {r0 r1 r2 r3 : Word} :
    s.StoresIn (u.complete r0 r1 r2 r3) r := h

theorem State.StoresIn.read_outside {s t : State} {r : Option (Nat × Nat)} (h : s.StoresIn t r) {x : Nat}
    (hx : Outside r x) : t.dbuf.read x = s.dbuf.read x := by
  obtain h | ⟨off, bs, rfl, h⟩ := h <;> rw [h]
  exact Memory.read_writeBytes_outside _ _ _ _ hx

theorem storeRange_b32Dec {s : State} {txt r : List Byte} (ht : s.dbuf.readBytes (s.a 0) (s.a 1) = .ok txt)
    (hr : b32Decode txt = .ok r) : storeRange .b32Dec s = some (s.a 2, r.length) := by
  simp [storeRange, ht, hr, Except.toOption]

/-- An error stores nothing; a completion stores the range of its rule or nothing (30_encoding.md R320). -/
theorem exec_storesIn {i : Instr} {s t : State} (h : exec i s = .next t) : s.StoresIn t (storeRange i s) := by
  cases i with
  | shaInit =>
    rw [exec, execShaInit_eq] at h
    cases h
    exact .inl rfl
  | b32Enc =>
    obtain ⟨_, _, -, rfl⟩ | ⟨src, -, -, hsrc, rfl⟩ := execB32Enc_next h
    · exact .inl rfl
    · exact .complete (.putBytes rfl (by rw [b32Encode_length, Memory.readBytes_length hsrc]))
  | b32Dec =>
    obtain ⟨_, _, -, rfl⟩ | ⟨_, _, -, htxt, hr, -, rfl⟩ := execB32Dec_next h
    · exact .inl rfl
    · rw [storeRange_b32Dec htxt hr]
      exact .complete (.putBytes rfl rfl)
  | shaUpdate =>
    obtain ⟨_, _, -, rfl⟩ | ⟨_, -, -, -, -, rfl⟩ := execShaUpdate_next h
    exacts [.inl rfl, .inl rfl]
  | shaFinal =>
    obtain ⟨_, _, -, rfl⟩ | ⟨-, -, rfl⟩ := execShaFinal_next h
    exacts [.inl rfl, .complete (.putDigest (.putBytes rfl (digestBytes_length _)))]
  | shaHash =>
    obtain ⟨_, _, -, rfl⟩ | ⟨_, -, -, -, rfl⟩ := execShaHash_next h
    exacts [.inl rfl, .complete (.putDigest (.putBytes rfl (sha1_length _)))]
  | hmacSetkey =>
    obtain ⟨_, _, -, rfl⟩ | ⟨_, _, -, -, -, rfl⟩ := execHmacSetkey_next h
    exacts [.inl rfl, .inl rfl]
  | hmacUpdate =>
    obtain ⟨_, _, -, rfl⟩ | ⟨_, -, -, -, -, rfl⟩ := execHmacUpdate_next h
    exacts [.inl rfl, .inl rfl]
  | hmacFinal =>
    obtain ⟨_, _, -, rfl⟩ | ⟨-, -, rfl⟩ := execHmacFinal_next h
    exacts [.inl rfl, .complete (.putDigest (.putBytes rfl (hmacFinalDigest_length _)))]
  | hmacMac =>
    obtain ⟨_, _, -, rfl⟩ | ⟨_, _, _, -, -, -, -, -, hd, rfl⟩ := execHmacMac_next h
    exacts [.inl rfl, .complete (.putDigest (.putBytes rfl (hmacSha1_length hd)))]
  | hotpGen =>
    obtain ⟨_, _, -, rfl⟩ | ⟨_, _, _, -, -, -, -, -, hr, rfl⟩ := execHotpGen_next h
    exacts [.inl rfl, .complete (.putBytes rfl (hotp_text_length hr))]
  | hotpTrunc =>
    obtain ⟨_, _, -, rfl⟩ | ⟨_, -, -, -, -, rfl⟩ := execHotpTrunc_next h
    exacts [.inl rfl, .complete (.putBytes rfl (hotpRender_length _ _))]
  | totpGen src =>
    obtain ⟨_, _, -, rfl⟩ | ⟨_, _, _, -, -, -, -, -, -, hr, rfl⟩ := execTotpGen_next src h
    exacts [.inl rfl, .complete (.putBytes (s.takeTime_dbuf src) (hotp_text_length hr))]
  | totpVerify src =>
    obtain ⟨_, _, -, rfl⟩ | ⟨_, _, _, _, -, -, -, -, -, -, -, -, rfl⟩ := execTotpVerify_next src h
    exacts [.inl rfl, .inl (s.takeTime_dbuf src)]
  | totpRemsec src =>
    obtain ⟨_, _, -, rfl⟩ | ⟨-, rfl⟩ := execTotpRemsec_next src h
    exacts [.inl rfl, .inl (s.takeTime_dbuf src)]
  | totpRempct src =>
    obtain ⟨_, _, -, rfl⟩ | ⟨-, rfl⟩ := execTotpRempct_next src h
    exacts [.inl rfl, .inl (s.takeTime_dbuf src)]

/-- Settles O46: a command stores at most one byte sequence, and that fills its output range. -/
theorem commandsStoreOnlyInTheirOutputRange : Obligations.CommandsStoreOnlyInTheirOutputRange := by
  unfold Obligations.CommandsStoreOnlyInTheirOutputRange
  intro i s t x h hx
  exact (exec_storesIn h).read_outside hx

end Sys2Proof.Machine
end

section
/-! PROOFS. The family of 30_encoding.md: the opcode table against the encoder (O2, O1, O4), the legal words (O3), and what
the engine makes of an illegal one (O5). -/

namespace Sys2Proof

/-! ## From the instruction to the word -/

theorem encoding_statement (i : Instr) : Laws.Encoding.Statement i :=
  match i with
  | .b32Enc => Laws.Encoding.b32Enc
  | .b32Dec => Laws.Encoding.b32Dec
  | .shaInit => Laws.Encoding.shaInit
  | .shaUpdate => Laws.Encoding.shaUpdate
  | .shaFinal => Laws.Encoding.shaFinal
  | .shaHash => Laws.Encoding.shaHash
  | .hmacSetkey => Laws.Encoding.hmacSetkey
  | .hmacUpdate => Laws.Encoding.hmacUpdate
  | .hmacFinal => Laws.Encoding.hmacFinal
  | .hmacMac => Laws.Encoding.hmacMac
  | .hotpGen => Laws.Encoding.hotpGen
  | .hotpTrunc => Laws.Encoding.hotpTrunc
  | .totpGen t => Laws.Encoding.totpGen t
  | .totpVerify t => Laws.Encoding.totpVerify t
  | .totpRemsec t => Laws.Encoding.totpRemsec t
  | .totpRempct t => Laws.Encoding.totpRempct t

@[simp] theorem legal_encode (i : Instr) : legal (encode i) = true := (encoding_statement i).1

@[simp] theorem decode_encode (i : Instr) : decode (encode i) = .ok i := (encoding_statement i).2.1

@[simp] theorem ofWord_encode (i : Instr) :
    CmdFields.ofWord (encode i) = { op := opcode i, t := timeBit i, rsv := 0 } := (encoding_statement i).2.2

theorem encode_injective : Function.Injective encode := by
  intro i j h
  have hij : decode (encode i) = decode (encode j) := congrArg decode h
  simpa using hij

/-! ## From the word to the instruction -/

/-- Bit T of R300 in its place, every other bit 0. -/
def timeWord : TimeSource → Word
  | .port => 0
  | .stamp => 0x100

theorem timeWord_timeSource (w : Word) : timeWord (timeSource w) = w &&& 0x100 := by
  have h : w &&& 0x100 = if w.getLsbD 8 then 0x100 else 0 := BitVec.and_twoPow w 8
  rw [h, timeSource]
  cases w.getLsbD 8 <;> rfl

/-- A pattern that fits the mask is what w shows under it just when w is the pattern with w's own bits elsewhere. -/
theorem and_mask_eq_iff {w m p : Word} (hp : p &&& m = p) : w &&& m = p ↔ p ||| (w &&& ~~~m) = w := by
  constructor
  · rintro rfl
    rw [← BitVec.and_or_distrib_left, BitVec.or_not_self, BitVec.and_allOnes]
  · intro h
    rw [← h, BitVec.and_or_distrib_right, BitVec.and_assoc, BitVec.not_and_self, hp]
    simp

theorem cmdRows_pattern_and_mask : ∀ r ∈ cmdRows, r.pattern &&& r.mask = r.pattern := by decide

/-- The only bit a mask may leave open is T (R305). -/
theorem cmdRows_not_mask : ∀ r ∈ cmdRows, 0x100 &&& ~~~r.mask = ~~~r.mask := by decide

/-- The word of a row's command is its pattern, with T where the mask leaves it open (R304). -/
theorem cmdRows_encode (t : TimeSource) :
    ∀ r ∈ cmdRows, encode (r.instr t) = r.pattern ||| (timeWord t &&& ~~~r.mask) := by
  cases t <;> decide

/-- A row of the table covers exactly the words of its own commands. -/
theorem covers_iff_encode {r : CmdRow} (hr : r ∈ cmdRows) (w : Word) :
    r.covers w = true ↔ encode (r.instr (timeSource w)) = w := by
  rw [CmdRow.covers, beq_iff_eq, and_mask_eq_iff (cmdRows_pattern_and_mask r hr), cmdRows_encode _ r hr,
    timeWord_timeSource, BitVec.and_assoc, cmdRows_not_mask r hr]

theorem encode_of_decode {w : Word} {i : Instr} (h : decode w = .ok i) : encode i = w := by
  unfold decode at h
  split at h
  next r hfind =>
    cases h
    have hcov : r.covers w = true := List.find?_some (p := fun r : CmdRow => r.covers w) hfind
    exact (covers_iff_encode (List.mem_of_find?_eq_some hfind) w).1 hcov
  next => cases h

theorem decode_eq_ok_iff {w : Word} {i : Instr} : decode w = .ok i ↔ encode i = w := by
  constructor
  · exact encode_of_decode
  · rintro rfl
    exact decode_encode i

/-- Settles O2: a row that covers a word has the word's own command, and every command's word decodes to it. -/
theorem decodeInvertsEncode : Obligations.DecodeInvertsEncode := by
  unfold Obligations.DecodeInvertsEncode
  intro w i
  exact decode_eq_ok_iff

/-- Settles O1: each word is the word of the command beside it. -/
theorem commandWordsDecodeAsTheTableSays : Obligations.CommandWordsDecodeAsTheTableSays := by
  unfold Obligations.CommandWordsDecodeAsTheTableSays
  simp only [decode_eq_ok_iff]
  decide

/-- The commands of two rows differ, whatever T is. -/
theorem cmdRows_instr_pairwise_ne : cmdRows.Pairwise fun r q => ∀ t, r.instr t ≠ q.instr t := by
  simp [cmdRows]

/-- Settles O4: a word covered by two rows would be the word of two commands. -/
theorem opcodeRowsNeverOverlap : Obligations.OpcodeRowsNeverOverlap := by
  unfold Obligations.OpcodeRowsNeverOverlap
  refine cmdRows_instr_pairwise_ne.imp_of_mem fun hr hq hne w hboth => ?_
  obtain ⟨hrw, hqw⟩ := hboth
  rw [covers_iff_encode hr] at hrw
  rw [covers_iff_encode hq] at hqw
  exact hne _ (encode_injective (hrw.trans hqw.symm))

/-! ## The legal words -/

theorem CmdFields.wf_iff {f : CmdFields} :
    f.wf = true ↔ f.op ∈ opset ∧ f.rsv.toNat = 0 ∧ (f.t = false ∨ f.op ∈ timedOps) := by
  simp [CmdFields.wf, CmdFields.opAssigned, CmdFields.rsvZero, CmdFields.timeAllowed, and_assoc, ← BitVec.toNat_inj]

/-- A word is determined by its three fields (R300). -/
theorem CmdFields.ofWord_injective : Function.Injective CmdFields.ofWord := by
  intro v w h
  simp only [CmdFields.ofWord, CmdFields.mk.injEq] at h
  obtain ⟨hop, ht, hrsv⟩ := h
  refine BitVec.eq_of_getLsbD_eq fun k hk => ?_
  obtain hlt | rfl | hgt := Nat.lt_trichotomy k 8
  · simpa [hlt] using congrArg (·.getLsbD k) hop
  · exact ht
  · have hk9 : k - 9 < 23 ∧ 9 + (k - 9) = k := by omega
    simpa [hk9] using congrArg (·.getLsbD (k - 9)) hrsv

/-- OPSET holds the operation codes of the table's rows, each with a command whose T is 0. -/
theorem exists_instr_of_mem_opset {b : Byte} (h : b ∈ opset) : ∃ i, opcode i = b ∧ timeBit i = false := by
  have hrows : opset = cmdRows.map fun r => opcode (r.instr .port) := rfl
  have htime : ∀ r ∈ cmdRows, timeBit (r.instr .port) = false := by decide
  rw [hrows, List.mem_map] at h
  obtain ⟨r, hr, hop⟩ := h
  exact ⟨_, hop, htime r hr⟩

/-- The timed operation codes are those of the rows of format CMD-T, each with a command whose T is 1. -/
theorem exists_instr_of_mem_timedOps {b : Byte} (h : b ∈ timedOps) : ∃ i, opcode i = b ∧ timeBit i = true := by
  have hrows : timedOps = (cmdRows.filter fun r => r.mask == maskCmdT).map fun r => opcode (r.instr .stamp) := rfl
  have htime : ∀ r ∈ cmdRows.filter fun r => r.mask == maskCmdT, timeBit (r.instr .stamp) = true := by decide
  rw [hrows, List.mem_map] at h
  obtain ⟨r, hr, hop⟩ := h
  exact ⟨_, hop, htime r hr⟩

/-- Fields that pass the checks of R302 are those of a command. -/
theorem CmdFields.exists_instr_of_wf {f : CmdFields} (h : f.wf = true) :
    ∃ i, f = { op := opcode i, t := timeBit i, rsv := 0 } := by
  obtain ⟨op, t, rsv⟩ := f
  obtain ⟨hop, hrsv, ht⟩ := CmdFields.wf_iff.1 h
  obtain rfl : rsv = 0 := BitVec.eq_of_toNat_eq hrsv
  cases t with
  | false =>
    obtain ⟨i, rfl, hi⟩ := exists_instr_of_mem_opset hop
    exact ⟨i, by rw [hi]⟩
  | true =>
    obtain ⟨i, rfl, hi⟩ := exists_instr_of_mem_timedOps (ht.resolve_left Bool.noConfusion)
    exact ⟨i, by rw [hi]⟩

theorem exists_decode_iff_legal (w : Word) : (∃ i, decode w = .ok i) ↔ legal w = true := by
  constructor
  · rintro ⟨i, hi⟩
    rw [← encode_of_decode hi, legal_encode]
  · intro h
    obtain ⟨i, hi⟩ := CmdFields.exists_instr_of_wf h
    rw [← ofWord_encode] at hi
    exact ⟨i, decode_eq_ok_iff.2 (CmdFields.ofWord_injective hi.symm)⟩

theorem mem_opset_iff (b : Byte) : b ∈ opset ↔
    (b.toNat = 0x01 ∨ b.toNat = 0x02 ∨ (0x10 ≤ b.toNat ∧ b.toNat ≤ 0x13) ∨ (0x20 ≤ b.toNat ∧ b.toNat ≤ 0x23) ∨
      b.toNat = 0x30 ∨ b.toNat = 0x31 ∨ (0x40 ≤ b.toNat ∧ b.toNat ≤ 0x43)) := by
  simp only [opset, List.mem_cons, List.not_mem_nil, or_false]
  bv_omega

theorem mem_timedOps_iff (b : Byte) : b ∈ timedOps ↔ 0x40 ≤ b.toNat ∧ b.toNat ≤ 0x43 := by
  simp only [timedOps, List.mem_cons, List.not_mem_nil, or_false]
  bv_omega

theorem CmdFields.ofWord_op_toNat (w : Word) : (CmdFields.ofWord w).op.toNat = w.toNat % 256 := by
  simp [CmdFields.ofWord]

theorem CmdFields.ofWord_t (w : Word) : (CmdFields.ofWord w).t = w.getLsbD 8 := rfl

theorem CmdFields.ofWord_rsv_toNat (w : Word) : (CmdFields.ofWord w).rsv.toNat = w.toNat / 2 ^ 9 := by
  simp [CmdFields.ofWord, Nat.shiftRight_eq_div_pow]
  omega

/-- Settles O3: `legal` in the arithmetic of the word, field by field. -/
theorem decodeAcceptsExactlyTheLegalWords : Obligations.DecodeAcceptsExactlyTheLegalWords := by
  unfold Obligations.DecodeAcceptsExactlyTheLegalWords
  intro w
  rw [exists_decode_iff_legal, legal, CmdFields.wf_iff, mem_opset_iff, mem_timedOps_iff, CmdFields.ofWord_op_toNat,
    CmdFields.ofWord_rsv_toNat, CmdFields.ofWord_t]

/-! ## What the engine makes of an illegal word -/

theorem exists_decode_eq_error_of_illegal {w : Word} (h : legal w = false) : ∃ e, decode w = .error e := by
  cases hd : decode w with
  | ok i => simp [(exists_decode_iff_legal w).1 ⟨i, hd⟩] at h
  | error e => exact ⟨e, rfl⟩

/-- Settles O5: an illegal word does not decode, and the engine's turn raises ILLEGAL_COMMAND on it. -/
theorem illegalWordRaisesIllegalCommand : Obligations.IllegalWordRaisesIllegalCommand := by
  unfold Obligations.IllegalWordRaisesIllegalCommand
  intro s hpending hillegal
  obtain ⟨e, he⟩ := exists_decode_eq_error_of_illegal hillegal
  exact Machine.engineStep_of_illegal hpending he

end Sys2Proof
end

section
/-! PROOFS. The family of 40_base32.md: the codec as arithmetic on the whole text (O50, O51), the first bad character (O52),
and the two commands (O25, O26). -/

namespace Sys2Proof.Machine

/-! ## Big-endian integers -/

theorem beNat_append_singleton (s : List Byte) (b : Byte) : beNat (s ++ [b]) = 256 * beNat s + b.toNat := by
  simp [beNat]

theorem beNat_append (s t : List Byte) : beNat (s ++ t) = beNat s * 256 ^ t.length + beNat t := by
  induction t using List.reverseRecOn with
  | nil => simp [beNat]
  | append_singleton t b ih =>
    rw [← List.append_assoc, beNat_append_singleton, ih, beNat_append_singleton, List.length_append,
      List.length_singleton]
    ring

theorem beNat_zeros (n : Nat) : beNat (zeros n) = 0 := by
  induction n with
  | zero => rfl
  | succ n ih => rw [zeros, List.replicate_succ', beNat_append_singleton, ← zeros, ih]; rfl

theorem beNat_lt (s : List Byte) : beNat s < 256 ^ s.length := by
  induction s using List.reverseRecOn with
  | nil => simp [beNat]
  | append_singleton s b ih =>
    have hb := b.isLt
    rw [beNat_append_singleton, List.length_append, List.length_singleton, Nat.pow_succ]
    omega

theorem bytesBe_beNat (s : List Byte) : bytesBe s.length (beNat s) = s := by
  induction s using List.reverseRecOn with
  | nil => rfl
  | append_singleton s b ih =>
    have hb : (256 * beNat s + b.toNat) / 256 = beNat s := by have := b.isLt; omega
    have hlow : BitVec.ofNat 8 (256 * beNat s + b.toNat) = b := by
      apply BitVec.eq_of_toNat_eq
      have := b.isLt
      simp [Nat.add_mod, Nat.mod_eq_of_lt this]
    rw [beNat_append_singleton, List.length_append, List.length_singleton, bytesBe, hb, ih, hlow]

/-- The top byte of n + 1 stands before the n bytes below it. -/
theorem bytesBe_succ_cons (n b v : Nat) (hv : v < 256 ^ n) :
    bytesBe (n + 1) (b * 256 ^ n + v) = BitVec.ofNat 8 b :: bytesBe n v := by
  induction n generalizing v with
  | zero => simp [bytesBe, show v = 0 by simpa using hv]
  | succ n ih =>
    have hdiv : (b * 256 ^ (n + 1) + v) / 256 = b * 256 ^ n + v / 256 := by
      rw [Nat.pow_succ, ← Nat.mul_assoc, Nat.add_comm, Nat.add_mul_div_right _ _ (by decide), Nat.add_comm]
    have hlow : BitVec.ofNat 8 (b * 256 ^ (n + 1) + v) = BitVec.ofNat 8 v := by
      apply BitVec.eq_of_toNat_eq
      simp [Nat.pow_succ, ← Nat.mul_assoc]
    rw [bytesBe, hdiv, ih _ (by rw [Nat.pow_succ] at hv; omega), hlow]
    rfl

theorem pow_32_eq (n : Nat) : 32 ^ n = 2 ^ (5 * n) := by rw [Nat.pow_mul]

theorem pow_256_eq (n : Nat) : 256 ^ n = 2 ^ (8 * n) := by rw [Nat.pow_mul]

/-! ## Symbols -/

theorem symVal_alph {v : Nat} (h : v < 32) : symVal (alph v) = some v := by
  revert v; decide

@[simp] theorem symVal_padByte : symVal padByte = none := by decide

theorem symVal_lt {c : Byte} {v : Nat} (h : symVal c = some v) : v < 32 := by
  unfold symVal at h
  split_ifs at h <;> cases h <;> omega

theorem ne_padByte_of_symVal {c : Byte} {v : Nat} (h : symVal c = some v) : c ≠ padByte := by
  rintro rfl
  simp at h

/-- A byte that decode stops at (R408): neither the pad byte nor a symbol. -/
def badChar (c : Byte) : Bool := c ≠ padByte && (symVal c).isNone

theorem badChar_eq_true_iff {c : Byte} : badChar c = true ↔ c ≠ padByte ∧ symVal c = none := by
  simp [badChar]

theorem badChar_eq_false_iff {c : Byte} : badChar c = false ↔ c = padByte ∨ ∃ v, symVal c = some v := by
  simp [badChar, or_iff_not_imp_left, Option.isSome_iff_exists]

/-- The values of a text's symbols, in order. -/
def symVals (t : List Byte) : List Nat := t.filterMap symVal

@[simp] theorem symVals_append (t u : List Byte) : symVals (t ++ u) = symVals t ++ symVals u := List.filterMap_append

@[simp] theorem symVals_pad_cons (t : List Byte) : symVals (padByte :: t) = symVals t := by simp [symVals]

theorem symVals_cons {c : Byte} {v : Nat} (h : symVal c = some v) (t : List Byte) :
    symVals (c :: t) = v :: symVals t := by
  simp [symVals, h]

theorem symVals_lt {t : List Byte} {v : Nat} (h : v ∈ symVals t) : v < 32 := by
  obtain ⟨c, -, hc⟩ := List.mem_filterMap.1 h
  exact symVal_lt hc

theorem symVals_length (t : List Byte) : (symVals t).length = (t.filter fun c => (symVal c).isSome).length := by
  rw [symVals, List.length_filterMap_eq_countP, List.countP_eq_length_filter]

/-- The integer whose base-32 digits are those of x, then the symbols' values. -/
def appendSyms (x : Nat) (vs : List Nat) : Nat := vs.foldl (fun x v => 32 * x + v) x

@[simp] theorem appendSyms_nil (x : Nat) : appendSyms x [] = x := rfl

@[simp] theorem appendSyms_cons (x v : Nat) (vs : List Nat) :
    appendSyms x (v :: vs) = appendSyms (32 * x + v) vs := rfl

@[simp] theorem appendSyms_append (x : Nat) (vs ws : List Nat) :
    appendSyms x (vs ++ ws) = appendSyms (appendSyms x vs) ws := List.foldl_append

theorem appendSyms_add (x y : Nat) (vs : List Nat) :
    appendSyms (x + y) vs = x * 32 ^ vs.length + appendSyms y vs := by
  induction vs generalizing x y with
  | nil => simp
  | cons v vs ih =>
    rw [appendSyms_cons, show 32 * (x + y) + v = 32 * x + (32 * y + v) by ring, ih, List.length_cons, appendSyms_cons]
    ring

theorem appendSyms_lt {x n : Nat} {vs : List Nat} (hx : x < 2 ^ n) (hvs : ∀ v ∈ vs, v < 32) :
    appendSyms x vs < 2 ^ (n + 5 * vs.length) := by
  induction vs generalizing x n with
  | nil => simpa using hx
  | cons v vs ih =>
    have hv : v < 32 := hvs v List.mem_cons_self
    have hnext : 32 * x + v < 2 ^ (n + 5) := by rw [Nat.pow_add]; omega
    have := ih hnext fun w hw => hvs w (List.mem_cons_of_mem _ hw)
    rwa [Nat.add_assoc, Nat.add_comm 5] at this

/-! ## The steps of decode (R405) -/

theorem b32DecodeFrom_pad (t : List Byte) (i buf nb : Nat) :
    b32DecodeFrom (padByte :: t) i buf nb = b32DecodeFrom t (i + 1) buf nb := by
  rw [b32DecodeFrom, if_pos rfl]

theorem b32DecodeFrom_bad {c : Byte} (h : badChar c = true) (t : List Byte) (i buf nb : Nat) :
    b32DecodeFrom (c :: t) i buf nb = .error i := by
  obtain ⟨hpad, hval⟩ := badChar_eq_true_iff.1 h
  rw [b32DecodeFrom, if_neg hpad, hval]

theorem b32DecodeFrom_wait {c : Byte} {v nb : Nat} (h : symVal c = some v) (hnb : nb < 3) (t : List Byte)
    (i buf : Nat) : b32DecodeFrom (c :: t) i buf nb = b32DecodeFrom t (i + 1) ((32 * buf + v) % 2 ^ 12) (nb + 5) := by
  rw [b32DecodeFrom, if_neg (ne_padByte_of_symVal h), h]
  exact if_neg (by omega)

theorem b32DecodeFrom_emit {c : Byte} {v : Nat} (h : symVal c = some v) (nb : Nat) (t : List Byte) (i buf : Nat) :
    b32DecodeFrom (c :: t) i buf (nb + 3) =
      (b32DecodeFrom t (i + 1) ((32 * buf + v) % 2 ^ 12) nb).map
        (BitVec.ofNat 8 ((32 * buf + v) % 2 ^ 12 / 2 ^ nb) :: ·) := by
  rw [b32DecodeFrom, if_neg (ne_padByte_of_symVal h), h]
  simp only [if_pos (show nb + 3 + 5 ≥ 8 by omega), show nb + 3 + 5 - 8 = nb by omega]
  cases b32DecodeFrom t (i + 1) ((32 * buf + v) % 2 ^ 12) nb <;> rfl

/-! ## What decode answers -/

/-- Decode stops at the first bad character (R408). -/
theorem b32DecodeFrom_of_findIdx? {t : List Byte} {j : Nat} (h : t.findIdx? badChar = some j) (i buf nb : Nat) :
    b32DecodeFrom t i buf nb = .error (i + j) := by
  induction t generalizing i j buf nb with
  | nil => simp at h
  | cons c t ih =>
    rw [List.findIdx?_cons] at h
    cases hc : badChar c with
    | true =>
      obtain rfl : 0 = j := by simpa [hc] using h
      exact b32DecodeFrom_bad hc t i buf nb
    | false =>
      obtain ⟨k, hk, rfl⟩ : ∃ k, t.findIdx? badChar = some k ∧ k + 1 = j := by simpa [hc] using h
      have hidx : i + (k + 1) = i + 1 + k := by omega
      rw [hidx]
      obtain rfl | ⟨v, hv⟩ := badChar_eq_false_iff.1 hc
      · rw [b32DecodeFrom_pad, ih hk]
      · obtain hlt | hge := Nat.lt_or_ge nb 3
        · rw [b32DecodeFrom_wait hv hlt, ih hk]
        · obtain ⟨m, rfl⟩ := Nat.exists_eq_add_of_le' hge
          rw [b32DecodeFrom_emit hv, ih hk]; rfl

/-- The bytes decode emits when it holds nb bits, those of x, before the symbols vs: the whole bytes among all the bits
(R406). -/
def wholeBytes (x nb : Nat) (vs : List Nat) : List Byte :=
  let m := nb + 5 * vs.length
  bytesBe (m / 8) (appendSyms x vs / 2 ^ (m % 8))

theorem wholeBytes_wait (x nb v : Nat) (vs : List Nat) :
    wholeBytes x nb (v :: vs) = wholeBytes (32 * x + v) (nb + 5) vs := by
  have hm : nb + 5 * (vs.length + 1) = nb + 5 + 5 * vs.length := by ring
  rw [wholeBytes, wholeBytes, List.length_cons, hm, appendSyms_cons]

/-- Of 8 + nb bits, the first byte goes out and the nb low bits stay. -/
theorem wholeBytes_emit (x nb : Nat) {vs : List Nat} (hvs : ∀ v ∈ vs, v < 32) :
    wholeBytes x (nb + 8) vs = BitVec.ofNat 8 (x / 2 ^ nb) :: wholeBytes (x % 2 ^ nb) nb vs := by
  let m := nb + 5 * vs.length
  have hdiv : (nb + 8 + 5 * vs.length) / 8 = m / 8 + 1 := by simp only [m]; omega
  have hmod : (nb + 8 + 5 * vs.length) % 8 = m % 8 := by simp only [m]; omega
  have hpow : 2 ^ nb * 32 ^ vs.length = 256 ^ (m / 8) * 2 ^ (m % 8) := by
    rw [pow_32_eq, pow_256_eq, ← Nat.pow_add, ← Nat.pow_add, Nat.div_add_mod]
  have hsplit : appendSyms x vs / 2 ^ (m % 8) =
      x / 2 ^ nb * 256 ^ (m / 8) + appendSyms (x % 2 ^ nb) vs / 2 ^ (m % 8) := by
    conv_lhs => rw [← Nat.div_add_mod' x (2 ^ nb), appendSyms_add, Nat.mul_assoc, hpow, ← Nat.mul_assoc, Nat.add_comm,
      Nat.add_mul_div_right _ _ (by positivity), Nat.add_comm]
  have hlow : appendSyms (x % 2 ^ nb) vs / 2 ^ (m % 8) < 256 ^ (m / 8) := by
    rw [Nat.div_lt_iff_lt_mul (by positivity), ← hpow, pow_32_eq, ← Nat.pow_add]
    exact appendSyms_lt (Nat.mod_lt _ (by positivity)) hvs
  rw [wholeBytes, hdiv, hmod, hsplit, bytesBe_succ_cons _ _ _ hlow]
  rfl

/-- The bits above the 8 + nb held do not reach the byte that goes out. -/
theorem wholeBytes_buffer_emit (buf nb : Nat) {vs : List Nat} (hvs : ∀ v ∈ vs, v < 32) :
    wholeBytes (buf % 2 ^ (nb + 8)) (nb + 8) vs = BitVec.ofNat 8 (buf / 2 ^ nb) :: wholeBytes (buf % 2 ^ nb) nb vs := by
  have hbyte : BitVec.ofNat 8 (buf % 2 ^ (nb + 8) / 2 ^ nb) = BitVec.ofNat 8 (buf / 2 ^ nb) := by
    rw [Nat.pow_add, Nat.mod_mul_right_div_self]
    exact BitVec.eq_of_toNat_eq (by simp)
  rw [wholeBytes_emit _ _ hvs, hbyte, Nat.mod_mod_of_dvd _ (pow_dvd_pow 2 (Nat.le_add_right nb 8))]

/-- The 12-bit buffer keeps the bits held, for up to 7 of them before a symbol. -/
theorem buffer_mod {buf nb v : Nat} (hnb : nb < 8) (hv : v < 32) :
    (32 * buf + v) % 2 ^ 12 % 2 ^ (nb + 5) = 32 * (buf % 2 ^ nb) + v := by
  have hdiv : (32 * buf + v) / 2 ^ 5 = buf := by omega
  have hmod : (32 * buf + v) % 2 ^ 5 = v := by omega
  rw [Nat.mod_mod_of_dvd _ (pow_dvd_pow 2 (by omega)), Nat.add_comm nb, Nat.pow_add, Nat.mod_mul, hdiv, hmod]
  omega

/-- A text without a bad character decodes to the whole bytes of the bits held and the symbols' bits. -/
theorem b32DecodeFrom_eq_ok {t : List Byte} (h : ∀ c ∈ t, badChar c = false) (i buf : Nat) {nb : Nat} (hnb : nb < 8) :
    b32DecodeFrom t i buf nb = .ok (wholeBytes (buf % 2 ^ nb) nb (symVals t)) := by
  induction t generalizing i buf nb with
  | nil => simp [b32DecodeFrom, wholeBytes, symVals, Nat.div_eq_of_lt hnb, bytesBe]
  | cons c t ih =>
    obtain ⟨hc, ht⟩ := List.forall_mem_cons.1 h
    obtain rfl | ⟨v, hv⟩ := badChar_eq_false_iff.1 hc
    · rw [b32DecodeFrom_pad, symVals_pad_cons, ih ht _ _ hnb]
    · have hbuf := buffer_mod (buf := buf) hnb (symVal_lt hv)
      rw [symVals_cons hv, wholeBytes_wait, ← hbuf]
      obtain hlt | hge := Nat.lt_or_ge nb 3
      · rw [b32DecodeFrom_wait hv hlt, ih ht _ _ (by omega)]
      · obtain ⟨m, rfl⟩ := Nat.exists_eq_add_of_le' hge
        rw [b32DecodeFrom_emit hv, ih ht _ _ (by omega), wholeBytes_buffer_emit _ _ fun _ => symVals_lt]
        rfl

theorem b32Decode_eq_ok {t : List Byte} (h : ∀ c ∈ t, badChar c = false) :
    b32Decode t = .ok (wholeBytes 0 0 (symVals t)) :=
  b32DecodeFrom_eq_ok h 0 0 (by decide)

theorem b32Decode_eq_error_iff (t : List Byte) (i : Nat) : b32Decode t = .error i ↔ t.findIdx? badChar = some i := by
  cases h : t.findIdx? badChar with
  | none => simp [b32Decode_eq_ok (List.findIdx?_eq_none_iff.1 h)]
  | some j => simp [b32Decode, b32DecodeFrom_of_findIdx? h]

theorem b32Decode_eq_ok_iff (t r : List Byte) : b32Decode t = .ok r ↔
    (∀ c ∈ t, badChar c = false) ∧ wholeBytes 0 0 (symVals t) = r := by
  by_cases h : ∀ c ∈ t, badChar c = false
  · rw [b32Decode_eq_ok h, Except.ok.injEq, and_iff_right h]
  · obtain ⟨j, hj⟩ := Option.ne_none_iff_exists'.1 (mt List.findIdx?_eq_none_iff.1 h)
    simp [(b32Decode_eq_error_iff t j).2 hj, h]

/-- Settles O52: the error of decode is the index that a search for a bad character finds. -/
theorem base32DecodeFindsTheFirstBadCharacter : Obligations.Base32DecodeFindsTheFirstBadCharacter := by
  unfold Obligations.Base32DecodeFindsTheFirstBadCharacter
  intro t i
  rw [b32Decode_eq_error_iff, List.findIdx?_eq_some_iff_getElem]
  constructor
  · rintro ⟨hi, hbad, hbefore⟩
    obtain ⟨hpad, hval⟩ := badChar_eq_true_iff.1 hbad
    refine ⟨t[i], List.getElem?_eq_getElem hi, hpad, hval, fun j hj b hb => ?_⟩
    obtain ⟨hlt, rfl⟩ := List.getElem?_eq_some_iff.1 hb
    have hgood := badChar_eq_false_iff.1 (Bool.eq_false_of_not_eq_true (hbefore j hj))
    rwa [← Option.isSome_iff_exists] at hgood
  · rintro ⟨c, hc, hpad, hval, hbefore⟩
    obtain ⟨hi, rfl⟩ := List.getElem?_eq_some_iff.1 hc
    refine ⟨hi, badChar_eq_true_iff.2 ⟨hpad, hval⟩, fun j hj => ?_⟩
    have hgood := hbefore j hj t[j] (List.getElem?_eq_getElem _)
    rw [Option.isSome_iff_exists] at hgood
    rw [badChar_eq_false_iff.2 hgood]
    decide

/-- Settles O51: each group has 8 characters, and decode emits the whole bytes among the symbols' bits. -/
theorem base32Lengths : Obligations.Base32Lengths := by
  unfold Obligations.Base32Lengths
  refine ⟨b32Encode_length, fun t r h => ?_⟩
  obtain ⟨-, rfl⟩ := (b32Decode_eq_ok_iff t r).1 h
  rw [wholeBytes, bytesBe_length, Nat.zero_add, symVals_length]

/-! ## The symbols of an encoded text (R402) -/

/-- The k top symbols of a 40-bit V spell its 5 * k top bits. -/
theorem appendSyms_topDigits {V : Nat} (hV : V < 2 ^ 40) {k : Nat} (hk : k ≤ 8) :
    appendSyms 0 ((List.range k).map fun j => V / 2 ^ (35 - 5 * j) % 32) = V / 2 ^ (40 - 5 * k) := by
  induction k with
  | zero => exact (Nat.div_eq_of_lt hV).symm
  | succ k ih =>
    have hexp : 40 - 5 * k = 35 - 5 * k + 5 := by omega
    have hexp' : 40 - 5 * (k + 1) = 35 - 5 * k := by omega
    have hdiv : V / 2 ^ (35 - 5 * k + 5) = V / 2 ^ (35 - 5 * k) / 32 := by rw [Nat.pow_add, Nat.div_div_eq_div_mul]
    rw [List.range_succ, List.map_append, appendSyms_append, ih (by omega), hexp, hexp', hdiv]
    exact Nat.div_add_mod _ _

/-- A group of m bytes emits the symbols that its 8 * m bits reach into: fewer than 5 bits are padding (R402). -/
theorem groupSyms_bits {m : Nat} (h1 : 1 ≤ m) (h5 : m ≤ 5) :
    groupSyms m ≤ 8 ∧ ∃ p < 5, 5 * groupSyms m = 8 * m + p := by
  interval_cases m <;> decide

theorem b32Group_eq {c : List Byte} (h1 : 1 ≤ c.length) (h5 : c.length ≤ 5) : b32Group c =
    ((List.range (groupSyms c.length)).map fun j => alph (beNat (c ++ zeros (5 - c.length)) / 2 ^ (35 - 5 * j) % 32)) ++
      List.replicate (8 - groupSyms c.length) padByte := by
  have hk : min (groupSyms c.length) 8 = groupSyms c.length := Nat.min_eq_left (groupSyms_bits h1 h5).1
  rw [b32Group, ← List.map_take, List.take_range, hk]

theorem symVals_b32Group {c : List Byte} (h1 : 1 ≤ c.length) (h5 : c.length ≤ 5) : symVals (b32Group c) =
    (List.range (groupSyms c.length)).map fun j => beNat (c ++ zeros (5 - c.length)) / 2 ^ (35 - 5 * j) % 32 := by
  have hpads (n : Nat) : symVals (List.replicate n padByte) = [] := by simp [symVals]
  have hsyms (V : Nat) : (symVal ∘ fun j => alph (V / 2 ^ (35 - 5 * j) % 32)) =
      fun j => some (V / 2 ^ (35 - 5 * j) % 32) :=
    funext fun _ => symVal_alph (Nat.mod_lt _ (by decide))
  rw [b32Group_eq h1 h5, symVals_append, hpads, List.append_nil, symVals, List.filterMap_map, hsyms,
    List.filterMap_eq_map']

theorem not_badChar_of_mem_b32Group {c : List Byte} {x : Byte} (h : x ∈ b32Group c) : badChar x = false := by
  rw [badChar_eq_false_iff]
  obtain hsym | hpad := List.mem_append.1 h
  · obtain ⟨j, -, rfl⟩ := List.mem_map.1 (List.mem_of_mem_take hsym)
    exact .inr ⟨_, symVal_alph (Nat.mod_lt _ (by decide))⟩
  · exact .inl (List.eq_of_mem_replicate hpad)

theorem not_badChar_of_mem_b32Encode {s : List Byte} {x : Byte} (h : x ∈ b32Encode s) : badChar x = false := by
  induction s using b32Encode.induct with
  | case1 => simp [b32Encode] at h
  | case6 a b c d e rest ih =>
    rw [b32Encode, List.mem_append] at h
    exact h.elim not_badChar_of_mem_b32Group ih
  | _ => exact not_badChar_of_mem_b32Group h

/-- vs spells the bits of s, then p bits 0 of padding. -/
def SpellsBits (vs : List Nat) (s : List Byte) (p : Nat) : Prop :=
  5 * vs.length = 8 * s.length + p ∧ appendSyms 0 vs = beNat s * 2 ^ p

theorem SpellsBits.append {us vs : List Nat} {c s : List Byte} {p : Nat} (hu : SpellsBits us c 0)
    (hv : SpellsBits vs s p) : SpellsBits (us ++ vs) (c ++ s) p := by
  obtain ⟨hulen, hu⟩ := hu
  obtain ⟨hvlen, hv⟩ := hv
  refine ⟨by simp only [List.length_append]; omega, ?_⟩
  have hpow : 32 ^ vs.length = 256 ^ s.length * 2 ^ p := by
    rw [pow_32_eq, pow_256_eq, ← Nat.pow_add, hvlen]
  calc appendSyms 0 (us ++ vs) = appendSyms (beNat c + 0) vs := by simp [hu]
    _ = (beNat c * 256 ^ s.length + beNat s) * 2 ^ p := by rw [appendSyms_add, hpow, hv]; ring
    _ = beNat (c ++ s) * 2 ^ p := by rw [beNat_append]

theorem exists_spellsBits_b32Group {c : List Byte} (h1 : 1 ≤ c.length) (h5 : c.length ≤ 5) :
    ∃ p < 5, SpellsBits (symVals (b32Group c)) c p := by
  obtain ⟨hk, p, hp, hbits⟩ := groupSyms_bits h1 h5
  have hpow : 256 ^ (5 - c.length) = 2 ^ p * 2 ^ (40 - 5 * groupSyms c.length) := by
    have hexp : 8 * (5 - c.length) = p + (40 - 5 * groupSyms c.length) := by omega
    rw [pow_256_eq, ← Nat.pow_add, hexp]
  have hV : beNat (c ++ zeros (5 - c.length)) = beNat c * 2 ^ p * 2 ^ (40 - 5 * groupSyms c.length) := by
    rw [beNat_append, zeros_length, beNat_zeros, hpow, Nat.add_zero, Nat.mul_assoc]
  have hlt : beNat (c ++ zeros (5 - c.length)) < 2 ^ 40 := by
    have hlen : (c ++ zeros (5 - c.length)).length = 5 := by simp; omega
    simpa [hlen] using beNat_lt (c ++ zeros (5 - c.length))
  refine ⟨p, hp, ?_, ?_⟩
  · rw [symVals_b32Group h1 h5, List.length_map, List.length_range, hbits]
  · rw [symVals_b32Group h1 h5, appendSyms_topDigits hlt hk, hV, Nat.mul_div_cancel _ (by positivity)]

theorem exists_spellsBits_b32Encode (s : List Byte) : ∃ p < 5, SpellsBits (symVals (b32Encode s)) s p := by
  induction s using b32Encode.induct with
  | case1 => exact ⟨0, by decide, rfl, rfl⟩
  | case6 a b c d e rest ih =>
    obtain ⟨p, hp, hrest⟩ := ih
    obtain ⟨q, hq, hgroup⟩ := exists_spellsBits_b32Group (c := [a, b, c, d, e]) (by simp) (by simp)
    have hwhole : q = 0 := by
      have hlen : 5 * (symVals (b32Group [a, b, c, d, e])).length = 8 * 5 + q := hgroup.1
      omega
    rw [b32Encode, symVals_append]
    exact ⟨p, hp, .append (hwhole ▸ hgroup) hrest⟩
  | _ => exact exists_spellsBits_b32Group (by simp) (by simp)

theorem SpellsBits.wholeBytes_eq {vs : List Nat} {s : List Byte} {p : Nat} (h : SpellsBits vs s p) (hp : p < 5) :
    wholeBytes 0 0 vs = s := by
  obtain ⟨hlen, hval⟩ := h
  have hdiv : (0 + 5 * vs.length) / 8 = s.length := by omega
  have hmod : (0 + 5 * vs.length) % 8 = p := by omega
  rw [wholeBytes, hdiv, hmod, hval, Nat.mul_div_cancel _ (by positivity), bytesBe_beNat]

/-- Settles O50: the symbols of the encoded text spell the bits of s and fewer than 5 more, and decode emits the whole bytes
of them. -/
theorem base32RoundTrip : Obligations.Base32RoundTrip := by
  unfold Obligations.Base32RoundTrip
  intro s
  obtain ⟨p, hp, hs⟩ := exists_spellsBits_b32Encode s
  rw [b32Decode_eq_ok fun _ => not_badChar_of_mem_b32Encode, hs.wholeBytes_eq hp]

/-! ## Running a chain of checks -/

theorem bind_of_eq_ok {α β : Type} {x : Except Abort α} {a : α} (h : x = .ok a) (f : α → Except Abort β) :
    (x >>= f) = f a := by subst h; rfl

theorem bind_of_eq_error {α β : Type} {x : Except Abort α} {e : Abort} (h : x = .error e) (f : α → Except Abort β) :
    (x >>= f) = .error e := by subst h; rfl

theorem needRange_of_le {s : State} {i : Fin 8} {n : Nat} (h : s.a i + n ≤ 1024) : needRange s i n = .ok () :=
  needRange_eq_ok.2 h

theorem needRange_of_lt {s : State} {i : Fin 8} {n : Nat} (h : 1024 < s.a i + n) :
    needRange s i n = .error (.error .bufferRange (BitVec.ofNat 32 i)) := needRange_eq_error.2 ⟨h, rfl⟩

theorem memRead_of_ok {s : State} {i : Fin 8} {n : Nat} {bs : List Byte} (h : s.dbuf.readBytes (s.a i) n = .ok bs) :
    memRead s i n = .ok bs := memRead_eq_ok.2 h

theorem memRead_of_error {s : State} {i : Fin 8} {n : Nat} {f : Fault} (h : s.dbuf.readBytes (s.a i) n = .error f) :
    memRead s i n = .error (.fault f) := memRead_eq_error.2 ⟨f, h, rfl⟩

/-! ## The two commands (R420, R421) -/

/-- Settles O25: each clause runs `execB32Enc` as far as its first failed check. -/
theorem b32EncFollowsItsRule : Obligations.B32EncFollowsItsRule := by
  unfold Obligations.B32EncFollowsItsRule
  intro s
  simp only [exec, execB32Enc, b32EncodeLen]
  refine ⟨fun hsrc => ?_, fun hsrc hdst => ?_, fun hsrc hdst => ?_⟩
  · rw [bind_of_eq_error (needRange_of_lt hsrc)]
    rfl
  · rw [bind_of_eq_ok (needRange_of_le hsrc), bind_of_eq_error (needRange_of_lt hdst)]
    rfl
  · rw [bind_of_eq_ok (needRange_of_le hsrc), bind_of_eq_ok (needRange_of_le hdst)]
    refine ⟨fun src hread => ?_, fun f hread => ?_⟩
    · rw [bind_of_eq_ok (memRead_of_ok hread)]
      rfl
    · rw [bind_of_eq_error (memRead_of_error hread)]
      rfl

/-- Settles O26: each clause runs `execB32Dec` as far as its first failed check; the destination's is the last. -/
theorem b32DecFollowsItsRule : Obligations.B32DecFollowsItsRule := by
  unfold Obligations.B32DecFollowsItsRule
  intro s
  simp only [exec, execB32Dec]
  refine ⟨fun hsrc => ?_, fun hsrc => ?_⟩
  · rw [bind_of_eq_error (needRange_of_lt hsrc)]
    rfl
  · rw [bind_of_eq_ok (needRange_of_le hsrc)]
    refine ⟨fun f hread => ?_, fun txt hread => ?_⟩
    · rw [bind_of_eq_error (memRead_of_error hread)]
      rfl
    · rw [bind_of_eq_ok (memRead_of_ok hread)]
      refine ⟨fun i hbad => ?_, fun r hdec hdst => ?_, fun r hdec hdst => ?_⟩
      · rw [bind_of_eq_error (decodeText_eq_error.2 ⟨i, hbad, rfl⟩)]
        rfl
      · rw [bind_of_eq_ok (decodeText_eq_ok.2 hdec), bind_of_eq_error (needRange_of_lt hdst)]
        rfl
      · rw [bind_of_eq_ok (decodeText_eq_ok.2 hdec), bind_of_eq_ok (needRange_of_le hdst)]
        rfl

end Sys2Proof.Machine
end

section
/-! PROOFS. The family of 41_sha1.md: the four SHA-1 commands (O27 to O30), who changes the contexts (O44), the digest's size
and the block counts (O55), and the message SC has absorbed (O53). -/

namespace Sys2Proof.Machine

/-! ## The digest as words (R507, 10_state.md R111) -/

theorem be32_bytesBe32_append (w : Word) (t : List Byte) : be32 (bytesBe32 w ++ t) 0 = w := by
  apply BitVec.eq_of_toNat_eq
  have hw := w.isLt
  simp [be32, bytesBe32, bytesBe]
  omega

/-- Past the four bytes of a word the next one begins. -/
theorem be32_bytesBe32_append_add (w : Word) (t : List Byte) (i : Nat) : be32 (bytesBe32 w ++ t) (i + 4) = be32 t i := by
  have hpast (k : Nat) : (bytesBe32 w ++ t).getD (k + 4) 0 = t.getD k 0 := by
    rw [List.getD_append_right _ _ _ _ (by simp), bytesBe32_length, Nat.add_sub_cancel]
  simp only [be32, hpast, Nat.add_right_comm i 4]

/-- The digest registers hold the hash words themselves: `be32` undoes `bytes_be32`. -/
theorem State.putDigest_digestBytes (s : State) (h : HashState) :
    s.putDigest (digestBytes h) = { s with digest := #v[h.h0, h.h1, h.h2, h.h3, h.h4] } := by
  have hwords : digestBytes h =
      bytesBe32 h.h0 ++ (bytesBe32 h.h1 ++ (bytesBe32 h.h2 ++ (bytesBe32 h.h3 ++ (bytesBe32 h.h4 ++ [])))) := by
    simp [digestBytes]
  rw [State.putDigest, hwords]
  simp only [be32_bytesBe32_append, be32_bytesBe32_append_add]

/-! ## The checks of the streaming commands (R521, R522) -/

theorem requireNotFinalized_of_ne {s : State} (h : s.sc.st ≠ .finalized) :
    require (s.sc.st != .finalized) .contextFinalized 0 = .ok () :=
  require_eq_ok.2 (bne_iff_ne.2 h)

theorem requireNotFinalized_of_eq {s : State} (h : s.sc.st = .finalized) :
    require (s.sc.st != .finalized) .contextFinalized 0 = .error (.error .contextFinalized 0) :=
  require_eq_error.2 ⟨by rw [h]; rfl, rfl⟩

theorem requireMsgLength_of_le {n : Nat} (h : n ≤ Config.maxMsgBytes) :
    require (n ≤ Config.maxMsgBytes) .msgTooLong 0 = .ok () :=
  require_eq_ok.2 (decide_eq_true h)

theorem requireMsgLength_of_lt {n : Nat} (h : Config.maxMsgBytes < n) :
    require (n ≤ Config.maxMsgBytes) .msgTooLong 0 = .error (.error .msgTooLong 0) :=
  require_eq_error.2 ⟨decide_eq_false (Nat.not_le.2 h), rfl⟩

/-! ## The four commands (R520 to R523) -/

/-- Settles O27: the rule has no check. -/
theorem shaInitFollowsItsRule : Obligations.ShaInitFollowsItsRule := by
  unfold Obligations.ShaInitFollowsItsRule
  exact execShaInit_eq

/-- Settles O28: each clause runs `execShaUpdate` as far as its first failed check. -/
theorem shaUpdateFollowsItsRule : Obligations.ShaUpdateFollowsItsRule := by
  unfold Obligations.ShaUpdateFollowsItsRule
  intro s
  simp only [exec, execShaUpdate]
  refine ⟨fun hfin => ?_, fun hopen hsrc => ?_, fun hopen hsrc hlen => ?_, fun hopen hsrc hlen => ?_⟩
  · rw [bind_of_eq_error (requireNotFinalized_of_eq hfin)]
    rfl
  · rw [bind_of_eq_ok (requireNotFinalized_of_ne hopen), bind_of_eq_error (needRange_of_lt hsrc)]
    rfl
  · rw [bind_of_eq_ok (requireNotFinalized_of_ne hopen), bind_of_eq_ok (needRange_of_le hsrc),
      bind_of_eq_error (requireMsgLength_of_lt hlen)]
    rfl
  · rw [bind_of_eq_ok (requireNotFinalized_of_ne hopen), bind_of_eq_ok (needRange_of_le hsrc),
      bind_of_eq_ok (requireMsgLength_of_le hlen)]
    refine ⟨fun m hread => ?_, fun f hread => ?_⟩
    · rw [bind_of_eq_ok (memRead_of_ok hread)]
      rfl
    · rw [bind_of_eq_error (memRead_of_error hread)]
      rfl

/-- Settles O29: each clause runs `execShaFinal` as far as its first failed check; DIGEST0..4 are the words of H'. -/
theorem shaFinalFollowsItsRule : Obligations.ShaFinalFollowsItsRule := by
  unfold Obligations.ShaFinalFollowsItsRule
  intro s h nf hfinal
  simp only [exec, execShaFinal, hfinal, State.putBytes, State.putDigest_digestBytes]
  refine ⟨fun hfin => ?_, fun hopen hdst => ?_, fun hopen hdst => ?_⟩
  · rw [bind_of_eq_error (requireNotFinalized_of_eq hfin)]
    rfl
  · rw [bind_of_eq_ok (requireNotFinalized_of_ne hopen), bind_of_eq_error (needRange_of_lt hdst)]
    rfl
  · rw [bind_of_eq_ok (requireNotFinalized_of_ne hopen), bind_of_eq_ok (needRange_of_le hdst)]
    rfl

/-- Settles O30: each clause runs `execShaHash` as far as its first failed check; both ranges come before the read. -/
theorem shaHashFollowsItsRule : Obligations.ShaHashFollowsItsRule := by
  unfold Obligations.ShaHashFollowsItsRule
  intro s
  simp only [exec, execShaHash, hashBlocks]
  refine ⟨fun hsrc => ?_, fun hsrc hdst => ?_, fun hsrc hdst => ?_⟩
  · rw [bind_of_eq_error (needRange_of_lt hsrc)]
    rfl
  · rw [bind_of_eq_ok (needRange_of_le hsrc), bind_of_eq_error (needRange_of_lt hdst)]
    rfl
  · rw [bind_of_eq_ok (needRange_of_le hsrc), bind_of_eq_ok (needRange_of_le hdst)]
    refine ⟨fun m hread => ?_, fun f hread => ?_⟩
    · rw [bind_of_eq_ok (memRead_of_ok hread)]
      rfl
    · rw [bind_of_eq_error (memRead_of_error hread)]
      rfl

/-! ## Who changes the contexts (R511, 10_state.md R120, R121) -/

/-- Settles O44: an error keeps both contexts, and of the completions only the three SHA ones name SC and the three HMAC
ones HC; every other hash runs on a transient context. -/
theorem onlyTheStreamingCommandsChangeTheContexts : Obligations.OnlyTheStreamingCommandsChangeTheContexts := by
  unfold Obligations.OnlyTheStreamingCommandsChangeTheContexts
  intro i s t h
  cases i with
  | shaInit => rw [exec, execShaInit_eq] at h; cases h; simp
  | shaUpdate => obtain ⟨_, _, -, rfl⟩ | ⟨_, -, -, -, -, rfl⟩ := execShaUpdate_next h <;> simp
  | shaFinal => obtain ⟨_, _, -, rfl⟩ | ⟨-, -, rfl⟩ := execShaFinal_next h <;> simp
  | hmacSetkey => obtain ⟨_, _, -, rfl⟩ | ⟨_, _, -, -, -, rfl⟩ := execHmacSetkey_next h <;> simp
  | hmacUpdate => obtain ⟨_, _, -, rfl⟩ | ⟨_, -, -, -, -, rfl⟩ := execHmacUpdate_next h <;> simp
  | hmacFinal => obtain ⟨_, _, -, rfl⟩ | ⟨-, -, rfl⟩ := execHmacFinal_next h <;> simp
  | b32Enc => obtain ⟨_, _, -, rfl⟩ | ⟨_, -, -, -, rfl⟩ := execB32Enc_next h <;> simp
  | b32Dec => obtain ⟨_, _, -, rfl⟩ | ⟨_, _, -, -, -, -, rfl⟩ := execB32Dec_next h <;> simp
  | shaHash => obtain ⟨_, _, -, rfl⟩ | ⟨_, -, -, -, rfl⟩ := execShaHash_next h <;> simp
  | hmacMac => obtain ⟨_, _, -, rfl⟩ | ⟨_, _, _, -, -, -, -, -, -, rfl⟩ := execHmacMac_next h <;> simp
  | hotpGen => obtain ⟨_, _, -, rfl⟩ | ⟨_, _, _, -, -, -, -, -, -, rfl⟩ := execHotpGen_next h <;> simp
  | hotpTrunc => obtain ⟨_, _, -, rfl⟩ | ⟨_, -, -, -, -, rfl⟩ := execHotpTrunc_next h <;> simp
  | totpGen src => obtain ⟨_, _, -, rfl⟩ | ⟨_, _, _, -, -, -, -, -, -, -, rfl⟩ := execTotpGen_next src h <;> simp
  | totpVerify src =>
    obtain ⟨_, _, -, rfl⟩ | ⟨_, _, _, _, -, -, -, -, -, -, -, -, rfl⟩ := execTotpVerify_next src h <;> simp
  | totpRemsec src => obtain ⟨_, _, -, rfl⟩ | ⟨-, rfl⟩ := execTotpRemsec_next src h <;> simp
  | totpRempct src => obtain ⟨_, _, -, rfl⟩ | ⟨-, rfl⟩ := execTotpRempct_next src h <;> simp

/-! ## Block counts (R508) -/

theorem sha1Update_blocks (x : Stream) (s : List Byte) : (sha1Update x s).2 = (x.rem.length + s.length) / 64 := by
  rw [sha1Update, List.length_append]

/-- With the byte 0x80 after it the remainder still leaves 8 bytes for the length exactly when it has at most 55. -/
theorem sha1Final_blocks (x : Stream) : (sha1Final x).2 = if x.rem.length ≤ 55 then 1 else 2 := by
  by_cases h : x.rem.length ≤ 55
  · simp [sha1Final, h, show ¬56 < x.rem.length + 1 by omega]
  · simp [sha1Final, h, show 56 < x.rem.length + 1 by omega]

/-- Settles O55: an update compresses the whole blocks and leaves the rest of the message as the remainder. -/
theorem digestSizeAndBlockCount : Obligations.DigestSizeAndBlockCount := by
  unfold Obligations.DigestSizeAndBlockCount
  refine ⟨sha1_length, fun x _ => sha1Final_blocks x, fun s => ?_⟩
  have hlen : Stream.initial.rem.length + s.length = s.length := Nat.zero_add _
  rw [sha1Final_blocks, sha1Update_blocks, sha1Update_rem_length, hlen]

/-! ## The message SC has absorbed (R512) -/

/-- COUNT has counted the message, so the limit of R521 is on the message's length. -/
theorem ShaCtx.Absorbed.count {c : ShaCtx} {m : List Byte} (h : c.Absorbed m) : c.stream.count = m.length := by
  obtain ⟨-, hstream⟩ := h
  rw [hstream, sha1Update_count, Stream.initial, Nat.zero_add]

theorem ShaCtx.absorbed_init : ShaCtx.Absorbed { stream := Stream.initial, st := .init } [] := ⟨nofun, rfl⟩

/-- One more update appends to the absorbed message. -/
theorem ShaCtx.Absorbed.update {c : ShaCtx} {m : List Byte} (h : c.Absorbed m) (src : List Byte) :
    ShaCtx.Absorbed { stream := (sha1Update c.stream src).1, st := .updating } (m ++ src) := by
  obtain ⟨-, hstream⟩ := h
  exact ⟨nofun, by rw [hstream, sha1Update_append]⟩

theorem ShaCtx.Absorbed.digest {c : ShaCtx} {m : List Byte} (h : c.Absorbed m) :
    digestBytes (sha1Final c.stream).1 = sha1 m := by
  obtain ⟨-, hstream⟩ := h
  rw [hstream, sha1]

/-- Settles O53: `ShaCtx.Absorbed` holds after SHA_INIT, SHA_UPDATE keeps it by `sha1Update_append`, and SHA_FINAL stores the
digest it determines. -/
theorem shaContextTracksItsMessage : Obligations.ShaContextTracksItsMessage := by
  unfold Obligations.ShaContextTracksItsMessage
  intro s
  refine ⟨⟨_, shaInitFollowsItsRule s, ShaCtx.absorbed_init⟩, fun m habs => ?_⟩
  have ⟨hopen, _⟩ := habs
  refine ⟨fun src hsrc hlen hread => ?_, fun hdst => ?_⟩
  · obtain ⟨-, -, -, hrun⟩ := shaUpdateFollowsItsRule s
    obtain ⟨hcomplete, -⟩ := hrun hopen hsrc (by rwa [habs.count])
    exact ⟨_, hcomplete src hread, habs.update src⟩
  · obtain ⟨-, -, hcomplete⟩ := shaFinalFollowsItsRule s (sha1Final s.sc.stream).1 (sha1Final s.sc.stream).2 rfl
    refine ⟨_, hcomplete hopen hdst, ?_, rfl⟩
    rw [State.complete_dbuf, habs.digest]

end Sys2Proof.Machine
end

section
/-! PROOFS. The family of 42_hmac.md: the four HMAC commands (O31 to O34), and the message HC has absorbed under its key
block (O54). -/

namespace Sys2Proof.Machine

/-! ## The checks of the HMAC commands (R620 to R623) -/

theorem requireKey_of_ne {n : Nat} (h : n ≠ 0) : require (n != 0) .emptyHmacKey 0 = .ok () :=
  require_eq_ok.2 (bne_iff_ne.2 h)

theorem requireKey_of_eq {n : Nat} (h : n = 0) : require (n != 0) .emptyHmacKey 0 = .error (.error .emptyHmacKey 0) :=
  require_eq_error.2 ⟨by rw [h]; rfl, rfl⟩

theorem needKeyed_of_keyed {s : State} (h : s.hc.st = .keyed) : needKeyed s = .ok () := needKeyed_eq_ok.2 h

theorem needKeyed_of_noKey {s : State} (h : s.hc.st = .noKey) : needKeyed s = .error (.error .noKey 0) :=
  needKeyed_eq_error.2 (.inl ⟨h, rfl⟩)

theorem needKeyed_of_finalized {s : State} (h : s.hc.st = .finalized) :
    needKeyed s = .error (.error .contextFinalized 1) := needKeyed_eq_error.2 (.inr ⟨h, rfl⟩)

/-! ## The key block and the MAC of a key that was read (R600, R602) -/

/-- A key of one byte or more has a key block. -/
theorem exists_hmacK0_of_readBytes {m : Memory} {off n : Nat} {k : List Byte} (hread : m.readBytes off n = .ok k)
    (hn : n ≠ 0) : ∃ k0, hmacK0 k = .ok k0 := by
  have hlen : k.length = n := Memory.readBytes_length hread
  exact ⟨_, hmacK0_eq_ok.2 ⟨List.ne_nil_of_length_pos (by omega), rfl⟩⟩

theorem hmacSha1_of_hmacK0 {k k0 : List Byte} (h : hmacK0 k = .ok k0) (m : List Byte) :
    hmacSha1 k m = .ok (hmacWithBlock k0 m) := hmacSha1_eq_ok.2 ⟨k0, h, rfl⟩

/-! ## The four commands (R620 to R623) -/

/-- Settles O31: each clause runs `execHmacSetkey` as far as its first failed check; past the check on n the key has a key
block. -/
theorem hmacSetkeyFollowsItsRule : Obligations.HmacSetkeyFollowsItsRule := by
  unfold Obligations.HmacSetkeyFollowsItsRule
  intro s
  simp only [exec, execHmacSetkey]
  refine ⟨fun hkey => ?_, fun hkey hempty => ?_, fun hkey hne => ?_⟩
  · rw [bind_of_eq_error (needRange_of_lt hkey)]
    rfl
  · rw [bind_of_eq_ok (needRange_of_le hkey), bind_of_eq_error (requireKey_of_eq hempty)]
    rfl
  · rw [bind_of_eq_ok (needRange_of_le hkey), bind_of_eq_ok (requireKey_of_ne hne)]
    refine ⟨fun k hread => ?_, fun f hread => ?_⟩
    · obtain ⟨k0, hk0⟩ := exists_hmacK0_of_readBytes hread hne
      rw [bind_of_eq_ok (memRead_of_ok hread), bind_of_eq_ok hk0]
      exact ⟨k0, hk0, rfl⟩
    · rw [bind_of_eq_error (memRead_of_error hread)]
      rfl

/-- Settles O32: each clause runs `execHmacUpdate` as far as its first failed check. -/
theorem hmacUpdateFollowsItsRule : Obligations.HmacUpdateFollowsItsRule := by
  unfold Obligations.HmacUpdateFollowsItsRule
  intro s
  simp only [exec, execHmacUpdate]
  refine ⟨fun hnone => ?_, fun hfin => ?_, fun hkeyed hsrc => ?_, fun hkeyed hsrc hlen => ?_, fun hkeyed hsrc hlen => ?_⟩
  · rw [bind_of_eq_error (needKeyed_of_noKey hnone)]
    rfl
  · rw [bind_of_eq_error (needKeyed_of_finalized hfin)]
    rfl
  · rw [bind_of_eq_ok (needKeyed_of_keyed hkeyed), bind_of_eq_error (needRange_of_lt hsrc)]
    rfl
  · rw [bind_of_eq_ok (needKeyed_of_keyed hkeyed), bind_of_eq_ok (needRange_of_le hsrc),
      bind_of_eq_error (requireMsgLength_of_lt hlen)]
    rfl
  · rw [bind_of_eq_ok (needKeyed_of_keyed hkeyed), bind_of_eq_ok (needRange_of_le hsrc),
      bind_of_eq_ok (requireMsgLength_of_le hlen)]
    refine ⟨fun m hread => ?_, fun f hread => ?_⟩
    · rw [bind_of_eq_ok (memRead_of_ok hread)]
      rfl
    · rw [bind_of_eq_error (memRead_of_error hread)]
      rfl

/-- Settles O33: each clause runs `execHmacFinal` as far as its first failed check. -/
theorem hmacFinalFollowsItsRule : Obligations.HmacFinalFollowsItsRule := by
  unfold Obligations.HmacFinalFollowsItsRule
  rintro s d rfl
  simp only [exec, execHmacFinal, hmacFinalDigest]
  refine ⟨fun hnone => ?_, fun hfin => ?_, fun hkeyed hdst => ?_, fun hkeyed hdst => ?_⟩
  · rw [bind_of_eq_error (needKeyed_of_noKey hnone)]
    rfl
  · rw [bind_of_eq_error (needKeyed_of_finalized hfin)]
    rfl
  · rw [bind_of_eq_ok (needKeyed_of_keyed hkeyed), bind_of_eq_error (needRange_of_lt hdst)]
    rfl
  · rw [bind_of_eq_ok (needKeyed_of_keyed hkeyed), bind_of_eq_ok (needRange_of_le hdst)]
    rfl

/-- Settles O34: each clause runs `execHmacMac` as far as its first failed check; the three ranges and the check on the key's
length come before both reads. -/
theorem hmacMacFollowsItsRule : Obligations.HmacMacFollowsItsRule := by
  unfold Obligations.HmacMacFollowsItsRule
  intro s
  simp only [exec, execHmacMac]
  refine ⟨fun hkey => ?_, fun hkey hsrc => ?_, fun hkey hsrc hdst => ?_, fun hkey hsrc hdst hempty => ?_,
    fun hkey hsrc hdst hne => ?_⟩
  · rw [bind_of_eq_error (needRange_of_lt hkey)]
    rfl
  · rw [bind_of_eq_ok (needRange_of_le hkey), bind_of_eq_error (needRange_of_lt hsrc)]
    rfl
  · rw [bind_of_eq_ok (needRange_of_le hkey), bind_of_eq_ok (needRange_of_le hsrc), bind_of_eq_error (needRange_of_lt hdst)]
    rfl
  · rw [bind_of_eq_ok (needRange_of_le hkey), bind_of_eq_ok (needRange_of_le hsrc), bind_of_eq_ok (needRange_of_le hdst),
      bind_of_eq_error (requireKey_of_eq hempty)]
    rfl
  · rw [bind_of_eq_ok (needRange_of_le hkey), bind_of_eq_ok (needRange_of_le hsrc), bind_of_eq_ok (needRange_of_le hdst),
      bind_of_eq_ok (requireKey_of_ne hne)]
    refine ⟨fun f hreadKey => ?_, fun k hreadKey => ?_⟩
    · rw [bind_of_eq_error (memRead_of_error hreadKey)]
      rfl
    · rw [bind_of_eq_ok (memRead_of_ok hreadKey)]
      refine ⟨fun f hread => ?_, fun m hread => ?_⟩
      · rw [bind_of_eq_error (memRead_of_error hread)]
        rfl
      · obtain ⟨k0, hk0⟩ := exists_hmacK0_of_readBytes hreadKey hne
        rw [bind_of_eq_ok (memRead_of_ok hread), bind_of_eq_ok (hmacSha1_of_hmacK0 hk0 m)]
        exact ⟨_, hmacSha1_of_hmacK0 hk0 m, rfl⟩

/-! ## The message HC has absorbed (R604) -/

@[simp] theorem ipadBlock_length (k0 : List Byte) : (ipadBlock k0).length = k0.length := List.length_map _

/-- Right after HMAC_SETKEY the ipad block stands in INNER with no message after it. -/
theorem HmacCtx.absorbed_setkey (k0 : List Byte) :
    HmacCtx.Absorbed { k0 := k0, inner := innerStart k0, st := .keyed } k0 [] :=
  ⟨rfl, rfl, by rw [innerStart, List.append_nil]⟩

/-- INNER.COUNT has counted the 64 bytes of the ipad block and the message, so the limit of R621 is on both. -/
theorem HmacCtx.Absorbed.count {c : HmacCtx} {k k0 m : List Byte} (h : c.Absorbed k0 m) (hk0 : hmacK0 k = .ok k0) :
    c.inner.count = 64 + m.length := by
  obtain ⟨-, -, hinner⟩ := h
  rw [hinner, sha1Update_count, Stream.initial, Nat.zero_add, List.length_append, ipadBlock_length, hmacK0_length hk0]

/-- One more update appends to the absorbed message, under the same key block. -/
theorem HmacCtx.Absorbed.update {c : HmacCtx} {k0 m : List Byte} (h : c.Absorbed k0 m) (src : List Byte) :
    HmacCtx.Absorbed { c with inner := (sha1Update c.inner src).1 } k0 (m ++ src) := by
  obtain ⟨hkeyed, hblock, hinner⟩ := h
  exact ⟨hkeyed, hblock, by rw [hinner, sha1Update_append, List.append_assoc]⟩

/-- The outer hash over the finished inner one is the one-shot MAC of the absorbed message. -/
theorem HmacCtx.Absorbed.finalDigest {c : HmacCtx} {k0 m : List Byte} (h : c.Absorbed k0 m) :
    hmacFinalDigest c = hmacWithBlock k0 m := by
  obtain ⟨-, hblock, hinner⟩ := h
  have hdigest : digestBytes (sha1Final c.inner).1 = sha1 (ipadBlock k0 ++ m) := by rw [hinner, sha1]
  rw [hmacFinalDigest, hdigest, hblock, hmacWithBlock]

/-- Settles O54: `HmacCtx.Absorbed` holds after HMAC_SETKEY, HMAC_UPDATE keeps it by `sha1Update_append`, and HMAC_FINAL
stores the MAC it determines. -/
theorem hmacContextTracksItsMessage : Obligations.HmacContextTracksItsMessage := by
  unfold Obligations.HmacContextTracksItsMessage
  intro s
  refine ⟨fun k hkey hne hread => ?_, fun k k0 m hk0 habs => ?_⟩
  · obtain ⟨-, -, hrun⟩ := hmacSetkeyFollowsItsRule s
    obtain ⟨hcomplete, -⟩ := hrun hkey hne
    obtain ⟨k0, hk0, hnext⟩ := hcomplete k hread
    exact ⟨_, k0, hk0, hnext, HmacCtx.absorbed_setkey k0⟩
  have ⟨hkeyed, _, _⟩ := habs
  refine ⟨fun src hsrc hlen hread => ?_, fun hdst => ?_⟩
  · obtain ⟨-, -, -, -, hrun⟩ := hmacUpdateFollowsItsRule s
    obtain ⟨hcomplete, -⟩ := hrun hkeyed hsrc (by rwa [habs.count hk0])
    exact ⟨_, hcomplete src hread, habs.update src⟩
  · obtain ⟨-, -, -, hcomplete⟩ := hmacFinalFollowsItsRule s (hmacFinalDigest s.hc) rfl
    refine ⟨_, _, hmacSha1_of_hmacK0 hk0 m, hcomplete hkeyed hdst, ?_, rfl⟩
    rw [State.complete_dbuf, State.putDigest_dbuf, State.putBytes_dbuf, habs.finalDigest]

end Sys2Proof.Machine
end

section
/-! PROOFS. The family of 43_hotp.md: the two HOTP commands (O35, O36), and the truncated value and its code text (O56). -/

namespace Sys2Proof.Machine

/-! ## The steps of the HOTP commands (R703 to R705) -/

theorem needDigits_of_le {s : State} (hlo : 1 ≤ s.d) (hhi : s.d ≤ 9) : needDigits s = .ok () :=
  needDigits_eq_ok.2 ⟨hlo, hhi⟩

theorem needDigits_of_lt_or_lt {s : State} (h : s.d < 1 ∨ 9 < s.d) : needDigits s = .error (.error .badConfig 1) :=
  needDigits_eq_error.2 ⟨h, rfl⟩

theorem secretKey_of_ok {t key : List Byte} (hdec : b32Decode t = .ok key) (hne : key ≠ []) :
    secretKey t = .ok key := secretKey_eq_ok.2 ⟨hdec, hne⟩

theorem secretKey_of_error {t : List Byte} {i : Nat} (h : b32Decode t = .error i) :
    secretKey t = .error (.error .invalidSecret (BitVec.ofNat 32 i)) := secretKey_eq_error.2 (.inl ⟨i, h, rfl⟩)

theorem secretKey_of_nil {t : List Byte} (h : b32Decode t = .ok []) :
    secretKey t = .error (.error .invalidSecret 0xFFFFFFFF) := secretKey_eq_error.2 (.inr ⟨h, rfl⟩)

theorem exists_hmacSha1_of_ne_nil {key : List Byte} (hne : key ≠ []) (m : List Byte) : ∃ d, hmacSha1 key m = .ok d :=
  ⟨_, hmacSha1_of_hmacK0 (hmacK0_eq_ok.2 ⟨hne, rfl⟩) m⟩

theorem hotp_of_hmacSha1 {key d : List Byte} {c : Nat} (h : hmacSha1 key (bytesBe64 c) = .ok d) (digits : Nat) :
    hotp key c digits = .ok (hotpOfDigest d digits) := hotp_eq_ok.2 ⟨d, h, rfl⟩

/-! ## The two commands (R720, R721) -/

/-- Settles O35: each clause runs `execHotpGen` as far as its first failed check; a secret that decodes to a
byte or more has a MAC of the counter. -/
theorem hotpGenFollowsItsRule : Obligations.HotpGenFollowsItsRule := by
  unfold Obligations.HotpGenFollowsItsRule
  intro s
  simp only [exec, execHotpGen]
  refine ⟨fun hdigits => ?_, fun hlo hhi hsrc => ?_, fun hlo hhi hsrc hdst => ?_, fun hlo hhi hsrc hdst => ?_⟩
  · rw [bind_of_eq_error (needDigits_of_lt_or_lt hdigits)]
    rfl
  · rw [bind_of_eq_ok (needDigits_of_le hlo hhi), bind_of_eq_error (needRange_of_lt hsrc)]
    rfl
  · rw [bind_of_eq_ok (needDigits_of_le hlo hhi), bind_of_eq_ok (needRange_of_le hsrc),
      bind_of_eq_error (needRange_of_lt hdst)]
    rfl
  · rw [bind_of_eq_ok (needDigits_of_le hlo hhi), bind_of_eq_ok (needRange_of_le hsrc),
      bind_of_eq_ok (needRange_of_le hdst)]
    refine ⟨fun f hread => ?_, fun txt hread => ?_⟩
    · rw [bind_of_eq_error (memRead_of_error hread)]
      rfl
    · rw [bind_of_eq_ok (memRead_of_ok hread)]
      refine ⟨fun i hbad => ?_, fun hnil => ?_, fun key hdec hne => ?_⟩
      · rw [bind_of_eq_error (secretKey_of_error hbad)]
        rfl
      · rw [bind_of_eq_error (secretKey_of_nil hnil)]
        rfl
      · obtain ⟨d, hd⟩ := exists_hmacSha1_of_ne_nil hne (bytesBe64 s.a64)
        rw [bind_of_eq_ok (secretKey_of_ok hdec hne), bind_of_eq_ok (hotp_of_hmacSha1 hd s.d)]
        exact ⟨d, hd, rfl⟩

/-- Settles O36: each clause runs `execHotpTrunc` as far as its first failed check. -/
theorem hotpTruncFollowsItsRule : Obligations.HotpTruncFollowsItsRule := by
  unfold Obligations.HotpTruncFollowsItsRule
  intro s
  simp only [exec, execHotpTrunc]
  refine ⟨fun hdigits => ?_, fun hlo hhi hsrc => ?_, fun hlo hhi hsrc hdst => ?_, fun hlo hhi hsrc hdst => ?_⟩
  · rw [bind_of_eq_error (needDigits_of_lt_or_lt hdigits)]
    rfl
  · rw [bind_of_eq_ok (needDigits_of_le hlo hhi), bind_of_eq_error (needRange_of_lt hsrc)]
    rfl
  · rw [bind_of_eq_ok (needDigits_of_le hlo hhi), bind_of_eq_ok (needRange_of_le hsrc),
      bind_of_eq_error (needRange_of_lt hdst)]
    rfl
  · rw [bind_of_eq_ok (needDigits_of_le hlo hhi), bind_of_eq_ok (needRange_of_le hsrc),
      bind_of_eq_ok (needRange_of_le hdst)]
    refine ⟨fun f hread => ?_, fun d hread => ?_⟩
    · rw [bind_of_eq_error (memRead_of_error hread)]
      rfl
    · rw [bind_of_eq_ok (memRead_of_ok hread)]
      rfl

/-! ## The truncated value (R701) -/

theorem truncOffset_le (d : List Byte) : truncOffset d ≤ 15 :=
  Nat.le_of_lt_succ (Nat.mod_lt _ (by decide))

/-- Three whole bytes stand below the seven bits that the mask leaves of the first one. -/
theorem truncValue_lt (d : List Byte) : truncValue d < 2 ^ 31 := by
  have hbyte (k : Nat) : (d.getD (truncOffset d + k) 0).toNat < 2 ^ 8 := BitVec.isLt _
  have h1 := hbyte 1
  have h2 := hbyte 2
  have h3 := hbyte 3
  simp only [truncValue]
  omega

/-! ## The code text (R702) -/

theorem digitByte_toNat (code : Nat) : (BitVec.ofNat 8 (0x30 + code % 10)).toNat = 0x30 + code % 10 := by
  rw [BitVec.toNat_ofNat]
  omega

theorem mem_hotpRender_isDigit {code n : Nat} {b : Byte} (h : b ∈ hotpRender code n) :
    0x30 ≤ b.toNat ∧ b.toNat ≤ 0x39 := by
  induction n generalizing code with
  | zero => simp [hotpRender] at h
  | succ n ih =>
    rw [hotpRender, List.mem_append, List.mem_singleton] at h
    obtain hhigh | rfl := h
    · exact ih hhigh
    · rw [digitByte_toNat]
      omega

theorem decimalValue_append_singleton (s : List Byte) (b : Byte) :
    decimalValue (s ++ [b]) = 10 * decimalValue s + (b.toNat - 0x30) := by
  simp [decimalValue]

/-- The text reads as the low digits of the code, also of one with more digits than the text. -/
theorem decimalValue_hotpRender (code n : Nat) : decimalValue (hotpRender code n) = code % 10 ^ n := by
  induction n generalizing code with
  | zero => exact (Nat.mod_one code).symm
  | succ n ih =>
    rw [hotpRender, decimalValue_append_singleton, ih, digitByte_toNat, Nat.add_sub_cancel_left, Nat.add_comm,
      Nat.pow_succ', Nat.mod_mul]

/-- Settles O56: the bounds are those of the masked bytes, and the text reads as a code that is already below 10^n. -/
theorem hotpTextIsTheDecimalCode : Obligations.HotpTextIsTheDecimalCode := by
  unfold Obligations.HotpTextIsTheDecimalCode
  refine ⟨fun d => ⟨truncOffset_le d, truncValue_lt d⟩, fun p n => ?_⟩
  refine ⟨hotpRender_length _ _, fun b => mem_hotpRender_isDigit, ?_⟩
  rw [decimalValue_hotpRender, hotpCode, Nat.mod_mod]

end Sys2Proof.Machine
end

section
/-! PROOFS. The family of 44_totp.md: the time of a TOTP command (O37), the verification window (O57), the four TOTP commands
(O38 to O41), the rounding of binary64 (O59), and the range of the remaining time (O58). -/

namespace Sys2Proof.Machine

/-! ## The time (R801, R802) -/

/-- Settles O37: both sources as `totpTime` and `State.takeTime` define them. -/
theorem timeComesFromTheStampOrThePort : Obligations.TimeComesFromTheStampOrThePort :=
  fun _ => ⟨rfl, rfl, rfl, rfl⟩

theorem needPeriod_of_ne {s : State} (h : s.p ≠ 0) : needPeriod s = .ok () := needPeriod_eq_ok.2 h

theorem needPeriod_of_eq {s : State} (h : s.p = 0) : needPeriod s = .error (.error .badConfig 0) :=
  needPeriod_eq_error.2 ⟨h, rfl⟩

/-! ## The verification window (R805 to R807) -/

theorem mem_candidates {c w x : Nat} : x ∈ candidates c w ↔ x ≤ 2 ^ 64 - 1 ∧ c ≤ x + w ∧ x ≤ c + w := by
  simp only [candidates, List.mem_filterMap, List.mem_range, Option.ite_none_right_eq_some, Option.some.injEq]
  constructor
  · rintro ⟨k, hk, hrange, rfl⟩
    omega
  · rintro ⟨hx, hlo, hhi⟩
    exact ⟨x + w - c, by omega, by omega, by omega⟩

/-- The k-th candidate is c - w + k where it is a candidate at all, so the order is that of k. -/
theorem candidates_pairwise_lt (c w : Nat) : (candidates c w).Pairwise (· < ·) := by
  refine List.Pairwise.filterMap _ (R := (· < ·)) ?_ List.pairwise_lt_range
  simp only [Option.ite_none_right_eq_some, Option.some.injEq]
  rintro k k' hlt x ⟨hx, rfl⟩ x' ⟨hx', rfl⟩
  omega

/-- Settles O57: membership by `mem_candidates`, the order by `candidates_pairwise_lt`. -/
theorem candidatesAreTheWindow : Obligations.CandidatesAreTheWindow := by
  unfold Obligations.CandidatesAreTheWindow
  exact fun c w _ => ⟨fun _ => mem_candidates, candidates_pairwise_lt c w⟩

/-- A match is a counter in the window with the token as its code text (R806, R807). -/
theorem tokenMatches_iff {key k0 tok : List Byte} (hk0 : hmacK0 key = .ok k0) {c w digits : Nat} :
    tokenMatches k0 c w digits tok = true ↔
      ∃ x d, x ≤ 2 ^ 64 - 1 ∧ c ≤ x + w ∧ x ≤ c + w ∧ hmacSha1 key (bytesBe64 x) = .ok d ∧
        hotpRender (truncValue d % 10 ^ digits) digits = tok := by
  simp only [tokenMatches, List.any_eq_true, mem_candidates, beq_iff_eq, hmacSha1_of_hmacK0 hk0, Except.ok.injEq]
  constructor
  · rintro ⟨x, ⟨hx, hlo, hhi⟩, htext⟩
    exact ⟨x, _, hx, hlo, hhi, rfl, htext⟩
  · rintro ⟨x, _, hx, hlo, hhi, rfl, htext⟩
    exact ⟨x, ⟨hx, hlo, hhi⟩, htext⟩

/-! ## The four commands (R820 to R823) -/

/-- The four checks that TOTP_GEN and TOTP_VERIFY begin with (R820, R821), where n bytes at A[4] are checked: what a
command that goes on with `rule` does where one fails, and where all hold. -/
theorem totpChecks_follow {out : Host.Outcome State Fault Refusal} {s : State} (n : Nat) {rule : Except Abort State}
    (hout : out = settle s do
      needPeriod s
      needDigits s
      needRange s 0 (s.a 1)
      needRange s 4 n
      rule) :
    (s.p = 0 → out = .next (s.raise .badConfig 0)) ∧
    (s.p ≠ 0 → s.d < 1 ∨ 9 < s.d → out = .next (s.raise .badConfig 1)) ∧
    (s.p ≠ 0 → 1 ≤ s.d → s.d ≤ 9 → 1024 < s.a 0 + s.a 1 → out = .next (s.raise .bufferRange 0)) ∧
    (s.p ≠ 0 → 1 ≤ s.d → s.d ≤ 9 → s.a 0 + s.a 1 ≤ 1024 → 1024 < s.a 4 + n → out = .next (s.raise .bufferRange 4)) ∧
    (s.p ≠ 0 → 1 ≤ s.d → s.d ≤ 9 → s.a 0 + s.a 1 ≤ 1024 → s.a 4 + n ≤ 1024 → out = settle s rule) := by
  subst hout
  refine ⟨fun hperiod => ?_, fun hperiod hdigits => ?_, fun hperiod hlo hhi hsrc => ?_,
    fun hperiod hlo hhi hsrc hrange => ?_, fun hperiod hlo hhi hsrc hrange => ?_⟩
  · rw [bind_of_eq_error (needPeriod_of_eq hperiod)]
    rfl
  · rw [bind_of_eq_ok (needPeriod_of_ne hperiod), bind_of_eq_error (needDigits_of_lt_or_lt hdigits)]
    rfl
  · rw [bind_of_eq_ok (needPeriod_of_ne hperiod), bind_of_eq_ok (needDigits_of_le hlo hhi),
      bind_of_eq_error (needRange_of_lt hsrc)]
    rfl
  · rw [bind_of_eq_ok (needPeriod_of_ne hperiod), bind_of_eq_ok (needDigits_of_le hlo hhi),
      bind_of_eq_ok (needRange_of_le hsrc), bind_of_eq_error (needRange_of_lt hrange)]
    rfl
  · rw [bind_of_eq_ok (needPeriod_of_ne hperiod), bind_of_eq_ok (needDigits_of_le hlo hhi),
      bind_of_eq_ok (needRange_of_le hsrc), bind_of_eq_ok (needRange_of_le hrange)]

/-- Settles O38: the checks by `totpChecks_follow`; past them each clause runs the rule as far as its first failure. -/
theorem totpGenFollowsItsRule : Obligations.TotpGenFollowsItsRule := by
  unfold Obligations.TotpGenFollowsItsRule
  rintro s t c rfl
  obtain ⟨hperiod, hdigits, hsrc, hdst, hrule⟩ := totpChecks_follow (out := exec (.totpGen t) s) s.d rfl
  refine ⟨hperiod, hdigits, hsrc, hdst, fun hp hlo hhi h0 h4 => ?_⟩
  rw [hrule hp hlo hhi h0 h4]
  refine ⟨fun f hread => ?_, fun txt hread => ?_⟩
  · rw [bind_of_eq_error (memRead_of_error hread)]
    rfl
  · rw [bind_of_eq_ok (memRead_of_ok hread)]
    refine ⟨fun i hbad => ?_, fun hnil => ?_, fun key hdec hne => ?_⟩
    · rw [bind_of_eq_error (secretKey_of_error hbad)]
      rfl
    · rw [bind_of_eq_error (secretKey_of_nil hnil)]
      rfl
    · obtain ⟨d, hd⟩ := exists_hmacSha1_of_ne_nil hne (bytesBe64 (totpTime s t / s.p))
      rw [bind_of_eq_ok (secretKey_of_ok hdec hne), totpCounter, bind_of_eq_ok (hotp_of_hmacSha1 hd s.d), loWord_eq]
      exact ⟨d, hd, rfl⟩

/-- Settles O39: the checks by `totpChecks_follow`; past them each clause runs the rule as far as its first failure, and
what the rule answers at its end is `tokenMatches_iff`. -/
theorem totpVerifyFollowsItsRule : Obligations.TotpVerifyFollowsItsRule := by
  unfold Obligations.TotpVerifyFollowsItsRule
  rintro s t c rfl
  obtain ⟨hperiod, hdigits, hsrc, htok, hrule⟩ := totpChecks_follow (out := exec (.totpVerify t) s) (s.a 5) rfl
  refine ⟨hperiod, hdigits, hsrc, htok, fun hp hlo hhi h0 h4 => ?_⟩
  rw [hrule hp hlo hhi h0 h4]
  refine ⟨fun f hread => ?_, fun txt hread => ?_⟩
  · rw [bind_of_eq_error (memRead_of_error hread)]
    rfl
  · rw [bind_of_eq_ok (memRead_of_ok hread)]
    refine ⟨fun f hreadTok => ?_, fun tok hreadTok => ?_⟩
    · rw [bind_of_eq_error (memRead_of_error hreadTok)]
      rfl
    · rw [bind_of_eq_ok (memRead_of_ok hreadTok)]
      refine ⟨fun i hbad => ?_, fun hnil => ?_, fun key hdec hne => ?_⟩
      · rw [bind_of_eq_error (secretKey_of_error hbad)]
        rfl
      · rw [bind_of_eq_error (secretKey_of_nil hnil)]
        rfl
      · have hk0 := hmacK0_eq_ok.2 ⟨hne, rfl⟩
        rw [bind_of_eq_ok (secretKey_of_ok hdec hne), bind_of_eq_ok hk0, totpCounter, loWord_eq, ← tokenMatches_iff hk0]
        refine ⟨fun hmatch => ?_, fun hmatch => ?_⟩
        · rw [if_pos hmatch]
          rfl
        · rw [if_neg hmatch]
          rfl

/-- Settles O40: the period check, then `totpRemaining`. -/
theorem totpRemsecFollowsItsRule : Obligations.TotpRemsecFollowsItsRule := by
  unfold Obligations.TotpRemsecFollowsItsRule
  intro s t
  simp only [exec, execTotpRemsec]
  refine ⟨fun hperiod => ?_, fun hperiod => ?_⟩
  · rw [bind_of_eq_error (needPeriod_of_eq hperiod)]
    rfl
  · rw [bind_of_eq_ok (needPeriod_of_ne hperiod)]
    rfl

theorem loWord_toNat (v : BitVec 64) : loWord v.toNat = v.extractLsb' 0 32 :=
  BitVec.eq_of_toNat_eq (by simp [loWord])

theorem hiWord_toNat (v : BitVec 64) : hiWord v.toNat = v.extractLsb' 32 32 :=
  BitVec.eq_of_toNat_eq (by simp [hiWord, Nat.shiftRight_eq_div_pow])

/-- Settles O41: the period check, then the two halves of `remPercent`. -/
theorem totpRempctFollowsItsRule : Obligations.TotpRempctFollowsItsRule := by
  unfold Obligations.TotpRempctFollowsItsRule
  rintro s t rem bits rfl rfl
  simp only [exec, execTotpRempct]
  refine ⟨fun hperiod => ?_, fun hperiod => ?_⟩
  · rw [bind_of_eq_error (needPeriod_of_eq hperiod)]
    rfl
  · rw [bind_of_eq_ok (needPeriod_of_ne hperiod), loWord_toNat, hiWord_toNat]
    rfl

/-! ## The nearest integer, ties to even (R804) -/

/-- m is an integer nearest to u, and the even one of two such. -/
def NearestEven (m : Nat) (u : ℚ) : Prop := |m - u| ≤ 1 / 2 ∧ (|m - u| = 1 / 2 → m % 2 = 0)

/-- Rounding q + f by comparing the fraction f with 1/2, and at the tie by the parity of q. -/
theorem nearestEven_of_fraction {f : ℚ} (hnonneg : 0 ≤ f) (hlt : f < 1) (q : Nat) :
    NearestEven (if 1 / 2 < f ∨ f = 1 / 2 ∧ q % 2 = 1 then q + 1 else q) (q + f) := by
  unfold NearestEven
  split_ifs with hup
  · have hdist : |((q + 1 : Nat) : ℚ) - (q + f)| = 1 - f := by
      rw [Nat.cast_add_one, add_sub_add_left_eq_sub, abs_of_pos (sub_pos.2 hlt)]
    rw [hdist]
    rcases hup with habove | ⟨htie, hodd⟩
    · exact ⟨by linarith, fun heq => by linarith⟩
    · exact ⟨by linarith, fun _ => by omega⟩
  · have hdist : |(q : ℚ) - (q + f)| = f := by rw [sub_add_cancel_left, abs_neg, abs_of_nonneg hnonneg]
    rw [hdist]
    push Not at hup
    obtain ⟨hle, hodd⟩ := hup
    exact ⟨hle, fun htie => by have := hodd htie; omega⟩

/-- The fraction that `roundDiv` compares with 1/2 is the remainder over den. -/
theorem roundDiv_nearestEven (num : Nat) {den : Nat} (hden : 0 < den) : NearestEven (roundDiv num den) (num / den) := by
  have hd : (0 : ℚ) < den := by exact_mod_cast hden
  have hsplit : (num : ℚ) / den = (num / den : Nat) + (num % den : Nat) / den := by
    rw [div_eq_iff hd.ne', add_mul, div_mul_cancel₀ _ hd.ne']
    exact_mod_cast (Nat.div_add_mod' num den).symm
  have habove : den < 2 * (num % den) ↔ (1 / 2 : ℚ) < (num % den : Nat) / den := by
    rw [div_lt_div_iff₀ two_pos hd, one_mul, mul_comm]
    exact_mod_cast Iff.rfl
  have htie : 2 * (num % den) = den ↔ ((num % den : Nat) / den : ℚ) = 1 / 2 := by
    rw [div_eq_div_iff hd.ne' two_ne_zero, one_mul, mul_comm]
    exact_mod_cast Iff.rfl
  have hlt : ((num % den : Nat) : ℚ) / den < 1 := by
    rw [div_lt_one hd]
    exact_mod_cast Nat.mod_lt num hden
  simp only [roundDiv, gt_iff_lt, habove, htie, hsplit]
  exact nearestEven_of_fraction (by positivity) hlt _

/-- Another integer is no nearer, and as near only where m is even. -/
theorem NearestEven.le_nat {m : Nat} {u : ℚ} (h : NearestEven m u) {n : Nat} (hn : n ≠ m) :
    |m - u| ≤ |n - u| ∧ (|m - u| = |n - u| → m % 2 = 0) := by
  obtain ⟨hhalf, heven⟩ := h
  have hapart : (1 : ℚ) ≤ |(n : ℚ) - m| := by exact_mod_cast Int.one_le_abs (show (n : ℤ) - m ≠ 0 by omega)
  have htri : |(n : ℚ) - m| ≤ |n - u| + |m - u| := abs_sub_comm u m ▸ abs_sub_le _ _ _
  exact ⟨by linarith, fun heq => heven (by linarith)⟩

theorem NearestEven.ge {m : Nat} {u : ℚ} (h : NearestEven m u) {n : Nat} (hn : n ≤ u) : n ≤ m := by
  obtain ⟨hhalf, -⟩ := abs_le.1 h.1
  by_contra hlt
  have hsucc : (m : ℚ) + 1 ≤ n := by exact_mod_cast not_le.1 hlt
  linarith

theorem NearestEven.le {m : Nat} {u : ℚ} (h : NearestEven m u) {n : Nat} (hn : u ≤ n) : m ≤ n := by
  obtain ⟨-, hhalf⟩ := abs_le.1 h.1
  by_contra hlt
  have hsucc : (n : ℚ) + 1 ≤ m := by exact_mod_cast not_le.1 hlt
  linarith

/-- A number below an integer that is at most u is farther from u than m. -/
theorem NearestEven.lt_of_lt {m : Nat} {u : ℚ} (h : NearestEven m u) {n : Nat} (hn : n ≤ u) {z : ℚ} (hz : z < n) :
    |m - u| < |z - u| := by
  have hle : |(m : ℚ) - u| ≤ |n - u| := by
    by_cases heq : n = m
    · rw [heq]
    · exact (h.le_nat heq).1
  rw [abs_of_nonpos (by linarith : (n : ℚ) - u ≤ 0)] at hle
  rw [abs_of_neg (by linarith : z - u < 0)]
  linarith

/-! ## The numbers of binary64 (R804) -/

/-- The number a `Bin64` stands for. -/
def Bin64.value (x : Bin64) : ℚ := x.sig * (2 : ℚ) ^ x.exp

/-- The significand has 53 bits. -/
def Bin64.Normal (x : Bin64) : Prop := 2 ^ 52 ≤ x.sig ∧ x.sig < 2 ^ 53

theorem Bin64.value_lt_of_exp_lt {x y : Bin64} (hx : x.Normal) (hy : y.Normal) (h : x.exp < y.exp) : x.value < y.value := by
  have hsig : (x.sig : ℚ) < 2 ^ 53 := by exact_mod_cast hx.2
  have hsig' : (2 ^ 52 : ℚ) ≤ y.sig := by exact_mod_cast hy.1
  calc x.value < 2 ^ 53 * (2 : ℚ) ^ x.exp := by unfold Bin64.value; gcongr
    _ = 2 ^ 52 * (2 : ℚ) ^ (x.exp + 1) := by rw [zpow_add_one₀ two_ne_zero]; ring
    _ ≤ 2 ^ 52 * (2 : ℚ) ^ y.exp := by
      gcongr
      · exact one_le_two
      · omega
    _ ≤ y.value := by unfold Bin64.value; gcongr

/-- The order of the values is that of the exponents, then that of the significands. -/
theorem Bin64.value_le_iff {x y : Bin64} (hx : x.Normal) (hy : y.Normal) :
    x.value ≤ y.value ↔ x.exp < y.exp ∨ (x.exp = y.exp ∧ x.sig ≤ y.sig) := by
  rcases lt_trichotomy x.exp y.exp with hlt | heq | hgt
  · exact ⟨fun _ => .inl hlt, fun _ => (value_lt_of_exp_lt hx hy hlt).le⟩
  · have hpos : (0 : ℚ) < 2 ^ y.exp := by positivity
    simp [Bin64.value, heq, mul_le_mul_iff_left₀ hpos]
  · have hval := value_lt_of_exp_lt hy hx hgt
    exact ⟨fun hle => absurd hval hle.not_gt, fun hexp => by omega⟩

theorem Bin64.eq_of_value_eq {x y : Bin64} (hx : x.Normal) (hy : y.Normal) (h : x.value = y.value) : x = y := by
  have hle := (value_le_iff hx hy).1 h.le
  have hge := (value_le_iff hy hx).1 h.ge
  obtain ⟨hsig, hexp⟩ : x.sig = y.sig ∧ x.exp = y.exp := by omega
  cases x
  cases y
  exact (Bin64.mk.injEq ..).mpr ⟨hsig, hexp⟩

/-! ## The rounding (R804) -/

theorem scaleBy_value (num den : Nat) (e : Int) :
    ((scaleBy num den e).1 : ℚ) / (scaleBy num den e).2 = num / den / (2 : ℚ) ^ e := by
  unfold scaleBy
  split_ifs with he
  · obtain ⟨k, rfl⟩ := Int.eq_ofNat_of_zero_le he
    simp [div_div, mul_comm]
  · obtain ⟨k, hk⟩ := Int.eq_ofNat_of_zero_le (show 0 ≤ -e by omega)
    obtain rfl : e = -k := by omega
    simp [div_eq_mul_inv, mul_assoc, mul_comm, mul_left_comm]

theorem scaleBy_snd_pos (num : Nat) {den : Nat} (hden : 0 < den) (e : Int) : 0 < (scaleBy num den e).2 := by
  unfold scaleBy
  split_ifs
  · positivity
  · exact hden

theorem two_zpow_log2_le {n : Nat} (h : 0 < n) : (2 : ℚ) ^ (Nat.log2 n : ℤ) ≤ n := by
  exact_mod_cast Nat.log2_self_le h.ne'

theorem lt_two_zpow_log2_add_one (n : Nat) : (n : ℚ) < (2 : ℚ) ^ (Nat.log2 n + 1 : ℤ) := by
  exact_mod_cast Nat.lt_log2_self

/-- The two binary logarithms place num / den between two powers of 2, with one between them. -/
theorem div_between_log2 {num den : Nat} (hnum : 0 < num) (hden : 0 < den) {e : Int}
    (he : e = Nat.log2 num - Nat.log2 den - 53) :
    2 ^ 52 * (2 : ℚ) ^ e ≤ num / den ∧ (num : ℚ) / den < 2 ^ 54 * (2 : ℚ) ^ e := by
  have hd : (0 : ℚ) < den := by exact_mod_cast hden
  rw [le_div_iff₀ hd, div_lt_iff₀ hd, ← zpow_natCast, ← zpow_natCast, ← zpow_add₀ two_ne_zero, ← zpow_add₀ two_ne_zero]
  constructor
  · calc (2 : ℚ) ^ (((52 : Nat) : Int) + e) * den
        ≤ 2 ^ (((52 : Nat) : Int) + e) * 2 ^ (Nat.log2 den + 1 : Int) := by
          gcongr
          exact (lt_two_zpow_log2_add_one den).le
      _ = 2 ^ (Nat.log2 num : Int) := by
          rw [← zpow_add₀ two_ne_zero]
          congr 1
          omega
      _ ≤ num := two_zpow_log2_le hnum
  · calc (num : ℚ) < 2 ^ (Nat.log2 num + 1 : Int) := lt_two_zpow_log2_add_one num
      _ = 2 ^ (((54 : Nat) : Int) + e) * 2 ^ (Nat.log2 den : Int) := by
          rw [← zpow_add₀ two_ne_zero]
          congr 1
          omega
      _ ≤ 2 ^ (((54 : Nat) : Int) + e) * den := by
          gcongr
          exact two_zpow_log2_le hden

/-- `normExp`'s comparison tells on which side of the middle power of 2 of `div_between_log2` the quotient lies. -/
theorem normExp_bounds {num den : Nat} (hnum : 0 < num) (hden : 0 < den) :
    2 ^ 52 ≤ (num : ℚ) / den / (2 : ℚ) ^ normExp num den ∧ (num : ℚ) / den / (2 : ℚ) ^ normExp num den < 2 ^ 53 := by
  obtain ⟨e, he⟩ : ∃ e : Int, e = Nat.log2 num - Nat.log2 den - 53 := ⟨_, rfl⟩
  obtain ⟨hlow, hhigh⟩ := div_between_log2 hnum hden he
  have htest : (scaleBy num den e).1 < 2 ^ 53 * (scaleBy num den e).2 ↔ (num : ℚ) / den / (2 : ℚ) ^ e < 2 ^ 53 := by
    rw [← scaleBy_value, div_lt_iff₀ (by exact_mod_cast scaleBy_snd_pos num hden e)]
    exact_mod_cast Iff.rfl
  simp only [normExp, ← he, htest]
  split_ifs with hlt
  · exact ⟨(le_div_iff₀ (by positivity)).2 hlow, hlt⟩
  · rw [not_lt, le_div_iff₀ (by positivity)] at hlt
    rw [zpow_add_one₀ two_ne_zero, le_div_iff₀ (by positivity), div_lt_iff₀ (by positivity)]
    constructor <;> linarith

/-- The integer nearest to the scaled quotient is `round64`'s significand, or has carried into the exponent as 2^53. -/
theorem round64_eq_nearestEven {num den : Nat} (hnum : 0 < num) (hden : 0 < den) : ∃ m : Nat,
    NearestEven m (num / den / (2 : ℚ) ^ normExp num den) ∧ (round64 num den).Normal ∧
      (round64 num den).value = m * (2 : ℚ) ^ normExp num den ∧ (m % 2 = 0 → (round64 num den).sig % 2 = 0) := by
  have hm := roundDiv_nearestEven (scaleBy num den (normExp num den)).1 (scaleBy_snd_pos num hden (normExp num den))
  rw [scaleBy_value] at hm
  obtain ⟨hlow, hhigh⟩ := normExp_bounds hnum hden
  have hge := hm.ge (n := 2 ^ 52) (by exact_mod_cast hlow)
  have hle := hm.le (n := 2 ^ 53) (by exact_mod_cast hhigh.le)
  refine ⟨_, hm, ?_⟩
  simp only [round64]
  split_ifs with hcarry
  · refine ⟨⟨le_rfl, by norm_num⟩, ?_, fun _ => by norm_num⟩
    rw [hcarry, Bin64.value, zpow_add_one₀ two_ne_zero]
    push_cast
    ring
  · exact ⟨⟨hge, lt_of_le_of_ne hle hcarry⟩, rfl, id⟩

theorem round64_normal {num den : Nat} (hnum : 0 < num) (hden : 0 < den) : (round64 num den).Normal := by
  obtain ⟨_, -, hnormal, -⟩ := round64_eq_nearestEven hnum hden
  exact hnormal

/-- In units of 2^e, a number with a 53-bit significand is an integer or lies below 2^52. -/
theorem Bin64.exists_nat_or_lt {y : Bin64} (hy : y.Normal) (e : Int) :
    (∃ n : Nat, y.value = n * (2 : ℚ) ^ e) ∨ y.value < 2 ^ 52 * (2 : ℚ) ^ e := by
  rcases le_or_gt e y.exp with hle | hlt
  · obtain ⟨k, hk⟩ := Int.eq_ofNat_of_zero_le (show 0 ≤ y.exp - e by omega)
    refine .inl ⟨y.sig * 2 ^ k, ?_⟩
    rw [Bin64.value, show y.exp = k + e by omega, zpow_add₀ two_ne_zero, zpow_natCast]
    push_cast
    ring
  · refine .inr ((Bin64.value_lt_of_exp_lt hy (y := ⟨2 ^ 52, e⟩) ⟨le_rfl, by norm_num⟩ hlt).trans_eq ?_)
    rw [Bin64.value, Nat.cast_pow, Nat.cast_ofNat]

theorem abs_mul_zpow_sub (a v : ℚ) (e : Int) : |a * (2 : ℚ) ^ e - v| = |a - v / (2 : ℚ) ^ e| * (2 : ℚ) ^ e := by
  have hpos : (0 : ℚ) < 2 ^ e := by positivity
  rw [← abs_of_pos hpos, ← abs_mul, abs_of_pos hpos, sub_mul, div_mul_cancel₀ _ hpos.ne']

/-- The law of R804's rounding, with the two numbers as `Bin64.value`. -/
theorem round64_nearest {num den : Nat} (hnum : 0 < num) (hden : 0 < den) {y : Bin64} (hy : y.Normal)
    (hne : y ≠ round64 num den) :
    |(round64 num den).value - (num : ℚ) / den| ≤ |y.value - (num : ℚ) / den| ∧
      (|(round64 num den).value - (num : ℚ) / den| = |y.value - (num : ℚ) / den| → (round64 num den).sig % 2 = 0) := by
  obtain ⟨m, hm, hnormal, hvalue, heven⟩ := round64_eq_nearestEven hnum hden
  have hpos : (0 : ℚ) < 2 ^ normExp num den := by positivity
  rcases y.exists_nat_or_lt hy (normExp num den) with ⟨n, hn⟩ | hlt
  · have hnm : n ≠ m := by
      rintro rfl
      exact hne (Bin64.eq_of_value_eq hy hnormal (hn.trans hvalue.symm))
    obtain ⟨hle, htie⟩ := hm.le_nat hnm
    rw [hvalue, hn, abs_mul_zpow_sub, abs_mul_zpow_sub, mul_le_mul_iff_left₀ hpos, mul_left_inj' hpos.ne']
    exact ⟨hle, fun heq => heven (htie heq)⟩
  · have hfar := hm.lt_of_lt (n := 2 ^ 52) (by exact_mod_cast (normExp_bounds hnum hden).1)
      (z := y.value / 2 ^ normExp num den) (by rw [div_lt_iff₀ hpos]; exact_mod_cast hlt)
    rw [← mul_lt_mul_iff_left₀ hpos, ← abs_mul_zpow_sub, ← abs_mul_zpow_sub, div_mul_cancel₀ _ hpos.ne', ← hvalue] at hfar
    exact ⟨hfar.le, fun heq => absurd heq hfar.ne⟩

/-- Settles O59: the statement is `round64_nearest` with `Bin64.value` written out. -/
theorem round64IsNearestTiesToEven : Obligations.Round64IsNearestTiesToEven := by
  unfold Obligations.Round64IsNearestTiesToEven
  intro num den hnum hden
  obtain ⟨hlo, hhi⟩ := round64_normal hnum hden
  exact ⟨hlo, hhi, fun y hylo hyhi hne => round64_nearest hnum hden ⟨hylo, hyhi⟩ hne⟩

/-! ## The remaining time lies in the period (R803, R804) -/

/-- Rounding does not pass a number with a 53-bit significand: that number would be nearer. -/
theorem round64_value_le {num den : Nat} (hnum : 0 < num) (hden : 0 < den) {y : Bin64} (hy : y.Normal)
    (h : (num : ℚ) / den ≤ y.value) : (round64 num den).value ≤ y.value := by
  by_contra! hlt
  obtain ⟨hnear, -⟩ := round64_nearest hnum hden hy fun heq => hlt.ne (congrArg _ heq)
  rw [abs_of_nonneg (by linarith), abs_of_nonneg (by linarith)] at hnear
  linarith

theorem le_round64_value {num den : Nat} (hnum : 0 < num) (hden : 0 < den) {y : Bin64} (hy : y.Normal)
    (h : y.value ≤ (num : ℚ) / den) : y.value ≤ (round64 num den).value := by
  by_contra! hlt
  obtain ⟨hnear, -⟩ := round64_nearest hnum hden hy fun heq => hlt.ne' (congrArg _ heq)
  rw [abs_of_nonpos (by linarith), abs_of_nonpos (by linarith)] at hnear
  linarith

/-- A number with a 53-bit significand is its own rounding. -/
theorem round64_eq_of_value_eq {num den : Nat} (hnum : 0 < num) (hden : 0 < den) {y : Bin64} (hy : y.Normal)
    (h : (num : ℚ) / den = y.value) : round64 num den = y :=
  Bin64.eq_of_value_eq (round64_normal hnum hden) hy
    (le_antisymm (round64_value_le hnum hden hy h.le) (le_round64_value hnum hden hy h.ge))

/-- The product is rounded once, from its exact value. -/
theorem Bin64.mulNat_eq_round64 {q : Bin64} (hq : q.Normal) {n : Nat} (hn : 0 < n) :
    ∃ num den : Nat, 0 < num ∧ 0 < den ∧ (num : ℚ) / den = n * q.value ∧ q.mulNat n = round64 num den := by
  have hsig : 0 < q.sig := lt_of_lt_of_le (by norm_num) hq.1
  unfold mulNat
  split_ifs with hexp
  · obtain ⟨k, hk⟩ := Int.eq_ofNat_of_zero_le hexp
    refine ⟨_, _, by positivity, one_pos, ?_, rfl⟩
    rw [value, hk, Int.toNat_natCast, zpow_natCast]
    push_cast
    ring
  · obtain ⟨k, hk⟩ := Int.eq_ofNat_of_zero_le (show 0 ≤ -q.exp by omega)
    refine ⟨_, _, by positivity, by positivity, ?_, rfl⟩
    rw [value, hk, Int.toNat_natCast, show q.exp = -k by omega, zpow_neg, zpow_natCast]
    push_cast
    ring

/-- The number 1. -/
def Bin64.one : Bin64 := ⟨2 ^ 52, -52⟩

/-- The number 100. -/
def Bin64.hundred : Bin64 := ⟨100 * 2 ^ 46, -46⟩

/-- 2^-32, which no quotient of a positive number by a 32-bit period lies below. -/
def Bin64.leastRatio : Bin64 := ⟨2 ^ 52, -84⟩

theorem Bin64.one_normal : one.Normal := ⟨by decide, by decide⟩
theorem Bin64.hundred_normal : hundred.Normal := ⟨by decide, by decide⟩
theorem Bin64.leastRatio_normal : leastRatio.Normal := ⟨by decide, by decide⟩

theorem Bin64.one_value : one.value = 1 := by norm_num [value, one]
theorem Bin64.hundred_value : hundred.value = 100 := by norm_num [value, hundred]
theorem Bin64.leastRatio_value : leastRatio.value = 1 / 2 ^ 32 := by norm_num [value, leastRatio]

/-- Both roundings keep the percentage between 2^-32 and 100, and at rem = P they are exact. -/
theorem percent_range {rem p : Nat} (hrem : 1 ≤ rem) (hle : rem ≤ p) (hp : p < 2 ^ 32) :
    ((round64 rem p).mulNat 100).Normal ∧ ((round64 rem p).mulNat 100).value ≤ Bin64.hundred.value ∧
      Bin64.leastRatio.value ≤ ((round64 rem p).mulNat 100).value ∧
      (rem = p → (round64 rem p).mulNat 100 = Bin64.hundred) := by
  have hp0 : 0 < p := by omega
  have hpos : (0 : ℚ) < p := by exact_mod_cast hp0
  have hratio : (rem : ℚ) / p ≤ Bin64.one.value := by
    rw [Bin64.one_value, div_le_one hpos]
    exact_mod_cast hle
  have hleast : Bin64.leastRatio.value ≤ (rem : ℚ) / p := by
    rw [Bin64.leastRatio_value]
    gcongr
    · exact_mod_cast hrem
    · exact_mod_cast hp.le
  have hqle := round64_value_le hrem hp0 Bin64.one_normal hratio
  have hqge := le_round64_value hrem hp0 Bin64.leastRatio_normal hleast
  obtain ⟨num, den, hnum, hden, hquot, hmul⟩ := Bin64.mulNat_eq_round64 (round64_normal hrem hp0) (n := 100) (by decide)
  rw [hmul]
  refine ⟨round64_normal hnum hden, round64_value_le hnum hden Bin64.hundred_normal ?_,
    le_round64_value hnum hden Bin64.leastRatio_normal ?_, fun heq => ?_⟩
  · rw [hquot, Bin64.hundred_value]
    rw [Bin64.one_value] at hqle
    push_cast
    linarith
  · rw [hquot]
    rw [Bin64.leastRatio_value] at hqge ⊢
    push_cast
    linarith
  · refine round64_eq_of_value_eq hnum hden Bin64.hundred_normal ?_
    have hone : round64 rem p = Bin64.one := by
      refine round64_eq_of_value_eq hrem hp0 Bin64.one_normal ?_
      rw [heq, div_self hpos.ne', Bin64.one_value]
    rw [hquot, hone, Bin64.one_value, Bin64.hundred_value]
    norm_num

/-- The pattern of a positive number up to 100 is not cut off at 64 bits. -/
theorem Bin64.bits_toNat {x : Bin64} (hx : x.Normal) (hhigh : x.value ≤ hundred.value) :
    x.bits.toNat = 2 ^ 52 * (x.exp + 52 + 1023).toNat + (x.sig - 2 ^ 52) := by
  have hexp := (value_le_iff hx hundred_normal).1 hhigh
  simp only [hundred] at hexp
  obtain ⟨hlo, hhi⟩ := hx
  rw [bits, BitVec.toNat_ofNat]
  omega

theorem remPercent_range {rem p : Nat} (hrem : 1 ≤ rem) (hle : rem ≤ p) (hp : p < 2 ^ 32) :
    0 < (remPercent rem p).toNat ∧ (remPercent rem p).toNat ≤ 0x4059000000000000 ∧
      (rem = p → remPercent rem p = 0x4059000000000000) := by
  obtain ⟨hnormal, hhigh, hlow, hfull⟩ := percent_range hrem hle hp
  have hbits : (remPercent rem p).toNat = _ := Bin64.bits_toNat hnormal hhigh
  have hmost := (Bin64.value_le_iff hnormal Bin64.hundred_normal).1 hhigh
  have hleast := (Bin64.value_le_iff Bin64.leastRatio_normal hnormal).1 hlow
  simp only [Bin64.hundred, Bin64.leastRatio] at hmost hleast
  have ⟨_, hsig⟩ := hnormal
  refine ⟨by omega, by omega, fun heq => ?_⟩
  rw [remPercent, hfull heq]
  rfl

theorem totpRemaining_range {p : Nat} (hp : p ≠ 0) (time : Nat) :
    1 ≤ totpRemaining time p ∧ totpRemaining time p ≤ p ∧ (time + totpRemaining time p) % p = 0 := by
  have hlt := Nat.mod_lt time (Nat.pos_of_ne_zero hp)
  have hdiv := Nat.div_add_mod time p
  rw [totpRemaining]
  refine ⟨by omega, Nat.sub_le _ _, ?_⟩
  have hnext : time + (p - time % p) = p * (time / p + 1) := by
    rw [Nat.mul_add_one]
    omega
  rw [hnext, Nat.mul_mod_right]

/-- Settles O58: the seconds by `totpRemaining_range`, the percentage by `remPercent_range`. -/
theorem remainingTimeLiesInThePeriod : Obligations.RemainingTimeLiesInThePeriod := by
  unfold Obligations.RemainingTimeLiesInThePeriod
  refine ⟨fun s t hperiod => ?_, fun rem p => remPercent_range⟩
  obtain ⟨-, hrun⟩ := totpRemsecFollowsItsRule s t
  have hresult : ((s.takeTime t).complete (BitVec.ofNat 32 (s.p - totpTime s t % s.p)) 0 0 0).results[0].toNat
      = totpRemaining (totpTime s t) s.p :=
    Nat.mod_eq_of_lt ((Nat.sub_le _ _).trans_lt s.latch.period.isLt)
  refine ⟨_, hrun hperiod, ?_⟩
  rw [hresult]
  exact totpRemaining_range hperiod _

end Sys2Proof.Machine
end

section
/-! PROOFS. The family of 60_exceptions.md: the one model fault (O8), how a command ends (O42, O43), who raises which
error (O47), the engine's step (O6), acceptance (O9), and the interrupt output (O24). -/

namespace Sys2Proof.Machine

/-! ## The one model fault (R904, R913, 10_state.md R141) -/

/-- f is the model fault at a byte of DBUF that is UNWRITTEN in m. -/
def Memory.FaultsAt (m : Memory) (f : Fault) : Prop := ∃ x, f = .unwrittenByte x ∧ x < 1024 ∧ m.read x = none

theorem Memory.faultsAt_of_readBytes {m : Memory} {off n : Nat} {f : Fault} (hr : off + n ≤ 1024)
    (h : m.readBytes off n = .error f) : m.FaultsAt f := by
  obtain ⟨x, -, hlt, hnone, rfl⟩ := Memory.readBytes_error m n h
  exact ⟨x, rfl, by omega, hnone⟩

/-- The part r of a command's rule faults only at UNWRITTEN bytes of m. -/
def OnlyFaultsAt (m : Memory) {α : Type} (r : Except Abort α) : Prop := ∀ f, r = .error (.fault f) → m.FaultsAt f

section
variable {m : Memory} {s : State} {α β : Type}

/-- A rule is followed part by part: the later part may use that the earlier one has succeeded. -/
theorem OnlyFaultsAt.bind {x : Except Abort α} {g : α → Except Abort β} (hx : OnlyFaultsAt m x)
    (hg : ∀ a, x = .ok a → OnlyFaultsAt m (g a)) : OnlyFaultsAt m (x >>= g) := by
  intro f h
  obtain h | ⟨a, ha, h⟩ := bind_eq_error.1 h
  exacts [hx f h, hg a ha f h]

theorem OnlyFaultsAt.pure (a : α) : OnlyFaultsAt m (pure a : Except Abort α) := fun _ h => absurd h pure_ne_error

theorem OnlyFaultsAt.require (ok : Bool) (code : ErrCode) (info : Word) : OnlyFaultsAt m (require ok code info) :=
  fun _ h => nomatch (require_eq_error.1 h).2

theorem OnlyFaultsAt.needRange (i : Fin 8) (n : Nat) : OnlyFaultsAt m (needRange s i n) := .require _ _ _

theorem OnlyFaultsAt.needDigits : OnlyFaultsAt m (needDigits s) := .require _ _ _

theorem OnlyFaultsAt.needPeriod : OnlyFaultsAt m (needPeriod s) := .require _ _ _

theorem OnlyFaultsAt.needKeyed : OnlyFaultsAt m (needKeyed s) := .bind (.require _ _ _) fun _ _ => .require _ _ _

theorem OnlyFaultsAt.decodeText (t : List Byte) : OnlyFaultsAt m (decodeText t) := by
  intro f h
  obtain ⟨_, -, he⟩ := decodeText_eq_error.1 h
  cases he

theorem OnlyFaultsAt.secretKey (t : List Byte) : OnlyFaultsAt m (secretKey t) := by
  intro f h
  obtain ⟨_, -, he⟩ | ⟨-, he⟩ := secretKey_eq_error.1 h <;> cases he

theorem OnlyFaultsAt.hmacK0 (k : List Byte) : OnlyFaultsAt m (hmacK0 k) := .bind (.require _ _ _) fun _ _ => .pure _

theorem OnlyFaultsAt.hmacSha1 (k t : List Byte) : OnlyFaultsAt m (hmacSha1 k t) := .bind (.hmacK0 k) fun _ _ => .pure _

theorem OnlyFaultsAt.hotp (key : List Byte) (c n : Nat) : OnlyFaultsAt m (hotp key c n) :=
  .bind (.hmacSha1 key _) fun _ _ => .pure _

/-- A read of DBUF comes after its range check, so that the byte it stops at is one of DBUF. -/
theorem OnlyFaultsAt.memRead {i : Fin 8} {n : Nat} {u : Unit} (h : Machine.needRange s i n = .ok u) :
    OnlyFaultsAt s.dbuf (memRead s i n) := by
  intro f hf
  obtain ⟨g, hread, hg⟩ := memRead_eq_error.1 hf
  cases hg
  exact Memory.faultsAt_of_readBytes (needRange_eq_ok.1 h) hread

theorem OnlyFaultsAt.settle {r : Except Abort State} {f : Fault} (hr : OnlyFaultsAt m r) (h : settle s r = .fault f) :
    m.FaultsAt f := hr f (settle_eq_fault.1 h)

end

/-- Each rule in the order of its checks: it reads a range of DBUF only after the check of that range. -/
theorem exec_faultsAt {i : Instr} {s : State} {f : Fault} (h : exec i s = .fault f) : s.dbuf.FaultsAt f := by
  cases i with
  | b32Enc =>
    exact OnlyFaultsAt.settle (.bind (.needRange _ _) fun _ hsrc => .bind (.needRange _ _) fun _ _ =>
      .bind (.memRead hsrc) fun _ _ => .pure _) h
  | b32Dec =>
    exact OnlyFaultsAt.settle (.bind (.needRange _ _) fun _ hsrc => .bind (.memRead hsrc) fun _ _ =>
      .bind (.decodeText _) fun _ _ => .bind (.needRange _ _) fun _ _ => .pure _) h
  | shaInit => rw [exec, execShaInit_eq] at h; cases h
  | shaUpdate =>
    exact OnlyFaultsAt.settle (.bind (.require _ _ _) fun _ _ => .bind (.needRange _ _) fun _ hsrc =>
      .bind (.require _ _ _) fun _ _ => .bind (.memRead hsrc) fun _ _ => .pure _) h
  | shaFinal =>
    exact OnlyFaultsAt.settle (.bind (.require _ _ _) fun _ _ => .bind (.needRange _ _) fun _ _ => .pure _) h
  | shaHash =>
    exact OnlyFaultsAt.settle (.bind (.needRange _ _) fun _ hsrc => .bind (.needRange _ _) fun _ _ =>
      .bind (.memRead hsrc) fun _ _ => .pure _) h
  | hmacSetkey =>
    exact OnlyFaultsAt.settle (.bind (.needRange _ _) fun _ hkey => .bind (.require _ _ _) fun _ _ =>
      .bind (.memRead hkey) fun _ _ => .bind (.hmacK0 _) fun _ _ => .pure _) h
  | hmacUpdate =>
    exact OnlyFaultsAt.settle (.bind .needKeyed fun _ _ => .bind (.needRange _ _) fun _ hsrc =>
      .bind (.require _ _ _) fun _ _ => .bind (.memRead hsrc) fun _ _ => .pure _) h
  | hmacFinal =>
    exact OnlyFaultsAt.settle (.bind .needKeyed fun _ _ => .bind (.needRange _ _) fun _ _ => .pure _) h
  | hmacMac =>
    exact OnlyFaultsAt.settle (.bind (.needRange _ _) fun _ hkey => .bind (.needRange _ _) fun _ hmsg =>
      .bind (.needRange _ _) fun _ _ => .bind (.require _ _ _) fun _ _ => .bind (.memRead hkey) fun _ _ =>
      .bind (.memRead hmsg) fun _ _ => .bind (.hmacSha1 _ _) fun _ _ => .pure _) h
  | hotpGen =>
    exact OnlyFaultsAt.settle (.bind .needDigits fun _ _ => .bind (.needRange _ _) fun _ hsecret =>
      .bind (.needRange _ _) fun _ _ => .bind (.memRead hsecret) fun _ _ => .bind (.secretKey _) fun _ _ =>
      .bind (.hotp _ _ _) fun _ _ => .pure _) h
  | hotpTrunc =>
    exact OnlyFaultsAt.settle (.bind .needDigits fun _ _ => .bind (.needRange _ _) fun _ hsrc =>
      .bind (.needRange _ _) fun _ _ => .bind (.memRead hsrc) fun _ _ => .pure _) h
  | totpGen src =>
    exact OnlyFaultsAt.settle (.bind .needPeriod fun _ _ => .bind .needDigits fun _ _ =>
      .bind (.needRange _ _) fun _ hsecret => .bind (.needRange _ _) fun _ _ => .bind (.memRead hsecret) fun _ _ =>
      .bind (.secretKey _) fun _ _ => .bind (.hotp _ _ _) fun _ _ => .pure _) h
  | totpVerify src =>
    exact OnlyFaultsAt.settle (.bind .needPeriod fun _ _ => .bind .needDigits fun _ _ =>
      .bind (.needRange _ _) fun _ hsecret => .bind (.needRange _ _) fun _ htoken => .bind (.memRead hsecret) fun _ _ =>
      .bind (.memRead htoken) fun _ _ => .bind (.secretKey _) fun _ _ => .bind (.hmacK0 _) fun _ _ => .pure _) h
  | totpRemsec src => exact OnlyFaultsAt.settle (.bind .needPeriod fun _ _ => .pure _) h
  | totpRempct src => exact OnlyFaultsAt.settle (.bind .needPeriod fun _ _ => .pure _) h

theorem engineStep_faultsAt {s : State} {f : Fault} (h : engineStep s = .fault f) : s.dbuf.FaultsAt f := by
  obtain ⟨-, hs⟩ | ⟨-, i, -, hs⟩ | ⟨-, hs⟩ := engineStep_cases s <;> rw [hs] at h
  · cases h
  · exact exec_faultsAt h
  · cases h

theorem hostAccess_faultsAt {s : State} {a : HostAccess} {f : Fault} (h : hostAccess s a = .fault f) :
    s.dbuf.FaultsAt f := by
  obtain ⟨off, n, -, hread, hok, hoff⟩ := hostAccess_fault h
  exact Memory.faultsAt_of_readBytes (windowByte_add_le hoff off.isLt hok) hread

theorem stepUnder_faultsAt {p : StepParams} {s : State} {f : Fault} (h : stepUnder p s = .fault f) : s.dbuf.FaultsAt f := by
  rw [← s.moved_dbuf]
  obtain ⟨a, hs⟩ | hs | hs := stepUnder_cases p s <;> rw [hs] at h
  · exact hostAccess_faultsAt h
  · exact engineStep_faultsAt h
  · cases h

/-- Settles O8: no step is refused (`stepUnder_ne_refused`), and the host's reads and the commands' both stay inside DBUF, so
that a fault names one of its UNWRITTEN bytes (`stepUnder_faultsAt`). -/
theorem stepsStopOnlyAtAnUnwrittenByte : Obligations.StepsStopOnlyAtAnUnwrittenByte := by
  unfold Obligations.StepsStopOnlyAtAnUnwrittenByte
  intro p s
  cases hs : stepUnder p s with
  | next t => exact .inl ⟨t, hs⟩
  | fault f =>
    obtain ⟨x, rfl, hlt, hnone⟩ := stepUnder_faultsAt hs
    exact .inr ⟨x, rfl, hlt, hnone⟩
  | refused q => exact absurd hs (stepUnder_ne_refused p s q)

/-! ## How a command ends (R905 to R907) -/

/-- Settles O42: neither an error nor what a command may write (`State.CommandWrites`) touches any of these fields. -/
theorem commandsKeepTheHostsRegisters : Obligations.CommandsKeepTheHostsRegisters := by
  unfold Obligations.CommandsKeepTheHostsRegisters
  intro i s t h
  cases exec_next h with
  | raise code info => simp
  | complete r0 r1 r2 r3 hu => rw [hu]; simp

/-- Settles O43: the two constructors of `State.CommandEnd`; a completion leaves the error record alone. -/
theorem commandEndsInDoneOrInAnErrorAlone : Obligations.CommandEndsInDoneOrInAnErrorAlone := by
  unfold Obligations.CommandEndsInDoneOrInAnErrorAlone
  intro i s t h
  cases exec_next h with
  | raise code info => exact .inl ⟨code, info, rfl⟩
  | complete r0 r1 r2 r3 hu => right; rw [hu]; simp

/-! ## Who raises which error (R900, R902) -/

/-- The errors each command's rule names. -/
def raises : Instr → List ErrCode
  | .b32Enc => [.bufferRange]
  | .b32Dec => [.bufferRange, .invalidBase32Character]
  | .shaInit => []
  | .shaUpdate => [.contextFinalized, .bufferRange, .msgTooLong]
  | .shaFinal => [.contextFinalized, .bufferRange]
  | .shaHash => [.bufferRange]
  | .hmacSetkey => [.bufferRange, .emptyHmacKey]
  | .hmacUpdate => [.noKey, .contextFinalized, .bufferRange, .msgTooLong]
  | .hmacFinal => [.noKey, .contextFinalized, .bufferRange]
  | .hmacMac => [.bufferRange, .emptyHmacKey]
  | .hotpGen => [.badConfig, .bufferRange, .invalidSecret]
  | .hotpTrunc => [.badConfig, .bufferRange]
  | .totpGen _ => [.badConfig, .bufferRange, .invalidSecret]
  | .totpVerify _ => [.badConfig, .bufferRange, .invalidSecret]
  | .totpRemsec _ => [.badConfig]
  | .totpRempct _ => [.badConfig]

theorem State.errcode_of_raise {s t : State} {codes : List ErrCode}
    (h : ∃ code info, code ∈ codes ∧ t = s.raise code info) : ∃ code ∈ codes, t.errcode = code.byte := by
  obtain ⟨code, info, hmem, rfl⟩ := h
  exact ⟨code, hmem, rfl⟩

/-- A command raises one of the errors its rule names, or leaves ERRCODE alone. -/
theorem exec_next_errcode {i : Instr} {s t : State} (h : exec i s = .next t) :
    (∃ code ∈ raises i, t.errcode = code.byte) ∨ t.errcode = s.errcode := by
  cases i with
  | shaInit => rw [exec, execShaInit_eq] at h; cases h; exact .inr rfl
  | b32Enc => exact (execB32Enc_next h).imp State.errcode_of_raise (by rintro ⟨_, -, -, -, rfl⟩; simp)
  | b32Dec => exact (execB32Dec_next h).imp State.errcode_of_raise (by rintro ⟨_, _, -, -, -, -, rfl⟩; simp)
  | shaUpdate => exact (execShaUpdate_next h).imp State.errcode_of_raise (by rintro ⟨_, -, -, -, -, rfl⟩; simp)
  | shaFinal => exact (execShaFinal_next h).imp State.errcode_of_raise (by rintro ⟨-, -, rfl⟩; simp)
  | shaHash => exact (execShaHash_next h).imp State.errcode_of_raise (by rintro ⟨_, -, -, -, rfl⟩; simp)
  | hmacSetkey => exact (execHmacSetkey_next h).imp State.errcode_of_raise (by rintro ⟨_, _, -, -, -, rfl⟩; simp)
  | hmacUpdate => exact (execHmacUpdate_next h).imp State.errcode_of_raise (by rintro ⟨_, -, -, -, -, rfl⟩; simp)
  | hmacFinal => exact (execHmacFinal_next h).imp State.errcode_of_raise (by rintro ⟨-, -, rfl⟩; simp)
  | hmacMac =>
    exact (execHmacMac_next h).imp State.errcode_of_raise (by rintro ⟨_, _, _, -, -, -, -, -, -, rfl⟩; simp)
  | hotpGen =>
    exact (execHotpGen_next h).imp State.errcode_of_raise (by rintro ⟨_, _, _, -, -, -, -, -, -, rfl⟩; simp)
  | hotpTrunc => exact (execHotpTrunc_next h).imp State.errcode_of_raise (by rintro ⟨_, -, -, -, -, rfl⟩; simp)
  | totpGen src =>
    exact (execTotpGen_next src h).imp State.errcode_of_raise
      (by rintro ⟨_, _, _, -, -, -, -, -, -, -, rfl⟩; simp)
  | totpVerify src =>
    exact (execTotpVerify_next src h).imp State.errcode_of_raise
      (by rintro ⟨_, _, _, _, -, -, -, -, -, -, -, -, rfl⟩; simp)
  | totpRemsec src =>
    exact (execTotpRemsec_next src h).imp State.errcode_of_raise (by rintro ⟨-, rfl⟩; simp)
  | totpRempct src =>
    exact (execTotpRempct_next src h).imp State.errcode_of_raise (by rintro ⟨-, rfl⟩; simp)

theorem ErrCode.byte_injective : Function.Injective ErrCode.byte := by
  intro c d h
  cases c <;> cases d <;> simp [ErrCode.byte] at h ⊢

/-- The errors table read by column: the commands whose rules name the error. -/
theorem mem_raises (i : Instr) :
    (.invalidBase32Character ∈ raises i ↔ i = .b32Dec) ∧
    (.invalidSecret ∈ raises i ↔ i = .hotpGen ∨ ∃ src, i = .totpGen src ∨ i = .totpVerify src) ∧
    (.emptyHmacKey ∈ raises i ↔ i = .hmacSetkey ∨ i = .hmacMac) ∧
    (.bufferRange ∈ raises i ↔ i ≠ .shaInit ∧ ∀ src, i ≠ .totpRemsec src ∧ i ≠ .totpRempct src) ∧
    (.contextFinalized ∈ raises i ↔ i = .shaUpdate ∨ i = .shaFinal ∨ i = .hmacUpdate ∨ i = .hmacFinal) ∧
    (.noKey ∈ raises i ↔ i = .hmacUpdate ∨ i = .hmacFinal) ∧
    (.badConfig ∈ raises i ↔ i = .hotpGen ∨ i = .hotpTrunc ∨
      ∃ src, i = .totpGen src ∨ i = .totpVerify src ∨ i = .totpRemsec src ∨ i = .totpRempct src) ∧
    (.msgTooLong ∈ raises i ↔ i = .shaUpdate ∨ i = .hmacUpdate) ∧
    .illegalCommand ∉ raises i := by
  cases i <;> simp [raises]

/-- From ERRCODE 0, a code that shows after a command is one its rule names. -/
theorem mem_raises_of_errcode {i : Instr} {s t : State} (h : exec i s = .next t) (h0 : s.errcode = 0) {code : ErrCode}
    (hc : t.errcode = code.byte) : code ∈ raises i := by
  obtain ⟨d, hd, he⟩ | he := exec_next_errcode h
  · rwa [ErrCode.byte_injective (hc.symm.trans he)]
  · exact absurd (hc.symm.trans (he.trans h0)) code.byte_ne_zero

/-- From ERRCODE 0, a command leaves in ERRCODE one of the values it ever holds: none of the reserved codes. -/
theorem errcode_mem_errcodes {i : Instr} {s t : State} (h : exec i s = .next t) (h0 : s.errcode = 0) :
    t.errcode ∈ errcodes := by
  obtain ⟨d, -, he⟩ | he := exec_next_errcode h
  · rw [he]; exact d.byte_mem
  · rw [he, h0]; decide

/-- Settles O47: ERRCODE after a command is 0 or the code of an error its rule names, and `raises` is the errors table. -/
theorem errorsAreRaisedOnlyByTheirCommands : Obligations.ErrorsAreRaisedOnlyByTheirCommands := by
  unfold Obligations.ErrorsAreRaisedOnlyByTheirCommands
  refine ⟨fun s info => ⟨rfl, rfl, rfl, rfl, rfl, rfl, rfl, rfl, rfl⟩, fun i s t h h0 => ?_⟩
  have hraised : ∀ code : ErrCode, t.errcode = code.byte → code ∈ raises i := fun _ => mem_raises_of_errcode h h0
  have hvalue := errcode_mem_errcodes h h0
  obtain ⟨hchar, hsecret, hkey, hrange, hfinal, hnokey, hconfig, hlong, hillegal⟩ := mem_raises i
  exact ⟨fun hc => hchar.1 (hraised _ hc), fun hc => hsecret.1 (hraised _ hc), fun hc => hkey.1 (hraised _ hc),
    fun hc => hrange.1 (hraised _ hc), fun hc => hfinal.1 (hraised _ hc), fun hc => hnokey.1 (hraised _ hc),
    fun hc => hconfig.1 (hraised _ hc), fun hc => hlong.1 (hraised _ hc), ne_of_mem_of_not_mem hvalue (by decide),
    ne_of_mem_of_not_mem hvalue (by decide), fun hc => hillegal (hraised _ hc)⟩

/-! ## The engine's step (R904, 30_encoding.md R310) -/

/-- Settles O6: `engineStep` runs the decoded command, and counting the step (log 1) changes neither the phase nor the latch. -/
theorem stepRunsTheDecodedCommand : Obligations.StepRunsTheDecodedCommand := by
  unfold Obligations.StepRunsTheDecodedCommand
  intro s i hp hd
  have hunder (p : StepParams) (hm : nextMove p s = .engine) : stepUnder p s = exec i s.moved := by
    rw [stepUnder_engine hm, engineStep_of_decode (s.moved_phase.trans hp) (by rwa [s.moved_latch])]
  exact ⟨engineStep_of_decode hp hd, hunder, hunder Config.stepParams⟩

/-! ## Acceptance (R903) -/

theorem State.writeCmd_idle {s : State} (h : s.phase = .idle) (w : Word) : s.writeCmd w = s.accept w := by
  rw [State.writeCmd, State.busy_of_idle h]
  rfl

/-- Settles O9: the register at 0x014 is CMD, and its write while idle is `State.accept`. -/
theorem cmdWriteAcceptsTheCommand : Obligations.CmdWriteAcceptsTheCommand := by
  unfold Obligations.CmdWriteAcceptsTheCommand
  intro s w h
  rw [registerAt_cmd.write, State.regWrite, State.writeCmd_idle h]
  rfl

/-! ## The interrupt output (R920) -/

theorem State.irq_eq_true_iff {s : State} : s.irq = true ↔ s.ie = true ∧ (s.done = true ∨ s.err = true) := by
  simp [State.irq]

/-- With DONE and ERR clear there is nothing to signal. -/
theorem State.irq_eq_false {s : State} (hdone : s.done = false) (herr : s.err = false) : s.irq = false := by
  simp [State.irq, hdone, herr]

/-- With DONE or ERR set the output is IE. -/
theorem State.irq_eq_ie {s : State} (h : s.done = true ∨ s.err = true) : s.irq = s.ie := by
  obtain h | h := h <;> simp [State.irq, h]

/-- Settles O24: the output falls where both flags are cleared, and shows IE where a command has set one. -/
theorem interruptOutputIsALevel : Obligations.InterruptOutputIsALevel := by
  unfold Obligations.InterruptOutputIsALevel
  intro s
  refine ⟨State.irq_eq_true_iff, fun v hdone herr => State.irq_eq_false ?_ ?_, fun w => State.irq_eq_false rfl rfl,
    State.irq_eq_false rfl rfl, State.irq_eq_false rfl rfl, fun _ _ _ _ => State.irq_eq_ie (.inl rfl),
    fun _ _ => State.irq_eq_ie (.inr rfl)⟩
  · rw [State.ack_done, hdone, Bool.not_true, Bool.and_false]
  · rw [State.ack_err, herr, Bool.not_true, Bool.and_false]

end Sys2Proof.Machine
end

section
/-! PROOFS. The family of 70_reset_and_hazards.md: the window and CMD while busy (O11, O10), and the soft reset (O12). -/

namespace Sys2Proof.Machine

/-! ## Accesses while busy (R1010, R1011) -/

/-- Settles O11: an aligned access passes the window's width and alignment check, and BUSY is asked next. -/
theorem busyBlocksTheWindow : Obligations.BusyBlocksTheWindow := by
  unfold Obligations.BusyBlocksTheWindow
  intro s off n v hp hwin hn halign
  have hok : windowAccessOK off.toNat n = true := windowAccessOK_iff.2 ⟨hn, halign⟩
  exact ⟨hostRead_window_busy hwin hok hp, hostWrite_window_busy v hwin hok hp⟩

theorem State.writeCmd_pending {s : State} (h : s.phase = .pending) (w : Word) :
    s.writeCmd w = { s with cmdOvr := true } := by
  rw [State.writeCmd, State.busy_of_pending h]
  rfl

/-- Settles O10: the register at 0x014 is CMD, and its write while pending only sets CMD_OVR. -/
theorem cmdWriteWhileBusyOnlySetsCmdOvr : Obligations.CmdWriteWhileBusyOnlySetsCmdOvr := by
  unfold Obligations.CmdWriteWhileBusyOnlySetsCmdOvr
  intro s w hp
  rw [registerAt_cmd.write, State.regWrite, State.writeCmd_pending hp]
  rfl

/-! ## The soft reset (R102, R1002) -/

/-- CTRL bit 0 decides alone: the phase and bit 1 are not looked at. -/
theorem State.writeCtrl_softReset (s : State) {v : Word} (h : v.getLsbD 0 = true) : s.writeCtrl v = s.softReset :=
  if_pos h

/-- Settles O12: the register at 0x004 is CTRL, and its write with bit 0 set is `State.softReset`. -/
theorem softResetRestoresAllButDbuf : Obligations.SoftResetRestoresAllButDbuf := by
  unfold Obligations.SoftResetRestoresAllButDbuf
  intro s v h
  rw [registerAt_ctrl.write, State.regWrite, State.writeCtrl_softReset s h]
  rfl

end Sys2Proof.Machine
end
